-- ==== Sys2Proof/Word.lean ====
section
/-! DEFINITION. The words of the QFC codec block: what the spec treats as bits (R13, R15, R70, R100). -/

namespace Sys2Proof

/-- A 32-bit host register or command word (R34, R100). -/
abbrev Word := BitVec 32

/-- One byte of a bit buffer (R55). -/
abbrev Byte := BitVec 8

/-- One `int16` sample, held as its two's-complement pattern (R15, R75). -/
abbrev Sample := BitVec 16

/-- A byte address of the 12-bit host window (R70). -/
abbrev Addr := BitVec 12

end Sys2Proof
end

