-- ==== Sys2Proof/Syntax.lean ====
section
/-! DEFINITION. The syntax: the six commands (R101, R104) and the host operations of R75, R117 and R320. -/

namespace Sys2Proof

/-- A QFC command: one constructor per row of the opcode table (R104). -/
inductive Instr where
  /-- CREATE (R142). `mode` is the MODE field `w[11:8]`, zero-extended (R102). -/
  | create (mode : Nat)
  /-- DESTROY (R150). -/
  | destroy
  /-- GETBITS (R152). -/
  | getbits
  /-- GETSAMPLES (R153). -/
  | getsamples
  /-- ENCODE (R190); its data operands are the host buffers (R106). -/
  | encode
  /-- DECODE (R220); its data operands are the host buffers (R106). -/
  | decode
deriving DecidableEq, Repr

/-- What the outside world does to the block, one at a time (R75, R82, R117, R320).
The widths are any number of bytes, since R72 gives an inadmissible width its own outcome. -/
inductive HostOp where
  /-- `MemRead(addr, bytes)` (R75). -/
  | read (addr : Addr) (bytes : Nat)
  /-- `MemWrite(addr, bytes, value)` (R75); `value` is an `8 * bytes`-bit value. -/
  | write (addr : Addr) (bytes : Nat) (value : Nat)
  /-- The block's reset input is asserted (R320). -/
  | reset
deriving DecidableEq, Repr

end Sys2Proof
end

