-- ==== Sys2Proof/WellFormed.lean ====
section
/-! DEFINITION. Which commands a command word can name. -/

namespace Sys2Proof

/-- A command is well formed when its operand fits its field: MODE is a 4-bit number (R100, R102).
The other commands have no operand (R103). The unsupported mode codes 3 to 15 are well formed (R102). -/
def Instr.wf : Instr → Bool
  | .create mode => decide (mode < 16)
  | .destroy => true
  | .getbits => true
  | .getsamples => true
  | .encode => true
  | .decode => true

/-- A host operation is well formed when a written value has the width of its access (R75). -/
def HostOp.wf : HostOp → Bool
  | .read _ _ => true
  | .write _ bytes value => decide (value < 2 ^ (8 * bytes))
  | .reset => true

end Sys2Proof
end

