-- ==== Sys2Proof/Decode.lean ====
section
/-! DEFINITION. The command word (R100 to R106): its fields, its decoder, total on 32-bit words, and its encoder. -/

namespace Sys2Proof

/-- Field OP, `w[7:0]` (R100). -/
def fieldOp (w : Word) : BitVec 8 := w.extractLsb' 0 8

/-- Field MODE, `w[11:8]` (R100, R102). -/
def fieldMode (w : Word) : BitVec 4 := w.extractLsb' 8 4

/-- Field RSVD, `w[31:12]` (R100). -/
def fieldRsvd (w : Word) : BitVec 20 := w.extractLsb' 12 20

/-- Why a word is undefined: the three reasons of R105. -/
inductive Undefined where
  /-- RSVD is not 0. -/
  | rsvdNotZero
  /-- OP is not one of 0x01 to 0x06. -/
  | opUndefined
  /-- OP is one of 0x02 to 0x06 and MODE is not 0 (R103). -/
  | modeNotZero
deriving DecidableEq, Repr

/-- A command other than CREATE: MODE must be 0 (R103). -/
def decodePlain (mode : BitVec 4) (i : Instr) : Except Undefined Instr :=
  if mode = 0 then .ok i else .error .modeNotZero

/-- The command a 32-bit word names, or why it names none (R101 to R105). -/
def decodeWord (w : Word) : Except Undefined Instr :=
  if fieldRsvd w ≠ 0 then .error .rsvdNotZero
  else if fieldOp w = 0x01 then .ok (.create (fieldMode w).toNat)
  else if fieldOp w = 0x02 then decodePlain (fieldMode w) .destroy
  else if fieldOp w = 0x03 then decodePlain (fieldMode w) .getbits
  else if fieldOp w = 0x04 then decodePlain (fieldMode w) .getsamples
  else if fieldOp w = 0x05 then decodePlain (fieldMode w) .encode
  else if fieldOp w = 0x06 then decodePlain (fieldMode w) .decode
  else .error .opUndefined

/-- The word of a command: `{RSVD, MODE, OP}` from its fields (R100, R101). -/
def assembleWord (op : BitVec 8) (mode : Nat) : Word :=
  (0 : BitVec 20) ++ BitVec.ofNat 4 mode ++ op

/-- The word of a well-formed command, as the table of R101 and the pseudo-instructions of R118 give it. -/
def encodeWord : Instr → Word
  | .create mode => assembleWord 0x01 mode
  | .destroy => assembleWord 0x02 0
  | .getbits => assembleWord 0x03 0
  | .getsamples => assembleWord 0x04 0
  | .encode => assembleWord 0x05 0
  | .decode => assembleWord 0x06 0

/-- The word an opcode-table row's bits stand for: `nbits` bits of `w`, every bit above them 0. -/
def tableWord (nbits w : Nat) : Word := BitVec.ofNat 32 (w % 2 ^ nbits)

/-- The command this decoder reads from an instruction whose bits are `w` (one 32-bit word, R100). -/
def decodeTableWord (nbits w : Nat) : Option Instr :=
  (decodeWord (tableWord nbits w)).toOption

end Sys2Proof
end

