-- ==== Sys2Proof/Machine/Numeric.lean ====
section
/-! DEFINITION. The values of the numeric type NUM (R12, R15) and what QFC itself asks of them: comparison, the tests
of R296 and floor. The arithmetic of NUM is OPEN (D26) and stands in Config as parameters. -/

namespace Sys2Proof

/-- A value of NUM, "the floating-point type of model parameters and pre-clamp samples" (R12): NaN, an infinity, or a
finite value, which in a floating-point type is a rational. Which rationals a given NUM has is OPEN (D26); DESIGN CHOICE,
log 4. A signed zero is kept apart from 0 because a collaborator may tell them apart (PRESUMED, log 14). -/
inductive Numeric where
  | nan
  | posInf
  | negInf
  | negZero
  | finite (value : Rat)
deriving DecidableEq, Repr, Inhabited

/-- The rational a finite value stands for; none for NaN and the infinities. -/
def Numeric.toRat? : Numeric → Option Rat
  | .finite q => some q
  | .negZero => some 0
  | .nan => none
  | .posInf => none
  | .negInf => none

/-- The place of a value in the order of NUM, none for NaN: -∞, then the finite values by size, then +∞ (R230). -/
def Numeric.rank? : Numeric → Option (Int × Rat)
  | .nan => none
  | .negInf => some (-1, 0)
  | .posInf => some (1, 0)
  | .negZero => some (0, 0)
  | .finite q => some (0, q)

/-- `x < y` in NUM: "every comparison with NaN is false" (R296 check 6); infinities are ordered (R230); -0 equals 0
(log 14). -/
def Numeric.lt (x y : Numeric) : Bool :=
  match x.rank?, y.rank? with
  | some (a, q), some (b, r) => decide (a < b) || (decide (a = b) && decide (q < r))
  | _, _ => false

/-- `x ≤ y` in NUM, false when one of them is NaN (R266). -/
def Numeric.le (x y : Numeric) : Bool :=
  match x.rank?, y.rank? with
  | some (a, q), some (b, r) => decide (a < b) || (decide (a = b) && decide (q ≤ r))
  | _, _ => false

/-- `y` is NaN (R230). -/
def Numeric.isNaN : Numeric → Bool
  | .nan => true
  | _ => false

/-- `y` is neither NaN nor an infinity (R223, R263, R264). -/
def Numeric.isFinite (x : Numeric) : Bool := x.toRat?.isSome

/-- An integer as a NUM (R12 "conversion from int16"), used exactly: the bounds of R230 (log 21). -/
def Numeric.ofInt (n : Int) : Numeric := .finite n

/-- "finite and greater than 0" (R223, R263, R264, R296). -/
def Numeric.finitePositive (x : Numeric) : Bool := x.isFinite && Numeric.lt (.ofInt 0) x

/-- `floor` of a NUM that is finite (R12, R265); an infinity or a NaN has none (log 12). -/
def Numeric.floor? (x : Numeric) : Option Int := x.toRat?.map Rat.floor

/-- Every element is less than the next (R268). -/
def strictlyIncreasing : List Numeric → Bool
  | [] => true
  | [_] => true
  | x :: y :: rest => Numeric.lt x y && strictlyIncreasing (y :: rest)

end Sys2Proof
end

