-- ==== Sys2Proof/Machine/Types.lean ====
section
/-! DEFINITION. The data types of the codec: frame modes, models, LSP vectors, collaborator memories, frame fields
(R10, R15, R16, R107). -/

namespace Sys2Proof

/-- The three frame modes (R8, R33). -/
inductive FrameMode where
  | A
  | B
  | C
deriving DecidableEq, Repr

/-- `Model` of R15, with its `A : NUM[1..L]`: exactly L amplitudes, entry `k` of the vector being `A[k+1]`. QFC reads Wo, L and
voiced; the amplitudes are opaque to it. As with every element count, the type fixes their number and nothing checks it
(R296); L_MAX bounds the counts `harmonics` gives (R265, D41). -/
structure Model where
  wo : Numeric
  l : Nat
  amps : Vector Numeric l
  voiced : Bool
deriving DecidableEq, Repr, Inhabited

/-- The record `{Wo, L, voiced}` that R220 hands to RECOVER_AMPS and R260 to INTERP_WO: a model with no amplitudes
(log 13). -/
structure ModelHead where
  wo : Numeric
  l : Nat
  voiced : Bool
deriving DecidableEq, Repr, Inhabited

/-- The three fields of a model that QFC reads (R47). -/
def Model.head (m : Model) : ModelHead := ⟨m.wo, m.l, m.voiced⟩

/-- `LspVec`, ten NUM values (R11, R15). -/
abbrev LspVec := Vector Numeric 10

/-- `Hist` (R15, R43): the last N_HIST samples, oldest first. -/
abbrev Hist := List Sample

/-- ANA_STATE, the analyzer's pitch-tracking context, opaque to QFC (R12, R44); its values are numbered (log 5). -/
structure AnaState where
  code : Nat
deriving DecidableEq, Repr, Inhabited

/-- PRED_STATE, a predictor memory of the joint quantizer, opaque to QFC (R12, R45, R46); log 5. -/
structure PredState where
  code : Nat
deriving DecidableEq, Repr, Inhabited

/-- PHASE_STATE, the phase accumulator, opaque to QFC (R12, R50); log 5. -/
structure PhaseState where
  code : Nat
deriving DecidableEq, Repr, Inhabited

/-- NOISE_STATE, the background-noise estimate, opaque to QFC (R12, R51); log 5. -/
structure NoiseState where
  code : Nat
deriving DecidableEq, Repr, Inhabited

/-- OLA_STATE, the overlap buffer, opaque to QFC (R12, R52); log 5. -/
structure OlaState where
  code : Nat
deriving DecidableEq, Repr, Inhabited

/-- COEFFS, filter coefficients made from an LSP vector, opaque to QFC (R12, D37); not state (R58); log 5. -/
structure Coeffs where
  values : List Numeric
deriving DecidableEq, Repr, Inhabited

/-- The fields of a QuantizedFrame (R107 to R112, R173). -/
inductive FieldName where
  /-- `v_k`, the voicing bit of sub-frame k. -/
  | voicing (k : Nat)
  /-- `WoE_j`, the joint Wo+Energy index of sub-frame 2j-1. -/
  | woe (j : Nat)
  /-- Sub-field i of the LSP index set: `lsp_i` in modes A and B, `vq_i` in mode C. -/
  | lsp (i : Nat)
  /-- The spare field. -/
  | spare
deriving DecidableEq, Repr

/-- Values for the fields of a frame, in the order of the layout (R173). -/
abbrev FieldList := List (FieldName × Nat)

end Sys2Proof
end

