-- ==== Sys2Proof/Config.lean ====
section
/-! DEFINITION. The configuration parameters of R12: what the source leaves open or places in a collaborator. None has a
value here; `Config.built` is opaque, so a claim about it holds of every implementation (log 6). -/

namespace Sys2Proof

/-- The default vector the structure below needs to be inhabited: ten rising values. No rule uses it. -/
def risingVec : LspVec := Vector.ofFn fun i => .finite ((i.val : Rat) + 1)

/-- The parameters of R12 but CREATE_MAY_FAIL, which `Config` holds. Every function is total and deterministic (R12).
The proof fields are the contracts R12 and R230 state for every configuration (log 15); the contracts whose breach R296
makes a COLLAB fault are not among them. The default values only show that the structure is inhabited. -/
structure Params where
  /-- `+` of NUM (D26). -/
  add : Numeric → Numeric → Numeric
  /-- `-` of NUM (D26). -/
  sub : Numeric → Numeric → Numeric
  /-- `*` of NUM (D26). -/
  mul : Numeric → Numeric → Numeric
  /-- `/` of NUM (D26). -/
  div : Numeric → Numeric → Numeric
  /-- The constant π of NUM (R12, R265). -/
  pi : Numeric
  /-- A free value: the session-start harmonic count where π/RESET_WO has no floor or a negative one (log 12). -/
  floorOpen : Numeric → Nat
  /-- TO_INT, conversion of an in-range pre-clamp sample (D25). -/
  toInt : Numeric → Int := fun y => match y.toRat? with
    | some q => if 0 ≤ q then ⌊q⌋ else ⌈q⌉
    | none => 0
  /-- N_HIST, the length of the sample history (D28). -/
  nHist : Nat := 80
  /-- L_MAX, the largest harmonic count (D41). -/
  lMax : Nat
  /-- LSP_SCALAR_WIDTHS (D20). -/
  lspScalarWidths : List Nat := [4, 4, 4, 4, 4, 4, 4, 3, 3, 2]
  /-- LSP_VQ_WIDTHS; its length is N_VQ (D20). -/
  lspVqWidths : List Nat := [9, 9, 9]
  /-- The oracle of R147: the n-th resource-failure draw (log 8). -/
  failDraw : Nat → Bool
  /-- RESET_LSP (D27). -/
  resetLsp : LspVec := risingVec
  /-- RESET_WO, the default pitch (D27). -/
  resetWo : Numeric := .finite 1
  /-- RESET_E (D27). -/
  resetE : Numeric := .finite 1
  /-- A free value: the amplitudes of the session-start model, as many as its L, which no rule reads (R15, R42, R47, log 13). -/
  resetAmps : (l : Nat) → Vector Numeric l
  /-- PRED_RESET (D27). -/
  predReset : PredState
  /-- ANA_RESET (D27). -/
  anaReset : AnaState
  /-- PHASE_RESET (D27). -/
  phaseReset : PhaseState
  /-- NOISE_RESET (D27). -/
  noiseReset : NoiseState
  /-- OLA_RESET (D27). -/
  olaReset : OlaState
  /-- ANALYZE, the external analyzer (R193). -/
  analyze : Hist → AnaState → Model × AnaState
  /-- ENVELOPE, short-term energy and envelope LSPs of the history (R195). -/
  envelope : Hist → Numeric × LspVec
  /-- ENC_WOE, the joint quantizer: an index and the next memory (R195). -/
  encWoe : Model → Numeric → PredState → Nat × PredState
  /-- DEC_WOE: Wo, energy and the next memory (R223). -/
  decWoe : Nat → PredState → Numeric × Numeric × PredState
  /-- ENC_LSP_SCALAR: ten indices (R196). -/
  encLspScalar : LspVec → Vector Nat 10
  /-- DEC_LSP_SCALAR (R224). -/
  decLspScalar : Vector Nat 10 → LspVec
  /-- ENC_LSP_VQ: N_VQ indices (R196). -/
  encLspVq : LspVec → List Nat := fun _ => lspVqWidths.map fun _ => 0
  /-- DEC_LSP_VQ, called with N_VQ indices (R224). -/
  decLspVq : List Nat → LspVec
  /-- LSP_TO_COEFFS (R227). -/
  lspToCoeffs : LspVec → Coeffs
  /-- RECOVER_AMPS: the model with amplitudes, and an snr that no rule reads (R228). -/
  recoverAmps : Coeffs → Numeric → ModelHead → Model × Numeric
  /-- MAG_CORRECT, the opaque tunable (R228). -/
  magCorrect : Model → Model
  /-- PHASE_SYNTH (R227). -/
  phaseSynth : Model → Coeffs → PhaseState → Model × PhaseState
  /-- POSTFILTER, called on every sub-frame (R229). -/
  postfilter : Model → NoiseState → Model × NoiseState
  /-- OLA_SYNTH: 80 pre-clamp samples (R227). -/
  olaSynth : Model → OlaState → Vector Numeric 80 × OlaState
  /-- INTERP_WO: Wo and voicing of a sub-frame with no transmitted Wo (R263). -/
  interpWo : ModelHead → Bool → ModelHead → Numeric → Numeric × Bool
  /-- INTERP_E: energy of a sub-frame with no transmitted energy (R264). -/
  interpE : Numeric → Numeric → Numeric → Numeric
  /-- LSP_ORDER_FIX, the deterministic reorder (R268). -/
  lspOrderFix : LspVec → LspVec
  /-- BW_EXPAND, the formant bandwidth expansion (R269). -/
  bwExpand : LspVec → LspVec
  /-- R12: `N_HIST >= 80`. -/
  nHist_ge : 80 ≤ nHist := by decide
  /-- R12: ten widths. -/
  scalar_length : lspScalarWidths.length = 10 := by decide
  /-- R12: the scalar widths sum to 36. -/
  scalar_sum : lspScalarWidths.sum = 36 := by decide
  /-- R12: each scalar width is at least 1. -/
  scalar_pos : ∀ w ∈ lspScalarWidths, 1 ≤ w := by decide
  /-- R12: the VQ widths sum to 27. -/
  vq_sum : lspVqWidths.sum = 27 := by decide
  /-- R12: each VQ width is at least 1. -/
  vq_pos : ∀ w ∈ lspVqWidths, 1 ≤ w := by decide
  /-- R12: ENC_LSP_VQ gives N_VQ indices, by its type. -/
  encLspVq_length : ∀ v, (encLspVq v).length = lspVqWidths.length := by intro v; simp
  /-- R12: RESET_LSP is strictly increasing. -/
  resetLsp_increasing : strictlyIncreasing resetLsp.toList = true := by decide +kernel
  /-- R12: RESET_WO is positive. -/
  resetWo_pos : Numeric.lt (.ofInt 0) resetWo = true := by decide +kernel
  /-- R12: RESET_E is positive. -/
  resetE_pos : Numeric.lt (.ofInt 0) resetE = true := by decide +kernel
  /-- R230: TO_INT gives an integer in [-32767, 32767] that differs from `y` by less than 1. -/
  toInt_near : ∀ (y : Numeric) (q : Rat), y.toRat? = some q → -32767 ≤ q → q ≤ 32767 →
      -32767 ≤ toInt y ∧ toInt y ≤ 32767 ∧ q - 1 < toInt y ∧ (toInt y : Rat) < q + 1 := by
    intro y q hy hlo hhi
    simp only [hy]
    split
    · rename_i h0
      refine ⟨?_, ?_, ?_, ?_⟩
      · have := Int.floor_nonneg.mpr h0
        omega
      · have : (⌊q⌋ : Rat) ≤ 32767 := le_trans (Int.floor_le q) hhi
        exact_mod_cast this
      · exact Int.sub_one_lt_floor q
      · exact lt_of_le_of_lt (Int.floor_le q) (by linarith)
    · rename_i h0
      have h1 : q ≤ (⌈q⌉ : Rat) := Int.le_ceil q
      refine ⟨?_, ?_, ?_, ?_⟩
      · have : (-32767 : Rat) ≤ (⌈q⌉ : Rat) := le_trans hlo h1
        exact_mod_cast this
      · have : ⌈q⌉ ≤ 0 := Int.ceil_le.mpr (by push_cast; linarith)
        omega
      · linarith
      · exact Int.ceil_lt_add_one q
deriving Inhabited

/-- The stub collaborators of 95_test_vectors.md section 2 with, beside the plain pair T-ENC and T-DEC, the replacements
its vectors name. They are "not normative"; they are here so that the machine can be run on the spec's own vectors
(log 6, log 16). -/
inductive StubVariant where
  /-- T-ENC and T-DEC as they stand. -/
  | plain
  /-- TV-E9: ENC_WOE returns index 256. -/
  | woeIndexTooLarge
  /-- TV-E10: ENC_LSP_SCALAR returns lsp9 = 4. -/
  | lspIndexTooLarge
  /-- TV-D18: DEC_WOE returns Wo = 0. -/
  | woZero
  /-- TV-D19: DEC_WOE returns energy -1. -/
  | energyNegative
  /-- TV-D23: OLA_SYNTH returns NaN at sample 3 of sub-frame 1. -/
  | sampleNaN
  /-- The INTERP_WO of TV-X6: a voiced neighbour on the left gives Wo = 0.015625, L = 201. -/
  | interpWoSmall
  /-- TV-D24: LSP_ORDER_FIX returns a tie. -/
  | lspTie
deriving DecidableEq, Repr

/-- Which implementation of the parameters a QFC was built with. -/
inductive Implementation where
  /-- An implementation of which nothing is known but the contracts of `Params`. -/
  | built (n : Nat)
  /-- The test stubs of 95_test_vectors.md. -/
  | stub (v : StubVariant)
deriving DecidableEq, Repr

/-- The configuration a QFC was built with: plain data, fixed for the machine (R12, log 6). -/
structure Config where
  /-- CREATE_MAY_FAIL (D11). -/
  createMayFail : Bool
  /-- All other parameters. -/
  implementation : Implementation
deriving DecidableEq, Repr

/-- The open parameters of implementation `n`: opaque, so nothing can be proved of them but the contracts (log 6). -/
opaque Config.built : Nat → Params

end Sys2Proof
end

