-- ==== Sys2Proof/Machine/State.lean ====
section
/-! DEFINITION. The state of QFC (R30) as plain data, why a step can stop, and the state after hardware reset (R59). -/

namespace Sys2Proof.Machine

/-- STATUS.ERR (R291); codes 10 to 15 are never written and have no value here (U8). -/
inductive ErrCode where
  | ok
  | badMode
  | noResource
  | noInstance
  | illegalCmd
  | alreadyConfigured
  | bus
  | collab
  | numeric
  | uninit
deriving DecidableEq, Repr

/-- The encode fields of the CodecState (R42, R53). -/
structure EncState where
  /-- The sample history, oldest first (R43). -/
  hist : Hist
  /-- The analyzer context (R44). -/
  anaCtx : AnaState
  /-- The encode-direction predictor memory (R45). -/
  predEnc : PredState
deriving DecidableEq, Repr

/-- The decode fields of the CodecState (R42, R53). -/
structure DecState where
  /-- The decode-direction predictor memory (R46). -/
  predDec : PredState
  /-- The model of the last sub-frame of the previous DECODE (R47). -/
  prevModel : Model
  /-- The previous frame's final LSP vector (R48). -/
  prevLsps : LspVec
  /-- The previous frame's trailing energy (R49). -/
  prevE : Numeric
  /-- The phase accumulator (R50). -/
  phase : PhaseState
  /-- The noise estimate (R51). -/
  noise : NoiseState
  /-- The overlap buffer (R52). -/
  ola : OlaState
deriving DecidableEq, Repr

/-- The CodecState of an instance: the encode and the decode fields, disjoint (R42, R53). -/
structure CodecState where
  enc : EncState
  dec : DecState
deriving DecidableEq, Repr

/-- An instance: a mode and a CodecState (R33). -/
structure Inst where
  mode : FrameMode
  cs : CodecState
deriving DecidableEq, Repr

/-- The four host buffers (R55, R70): the bytes written so far, by address, in strictly rising order. An address that is
not listed has no value, which is the clear written mark of R55 (log 10). -/
abbrev Memory := List Host.Cell

/-- The machine. STATUS is not stored whole: its STATE and MODE fields are the instance's presence and mode (R33, R36, R37)
and its reserved bits read 0, so `statusWord` computes it (log 3). -/
structure State where
  /-- CMD, the last command word written (R34). -/
  cmd : Word
  /-- STATUS.ERR (R38). -/
  err : ErrCode
  /-- STATUS.FAULT, sticky (R39). -/
  fault : Bool
  /-- RESULT (R40). -/
  result : Word
  /-- The instance, present exactly while STATUS.STATE = READY (R33). -/
  inst : Option Inst
  /-- The host buffers and their written marks (R55). -/
  mem : Memory
  /-- The model's own: what the host's latest completed read returned (R75, log 11). -/
  readData : Option Word
  /-- The model's own: the host operations still to come, in program order (R17, R82, log 1). -/
  hostQueue : List HostOp
  /-- The configuration this QFC was built with; no step changes it (R12, log 6). -/
  config : Config
  /-- The model's own: how many resource-failure draws were taken (R147, log 8). -/
  draws : Nat
deriving DecidableEq, Repr

/-- The three host registers as the host would read them (R34, R35, R40). -/
structure Registers where
  cmd : Word
  status : Word
  result : Word
deriving DecidableEq, Repr

/-- The model faults (R290): a faulting error sets STATUS.ERR and STATUS.FAULT, and the step gives no next state. Each
constructor carries what R290 says the hardware then holds; it is a record, not a successor (log 2). -/
inductive Fault where
  /-- NO_INSTANCE (R292), by DESTROY, GETBITS, GETSAMPLES, ENCODE and DECODE with no instance. Safe: the spec's own fault. -/
  | noInstance (left : State)
  /-- ILLEGAL_CMD (R294), by a write of an undefined command word. Safe: the spec's own fault. -/
  | illegalCmd (left : State)
  /-- ALREADY_CONFIGURED (R293), by CREATE with an instance. Safe: the spec's own fault. -/
  | alreadyConfigured (left : State)
  /-- BUS (R295), by a host access that R71 to R74 do not admit. Safe: the spec's own fault. -/
  | bus (left : State)
  /-- UNINIT (R298), by a host read, ENCODE or DECODE of an element never written. Safe: the spec's own fault. -/
  | uninit (left : State)
  /-- COLLAB (R296), by ENCODE and DECODE when a collaborator breaks its contract. What else the hardware holds is
  unspecified (R202, R238, U2), so only the registers are given. Safe: the spec's own fault. -/
  | collab (left : Registers)
  /-- NUMERIC (R297), by DECODE on a NaN pre-clamp sample. Only the registers are given, as for COLLAB. Safe: the spec's
  own fault. -/
  | numeric (left : Registers)
deriving DecidableEq, Repr

/-- Refusals. The spec gives every command its effect, so no meaning refuses. -/
inductive Refusal where
  /-- Raised by an arm of exec whose instruction has no meaning yet (none in this model). Safe: nothing is claimed. -/
  | notModelled (mnemonic : String)
deriving DecidableEq, Repr

/-- The configuration the reset state is given: the spec's default for CREATE_MAY_FAIL (D11) and an implementation of which
nothing is known (DESIGN CHOICE, log 7). -/
def resetConfig : Config := { createMayFail := false, implementation := .built 0 }

/-- The machine right after hardware reset (R59, R320, R321). -/
def State.reset : State where
  cmd := 0
  err := .ok
  fault := false
  result := 0
  inst := none
  mem := []
  readData := none
  hostQueue := []
  config := resetConfig
  draws := 0

end Sys2Proof.Machine
end

