-- ==== Sys2Proof/Machine/Flags.lean ====
section
/-! DEFINITION. The STATUS register, QFC's only flags (R35, R56): the error codes and the one view that computes it. -/

namespace Sys2Proof.Machine

/-- The seven faulting errors (R290). -/
inductive FaultCode where
  | noInstance
  | illegalCmd
  | alreadyConfigured
  | bus
  | collab
  | numeric
  | uninit
deriving DecidableEq, Repr

/-- The error code of a faulting error (R291). -/
def FaultCode.err : FaultCode → ErrCode
  | .noInstance => .noInstance
  | .illegalCmd => .illegalCmd
  | .alreadyConfigured => .alreadyConfigured
  | .bus => .bus
  | .collab => .collab
  | .numeric => .numeric
  | .uninit => .uninit

/-- The code of an error as STATUS.ERR holds it (R291). -/
def ErrCode.code : ErrCode → BitVec 4
  | .ok => 0
  | .badMode => 1
  | .noResource => 2
  | .noInstance => 3
  | .illegalCmd => 4
  | .alreadyConfigured => 5
  | .bus => 6
  | .collab => 7
  | .numeric => 8
  | .uninit => 9

/-- The mode code of a frame mode (R102, R141). -/
def modeCode : FrameMode → BitVec 4
  | .A => 0
  | .B => 1
  | .C => 2

/-- STATUS.STATE: 1 = READY exactly while an instance exists (R33, R35, R36). -/
def statusState (s : State) : BitVec 2 := if s.inst.isSome then 1 else 0

/-- STATUS.MODE: the instance's mode code, 15 when there is none (R35, R37). -/
def statusMode (s : State) : BitVec 4 :=
  match s.inst with
  | some i => modeCode i.mode
  | none => 15

/-- The STATUS register: FAULT [12], ERR [11:8], MODE [5:2], STATE [1:0], every other bit 0 (R35, U7). -/
def statusWord (s : State) : Word :=
  (0 : BitVec 19) ++ BitVec.ofBool s.fault ++ s.err.code ++ (0 : BitVec 2) ++ statusMode s ++ statusState s

/-- The registers as the host would read them (R34, R35, R40). -/
def registersOf (s : State) : Registers := ⟨s.cmd, statusWord s, s.result⟩

/-- STATUS.ERR of a STATUS word (R35). -/
def errField (w : Word) : BitVec 4 := w.extractLsb' 8 4

/-- STATUS.FAULT of a STATUS word (R35). -/
def faultField (w : Word) : Bool := w.getLsbD 12

/-- STATUS.MODE of a STATUS word (R35). -/
def modeField (w : Word) : BitVec 4 := w.extractLsb' 2 4

/-- STATUS.STATE of a STATUS word (R35). -/
def stateField (w : Word) : BitVec 2 := w.extractLsb' 0 2

end Sys2Proof.Machine
end

