-- ==== Sys2Proof/Machine/Ops.lean ====
section
/-! DEFINITION. Named operations over the state: field updates, the byte memory behind the host buffers (R55, R70, R75), and
raising an error (R140, R290), the one shared operation. QFC has no trap entry and no return from one (R302, R303). -/

namespace Sys2Proof.Machine

/-! ## Field updates -/

def State.withCmd (s : State) (w : Word) : State := { s with cmd := w }
def State.withErr (s : State) (e : ErrCode) : State := { s with err := e }
def State.withFault (s : State) (b : Bool) : State := { s with fault := b }
def State.withResult (s : State) (w : Word) : State := { s with result := w }
def State.withInst (s : State) (i : Option Inst) : State := { s with inst := i }
def State.withMem (s : State) (m : Memory) : State := { s with mem := m }
def State.withReadData (s : State) (r : Option Word) : State := { s with readData := r }
def State.withHostQueue (s : State) (q : List HostOp) : State := { s with hostQueue := q }
def State.withDraws (s : State) (n : Nat) : State := { s with draws := n }
def State.withConfig (s : State) (c : Config) : State := { s with config := c }

/-! ## Memory: a sorted list of cells; an unlisted address has no value (R55, R59) -/

/-- The byte at an address, none where nothing has been written (R55). -/
def Memory.get : Memory → Nat → Option Byte
  | [], _ => none
  | (a, b) :: rest, x => if x = a then some b else Memory.get rest x

/-- Store a byte, keeping the addresses strictly rising. -/
def Memory.set : Memory → Nat → Byte → Memory
  | [], x, v => [(x, v)]
  | (a, b) :: rest, x, v =>
    if x < a then (x, v) :: (a, b) :: rest
    else if x = a then (x, v) :: rest
    else (a, b) :: Memory.set rest x v

/-- Every address of the list is above `x`. -/
def Memory.above (x : Nat) (m : Memory) : Bool := m.all fun c => decide (x < c.1)

/-- The canonical form: addresses strictly rising. An unlisted address has no value, so no entry can equal it. -/
def Memory.wf : Memory → Bool
  | [] => true
  | c :: rest => Memory.above c.1 rest && Memory.wf rest

/-- A PCM element: two cells, the lower address holding the low byte, which no host access can observe (R77, log 9). -/
def Memory.getSample (m : Memory) (a : Nat) : Option Sample :=
  match Memory.get m a, Memory.get m (a + 1) with
  | some lo, some hi => some (hi ++ lo)
  | _, _ => none

/-- Store a PCM element whole (R75). -/
def Memory.setSample (m : Memory) (a : Nat) (v : Sample) : Memory :=
  Memory.set (Memory.set m a (v.extractLsb' 0 8)) (a + 1) (v.extractLsb' 8 8)

/-- `n` PCM elements from address `a` on, in increasing order; none if one of them was never written (R191). -/
def Memory.readSamples (m : Memory) : (a n : Nat) → Option (List Sample)
  | _, 0 => some []
  | a, n + 1 =>
    match Memory.getSample m a, Memory.readSamples m (a + 2) n with
    | some x, some xs => some (x :: xs)
    | _, _ => none

/-- `n` bytes from address `a` on; none if one of them was never written (R221). -/
def Memory.readBytes (m : Memory) : (a n : Nat) → Option (List Byte)
  | _, 0 => some []
  | a, n + 1 =>
    match Memory.get m a, Memory.readBytes m (a + 1) n with
    | some x, some xs => some (x :: xs)
    | _, _ => none

/-- Store PCM elements from address `a` on (R220). -/
def Memory.writeSamples (m : Memory) (a : Nat) : List Sample → Memory
  | [] => m
  | x :: xs => Memory.writeSamples (Memory.setSample m a x) (a + 2) xs

/-- Store bytes from address `a` on (R198). -/
def Memory.writeBytes (m : Memory) (a : Nat) : List Byte → Memory
  | [] => m
  | x :: xs => Memory.writeBytes (Memory.set m a x) (a + 1) xs

/-! ## Errors -/

/-- What a faulting error does to STATUS: ERR gets its code and FAULT is set (R140, R290). -/
def raiseErr (e : FaultCode) (s : State) : State := (s.withErr e.err).withFault true

/-- `fault_err(code)` of R140: set STATUS.ERR and STATUS.FAULT, then end the step in the model fault of that name (R290). -/
def faultErr (e : FaultCode) (s : State) : Host.Outcome State Fault Refusal :=
  match e with
  | .noInstance => .fault (.noInstance (raiseErr .noInstance s))
  | .illegalCmd => .fault (.illegalCmd (raiseErr .illegalCmd s))
  | .alreadyConfigured => .fault (.alreadyConfigured (raiseErr .alreadyConfigured s))
  | .bus => .fault (.bus (raiseErr .bus s))
  | .uninit => .fault (.uninit (raiseErr .uninit s))
  | .collab => .fault (.collab (registersOf (raiseErr .collab s)))
  | .numeric => .fault (.numeric (registersOf (raiseErr .numeric s)))

/-- `status_err(code)` of R14: set STATUS.ERR without a fault. -/
def statusErr (e : ErrCode) (s : State) : Host.Outcome State Fault Refusal := .next (s.withErr e)

end Sys2Proof.Machine
end

