-- ==== Sys2Proof/Machine/Operands.lean ====
section
/-! DEFINITION. The mode-dispatch router (R141) and the implicit operands of the commands: the instance's mode and the
buffer ranges of R79 and R106. -/

namespace Sys2Proof.Machine

/-- The supported mode a code names (R102, R141). -/
def modeOfCode : Nat → Option FrameMode
  | 0 => some .A
  | 1 => some .B
  | 2 => some .C
  | _ => none

/-- K, sub-frames per frame (R10, R141). -/
def subframes : FrameMode → Nat
  | .A => 2
  | .B => 4
  | .C => 4

/-- BITS, bits per frame (R10, R141). -/
def bitsPerFrame : FrameMode → Nat
  | .A => 48
  | .B => 56
  | .C => 48

/-- N_SUB, samples per sub-frame (R10). -/
def subframeLength : Nat := 80

/-- SAMPLES = K * N_SUB, samples per frame (R10, R141). -/
def samplesPerFrame (m : FrameMode) : Nat := subframes m * subframeLength

/-- NBYTES = ceil(BITS/8), wire bytes per frame (R10, R78). -/
def bytesPerFrame (m : FrameMode) : Nat := (bitsPerFrame m + 7) / 8

/-- N_WOE, WoE indices per frame (R10). -/
def woeCount (m : FrameMode) : Nat := subframes m / 2

/-- Window address of PCM_IN[0] (R70). -/
def pcmInBase : Nat := 0x100

/-- Window address of PCM_OUT[0] (R70). -/
def pcmOutBase : Nat := 0x400

/-- Window address of BITS_IN[0] (R70). -/
def bitsInBase : Nat := 0x800

/-- Window address of BITS_OUT[0] (R70). -/
def bitsOutBase : Nat := 0x810

/-- `PCM_IN[0..SAMPLES-1]`, none if an element was never written (R79, R191). -/
def inputSamples (m : FrameMode) (s : State) : Option (List Sample) :=
  Memory.readSamples s.mem pcmInBase (samplesPerFrame m)

/-- `BITS_IN[0..NBYTES-1]`, none if a byte was never written (R79, R221). -/
def inputBytes (m : FrameMode) (s : State) : Option (List Byte) :=
  Memory.readBytes s.mem bitsInBase (bytesPerFrame m)

/-- The command needs an instance: NO_INSTANCE where there is none (R140, R292). -/
def withInstance (s : State) (k : Inst → Host.Outcome State Fault Refusal) : Host.Outcome State Fault Refusal :=
  match s.inst with
  | none => faultErr .noInstance s
  | some i => k i

end Sys2Proof.Machine
end

