-- ==== Sys2Proof/Machine/BitPacker.lean ====
section
/-! DEFINITION. The bit packer and unpacker (41_bitpacker.md) and the frame layouts of R107 to R113. -/

namespace Sys2Proof.Machine

/-- `bit(buf, p)` of R170: bit `7 - (p & 7)` of byte `p >> 3`. -/
def getBit (buf : List Byte) (p : Nat) : Bool :=
  match buf[p / 8]? with
  | some b => b.getLsbD (7 - p % 8)
  | none => false

/-- One byte with bit `n` made `b` (R171). -/
def putBit (v : Byte) (n : Nat) (b : Bool) : Byte :=
  (v &&& ~~~((1 : Byte) <<< n)) ||| ((if b then (1 : Byte) else 0) <<< n)

/-- Position `p` of the buffer made `b` (R170, R171). -/
def setBit (buf : List Byte) (p : Nat) (b : Bool) : List Byte :=
  buf.modify (p / 8) fun v => putBit v (7 - p % 8) b

/-- The loop of R171: the `w` low bits of `v`, most significant first, from position `off` on. -/
def packBits (buf : List Byte) (off w v : Nat) : List Byte :=
  (List.range w).foldl (fun b j => setBit b (off + j) (v.testBit (w - 1 - j))) buf

/-- PACK (R171): COLLAB when the value does not fit its width. -/
def packField (buf : List Byte) (off w v : Nat) : Except FaultCode (List Byte) :=
  if v < 2 ^ w then .ok (packBits buf off w v) else .error .collab

/-- UNPACK (R172). -/
def unpackField (buf : List Byte) (off w : Nat) : Nat :=
  (List.range w).foldl (fun v j => 2 * v + (getBit buf (off + j)).toNat) 0

/-- A list of widths as the sub-fields of the LSP index set, numbered from `i` (R111, R112). -/
def lspLayout (i : Nat) : List Nat → List (FieldName × Nat)
  | [] => []
  | w :: ws => (.lsp i, w) :: lspLayout (i + 1) ws

/-- The LSP sub-field widths of a mode: scalar in A and B, VQ in C (R111, R112, R141). -/
def lspWidths (p : Params) : FrameMode → List Nat
  | .A => p.lspScalarWidths
  | .B => p.lspScalarWidths
  | .C => p.lspVqWidths

/-- The fields before the LSP set: two voicing bits and a WoE index for each pair of sub-frames (R108 to R110). -/
def headLayout : FrameMode → List (FieldName × Nat)
  | .A => [(.voicing 0, 1), (.voicing 1, 1), (.woe 1, 8)]
  | .B => [(.voicing 0, 1), (.voicing 1, 1), (.woe 1, 8), (.voicing 2, 1), (.voicing 3, 1), (.woe 2, 8)]
  | .C => [(.voicing 0, 1), (.voicing 1, 1), (.woe 1, 8), (.voicing 2, 1), (.voicing 3, 1), (.woe 2, 8)]

/-- The spare field after the LSP set (R108 to R110). -/
def spareLayout : FrameMode → List (FieldName × Nat)
  | .A => [(.spare, 2)]
  | .B => []
  | .C => [(.spare, 1)]

/-- The expanded layout of a mode: every field with its width, in wire order, the LSP set as its sub-fields
(R107 to R113, R173). -/
def layout (p : Params) (m : FrameMode) : List (FieldName × Nat) :=
  headLayout m ++ lspLayout 0 (lspWidths p m) ++ spareLayout m

/-- `fields[name]` (R173). Every field of the layout has a value in the lists ENCODE builds. -/
def fieldValue (fields : FieldList) (name : FieldName) : Nat := (fields.lookup name).getD 0

/-- The value PACK_FRAME packs for a field: "Spare fields take the value 0" (R173), whatever a list unpacked from a frame
holds there (R177); every other field has the list's value. -/
def packedValue (fields : FieldList) (name : FieldName) : Nat :=
  if name = .spare then 0 else fieldValue fields name

/-- The loop of PACK_FRAME (R174) over a layout, from position `off` on. -/
def packFields (fields : FieldList) : List (FieldName × Nat) → Nat → List Byte → Except FaultCode (List Byte)
  | [], _, buf => .ok buf
  | (name, w) :: rest, off, buf =>
    match packField buf off w (packedValue fields name) with
    | .error e => .error e
    | .ok buf' => packFields fields rest (off + w) buf'

/-- PACK_FRAME (R174): the fields into a buffer of zeros. -/
def packFrame (p : Params) (m : FrameMode) (fields : FieldList) : Except FaultCode (List Byte) :=
  packFields fields (layout p m) 0 (List.replicate (bytesPerFrame m) 0)

/-- The loop of UNPACK_FRAME (R175) over a layout, from position `off` on. -/
def unpackFields (buf : List Byte) : List (FieldName × Nat) → Nat → FieldList
  | [], _ => []
  | (name, w) :: rest, off => (name, unpackField buf off w) :: unpackFields buf rest (off + w)

/-- UNPACK_FRAME (R175): the value of every field of the layout. -/
def unpackFrame (p : Params) (m : FrameMode) (buf : List Byte) : FieldList :=
  unpackFields buf (layout p m) 0

end Sys2Proof.Machine
end

