-- ==== Sys2Proof/Machine/Interpolator.lean ====
section
/-! DEFINITION. The parameter interpolator (44_interpolator.md): LSP lerp, harmonic counts, and the trajectory of Wo, energy
and voicing, with the contract checks of R296. -/

namespace Sys2Proof.Machine

/-- One element of `lerp(a, b, w)`, in the order of operations R261 gives. -/
def lerpElem (p : Params) (w a b : Numeric) : Numeric :=
  p.add (p.mul (p.sub (.ofInt 1) w) a) (p.mul w b)

/-- `lerp(a, b, w)` of two LSP vectors (R261). -/
def lerp (p : Params) (a b : LspVec) (w : Numeric) : LspVec :=
  Vector.zipWith (lerpElem p w) a b

/-- The LSP weight of sub-frame `k`: `(k+1)/K`, the weight of the newly decoded vector (R262), exact (R261, log 21). -/
def lspWeight (m : FrameMode) (k : Nat) : Numeric :=
  .finite (((k : Rat) + 1) / (subframes m : Rat))

/-- `LSP[k]`: interpolated before the last sub-frame, the decoded vector itself at the last (R260, R262). -/
def lspOfSubframe (p : Params) (m : FrameMode) (prevLsps lspNew : LspVec) (k : Nat) : LspVec :=
  if k + 1 < subframes m then lerp p prevLsps lspNew (lspWeight m k) else lspNew

/-- `π / wo` in NUM (R265). -/
def harmonicQuotient (p : Params) (wo : Numeric) : Numeric := p.div p.pi wo

/-- `harmonics(wo)` with its range check (R265, R296 check 5): COLLAB unless the floor is in 1..L_MAX. A quotient with no
floor is not in that range (DEDUCED, log 12). -/
def harmonics (p : Params) (wo : Numeric) : Except FaultCode Nat :=
  match (harmonicQuotient p wo).floor? with
  | some n => if 1 ≤ n ∧ n ≤ (p.lMax : Int) then .ok n.toNat else .error .collab
  | none => .error .collab

/-- The session-start harmonic count `floor(π/RESET_WO)` (R42), which nothing checks; where there is no floor to take, or
the floor is no count, a free value (log 12). -/
def resetHarmonics (p : Params) : Nat :=
  match (harmonicQuotient p p.resetWo).floor? with
  | some n => if 0 ≤ n then n.toNat else p.floorOpen (harmonicQuotient p p.resetWo)
  | none => p.floorOpen (harmonicQuotient p p.resetWo)

/-- The weight of a Wo or energy interpolation: halfway (R260, R263). -/
def halfWeight : Numeric := .finite (1 / 2)

/-- INTERP_WO with the two checks of R263 (R296 check 3): a finite positive Wo, and no voicing set that was not
transmitted. -/
def interpolateWo (p : Params) (left : ModelHead) (voiced : Bool) (right : ModelHead) : Except FaultCode (Numeric × Bool) :=
  let r := p.interpWo left voiced right halfWeight
  if r.1.finitePositive && (!r.2 || voiced) then .ok r else .error .collab

/-- INTERP_E with the check of R264 (R296 check 4). -/
def interpolateE (p : Params) (left right : Numeric) : Except FaultCode Numeric :=
  let e := p.interpE left right halfWeight
  if e.finitePositive then .ok e else .error .collab

/-- What the frame transmits for a pair of sub-frames 2j-2 and 2j-1: both voicings, and the Wo and energy decoded from
WoE_j, which belong to the second (R222, R223). -/
structure PairInput where
  voicedFirst : Bool
  voicedSecond : Bool
  wo : Numeric
  energy : Numeric
deriving DecidableEq, Repr

/-- The Wo, energy and voicing of one sub-frame (R260). -/
structure SubParams where
  wo : Numeric
  energy : Numeric
  voiced : Bool
deriving DecidableEq, Repr

/-- One pair of sub-frames of the trajectory (R260): `left` and `leftE` are the nearest transmitted values before the pair.
The right-hand record is built first, with its harmonics check, then INTERP_WO and INTERP_E are called (R265, R300).
Answers the two sub-frames and the right-hand record. -/
def trajectoryPair (p : Params) (left : ModelHead) (leftE : Numeric) (x : PairInput) :
    Except FaultCode (SubParams × SubParams × ModelHead) :=
  match harmonics p x.wo with
  | .error e => .error e
  | .ok l =>
    match interpolateWo p left x.voicedFirst ⟨x.wo, l, x.voicedSecond⟩ with
    | .error e => .error e
    | .ok (wo, voiced) =>
      match interpolateE p leftE x.energy with
      | .error e => .error e
      | .ok energy =>
        .ok (⟨wo, energy, voiced⟩, ⟨x.wo, x.energy, x.voicedSecond⟩, ⟨x.wo, l, x.voicedSecond⟩)

/-- The Wo, energy and voicing of every sub-frame of the frame (R260): sub-frame 0 between the previous frame's values and
sub-frame 1, sub-frame 2 between sub-frames 1 and 3. -/
def trajectory (p : Params) : ModelHead → Numeric → List PairInput → Except FaultCode (List SubParams)
  | _, _, [] => .ok []
  | left, leftE, x :: rest =>
    match trajectoryPair p left leftE x with
    | .error e => .error e
    | .ok (first, second, right) =>
      match trajectory p right x.energy rest with
      | .error e => .error e
      | .ok tail => .ok (first :: second :: tail)

end Sys2Proof.Machine
end

