-- ==== Sys2Proof/Machine/Binary32.lean ====
section
/-! DEFINITION. IEEE 754 binary32 with round-to-nearest-even, the default of NUM (D26, G4, from general knowledge: PRESUMED,
log 16). Only the test stubs of Machine/Stub.lean use it; the machine's own parameters stay opaque. -/

namespace Sys2Proof.Machine

/-- Round to an integer, ties to even. -/
def roundEven (q : Rat) : Int :=
  let f := q.floor
  let r := q - f
  if r < 1 / 2 then f else if 1 / 2 < r then f + 1 else if f % 2 = 0 then f else f + 1

/-- `2 ^ e` for any integer exponent. -/
def twoPow (e : Int) : Rat := if 0 ≤ e then (2 ^ e.toNat : Nat) else 1 / ((2 ^ (-e).toNat : Nat) : Rat)

/-- `floor(log2 q)` of a positive rational. -/
def ilog2 (q : Rat) : Int :=
  let e : Int := (Nat.log2 q.num.natAbs : Int) - (Nat.log2 q.den : Int)
  if q < twoPow e then e - 1 else e

/-- The binary32 nearest a rational; a nonzero value that rounds to 0 keeps its sign. -/
def b32Round (q : Rat) : Numeric :=
  if q = 0 then .finite 0
  else
    let mag := if q < 0 then -q else q
    let e := max (ilog2 mag) (-126)
    let unit := twoPow (e - 23)
    let v := (roundEven (mag / unit) : Rat) * unit
    if twoPow 128 ≤ v then (if q < 0 then .negInf else .posInf)
    else if v = 0 then (if q < 0 then .negZero else .finite 0)
    else .finite (if q < 0 then -v else v)

/-- The sign bit of a value that is not NaN. -/
def b32Neg? : Numeric → Bool
  | .negInf => true
  | .negZero => true
  | .finite q => decide (q < 0)
  | .posInf => false
  | .nan => false

/-- An infinity or a zero of a given sign. -/
def b32Inf (neg : Bool) : Numeric := if neg then .negInf else .posInf

/-- A zero of a given sign. -/
def b32Zero (neg : Bool) : Numeric := if neg then .negZero else .finite 0

/-- Negation. -/
def b32Negate : Numeric → Numeric
  | .nan => .nan
  | .posInf => .negInf
  | .negInf => .posInf
  | .negZero => .finite 0
  | .finite q => if q = 0 then .negZero else .finite (-q)

/-- Addition. -/
def b32Add (x y : Numeric) : Numeric :=
  match x.toRat?, y.toRat? with
  | some a, some b => if x = .negZero ∧ y = .negZero then .negZero else b32Round (a + b)
  | some _, none => y
  | none, some _ => x
  | none, none => if x = y then x else .nan

/-- Subtraction. -/
def b32Sub (x y : Numeric) : Numeric := b32Add x (b32Negate y)

/-- Multiplication. -/
def b32Mul (x y : Numeric) : Numeric :=
  let neg := b32Neg? x != b32Neg? y
  match x.toRat?, y.toRat? with
  | some a, some b => if a = 0 ∨ b = 0 then b32Zero neg else b32Round (a * b)
  | some a, none => if y.isNaN ∨ a = 0 then .nan else b32Inf neg
  | none, some b => if x.isNaN ∨ b = 0 then .nan else b32Inf neg
  | none, none => if x.isNaN ∨ y.isNaN then .nan else b32Inf neg

/-- Division. -/
def b32Div (x y : Numeric) : Numeric :=
  let neg := b32Neg? x != b32Neg? y
  match x.toRat?, y.toRat? with
  | some a, some b =>
    if b = 0 then (if a = 0 then .nan else b32Inf neg)
    else if a = 0 then b32Zero neg else b32Round (a / b)
  | some _, none => if y.isNaN then .nan else b32Zero neg
  | none, some _ => if x.isNaN then .nan else b32Inf neg
  | none, none => .nan

/-- π rounded to binary32: 3.14159274 (TV-I10). -/
def b32Pi : Numeric := .finite (13176795 / 4194304)

/-- Integer square root by binary digits: the largest `r < 2^bits` with `r * r ≤ n`. -/
def isqrt (n : Nat) : Nat → Nat → Nat
  | 0, r => r
  | b + 1, r =>
    let t := r + 2 ^ b
    if t * t ≤ n then isqrt n b t else isqrt n b r

/-- The geometric mean `sqrt(a·b)` of T-DEC's INTERP_E: the square root is taken to 2^-40 and then rounded, which is exact
on the perfect squares of the vectors. -/
def b32GeoMean (x y : Numeric) : Numeric :=
  match x.toRat?, y.toRat? with
  | some a, some b =>
    let q := a * b
    if q < 0 then .nan
    else b32Round ((isqrt (q.num.natAbs * q.den * 2 ^ 80) (Nat.log2 (q.num.natAbs * q.den) + 42) 0 : Nat)
      / ((q.den : Rat) * (2 ^ 40 : Nat)))
  | _, _ => .nan

end Sys2Proof.Machine
end

