-- ==== Sys2Proof/Machine/Stub.lean ====
section
/-! DEFINITION. The stub collaborators T-ENC and T-DEC of 95_test_vectors.md section 2, so that the machine can be run on
the spec's own vectors. They are not normative and no rule uses them (log 16). -/

namespace Sys2Proof.Machine

/-- The vector `[f 0, .., f 9]`. -/
def vecOf (f : Nat → Rat) : LspVec := Vector.ofFn fun i => .finite (f i.val)

/-- `[(i+1)/16 for i = 0..9]`. -/
def stubLsps : LspVec := vecOf fun i => ((i : Rat) + 1) / 16

/-- The amplitudes of the stubs' models: L zeros, where 95_test_vectors.md names none or writes `A = []` (R15, log 13). -/
def stubAmps (l : Nat) : Vector Numeric l := Vector.replicate l (.finite 0)

/-- ANALYZE_T: voicing from the newest sample. -/
def stubAnalyze (h : Hist) (c : AnaState) : Model × AnaState :=
  let newest : Sample := h.getLastD 0
  (⟨.finite (1 / 8), 25, stubAmps 25, decide (0 < newest.toInt)⟩, ⟨c.code + 1⟩)

/-- OLA_SYNTH_T: ±1500·L. -/
def stubOla (m : Model) (o : OlaState) : Vector Numeric 80 × OlaState :=
  (Vector.ofFn fun i => .finite (if i.val % 2 = 0 then 1500 * (m.l : Rat) else -1500 * (m.l : Rat)), ⟨o.code + 1⟩)

/-- The configuration of T-ENC and T-DEC together, every unlisted parameter at the default of 92_eei_decisions.md. -/
def stubParams : Params where
  add := b32Add
  sub := b32Sub
  mul := b32Mul
  div := b32Div
  pi := b32Pi
  floorOpen := fun _ => 0
  nHist := 320
  lMax := 80
  failDraw := fun n => n % 2 == 0
  resetLsp := vecOf fun i => ((i : Rat) + 1) / 32
  resetWo := .finite (1 / 8)
  resetE := .finite 1
  resetAmps := stubAmps
  predReset := ⟨0⟩
  anaReset := ⟨0⟩
  phaseReset := ⟨0⟩
  noiseReset := ⟨0⟩
  olaReset := ⟨0⟩
  analyze := stubAnalyze
  envelope := fun _ => (.finite 1, stubLsps)
  encWoe := fun _ _ s => ((s.code + 1) % 256, ⟨(s.code + 1) % 256⟩)
  decWoe := fun i s => (.finite (((i : Rat) + 1) / 128), .finite ((((i : Rat) + 1) / 8) ^ 2), ⟨s.code + 1⟩)
  encLspScalar := fun _ => #v[0, 1, 2, 3, 0, 1, 2, 3, 0, 1]
  decLspScalar := fun _ => stubLsps
  encLspVq := fun _ => [5, 6, 7]
  decLspVq := fun _ => stubLsps
  lspToCoeffs := fun v => ⟨v.toList⟩
  recoverAmps := fun _ _ m => (⟨m.wo, m.l, stubAmps m.l, m.voiced⟩, .finite 0)
  magCorrect := id
  phaseSynth := fun m _ s => (m, ⟨s.code + 1⟩)
  postfilter := fun m s => (m, ⟨s.code + 1⟩)
  olaSynth := stubOla
  interpWo := fun l v r w => (b32Add (b32Mul (b32Sub (.finite 1) w) l.wo) (b32Mul w r.wo), v)
  interpE := fun a b _ => b32GeoMean a b
  lspOrderFix := id
  bwExpand := id
  encLspVq_length := by intro v; rfl

/-- The replacements 95_test_vectors.md names, each a stub with one collaborator changed. -/
def stubOf : StubVariant → Params
  | .plain => stubParams
  | .woeIndexTooLarge => { stubParams with encWoe := fun _ _ s => (256, s) }
  | .lspIndexTooLarge => { stubParams with encLspScalar := fun _ => #v[0, 1, 2, 3, 0, 1, 2, 3, 0, 4] }
  | .woZero => { stubParams with decWoe := fun _ s => (.finite 0, .finite 1, s) }
  | .energyNegative => { stubParams with decWoe := fun _ s => (.finite (1 / 8), .finite (-1), s) }
  | .sampleNaN => { stubParams with
      olaSynth := fun m o =>
        if o.code % 4 = 1 then ((stubOla m o).1.set 3 .nan, ⟨o.code + 1⟩) else stubOla m o }
  | .interpWoSmall => { stubParams with
      interpWo := fun l v r w => if l.voiced then (.finite (1 / 64), v) else stubParams.interpWo l v r w }
  | .lspTie => { stubParams with lspOrderFix := fun v => v.set 1 v[0] }

/-- The parameters of an implementation (R12, log 6). -/
def paramsOf : Implementation → Params
  | .built n => Config.built n
  | .stub v => stubOf v

end Sys2Proof.Machine
end

