-- ==== Sys2Proof/Machine/FrameCodec.lean ====
section
/-! DEFINITION. The FrameCodec (40_framecodec.md): the configuration in force, session start, and the four commands that
touch no audio. -/

namespace Sys2Proof.Machine

/-- The parameters this QFC was built with (R12). -/
def State.params (s : State) : Params := paramsOf s.config.implementation

/-- `session_start()` (R143): every CodecState field at its value in the table of R42. -/
def sessionStart (p : Params) : CodecState where
  enc :=
    { hist := List.replicate p.nHist 0
      anaCtx := p.anaReset
      predEnc := p.predReset }
  dec :=
    { predDec := p.predReset
      prevModel := { wo := p.resetWo, l := resetHarmonics p, amps := p.resetAmps (resetHarmonics p), voiced := false }
      prevLsps := p.resetLsp
      prevE := p.resetE
      phase := p.phaseReset
      noise := p.noiseReset
      ola := p.olaReset }

/-- CREATE once its checks have passed (R142, R143). -/
def buildInstance (m : FrameMode) (s : State) : State :=
  (s.withInst (some ⟨m, sessionStart s.params⟩)).withErr .ok

/-- The resource-failure draw of R147, taken only when CREATE_MAY_FAIL: NO_RESOURCE, or the instance is built. -/
def createWithDraw (m : FrameMode) (s : State) : Host.Outcome State Fault Refusal :=
  if s.config.createMayFail then
    let s' := s.withDraws (s.draws + 1)
    if s.params.failDraw s.draws then statusErr .noResource s' else .next (buildInstance m s')
  else .next (buildInstance m s)

/-- CREATE (R142): ALREADY_CONFIGURED, then BAD_MODE (R146), then NO_RESOURCE (R147), then a session starts. -/
def execCreate (mode : Nat) (s : State) : Host.Outcome State Fault Refusal :=
  if s.inst.isSome then faultErr .alreadyConfigured s
  else
    match modeOfCode mode with
    | none => statusErr .badMode s
    | some m => createWithDraw m s

/-- DESTROY (R150, R151): the instance and its whole CodecState go; the buffers stay. -/
def execDestroy (s : State) : Host.Outcome State Fault Refusal :=
  withInstance s fun _ => .next ((s.withInst none).withErr .ok)

/-- GETBITS (R152): RESULT gets BITS of the instance's mode. -/
def execGetbits (s : State) : Host.Outcome State Fault Refusal :=
  withInstance s fun i => .next ((s.withResult (BitVec.ofNat 32 (bitsPerFrame i.mode))).withErr .ok)

/-- GETSAMPLES (R153): RESULT gets SAMPLES of the instance's mode. -/
def execGetsamples (s : State) : Host.Outcome State Fault Refusal :=
  withInstance s fun i => .next ((s.withResult (BitVec.ofNat 32 (samplesPerFrame i.mode))).withErr .ok)

end Sys2Proof.Machine
end

