-- ==== Sys2Proof/Machine/Decoder.lean ====
section
/-! DEFINITION. DECODE, the decode-direction predictor memory and output saturation (43_decoder.md). -/

namespace Sys2Proof.Machine

/-- `32767` and `-32767`, the bounds of R230 (90_conflicts.md C5). -/
def satMax : Int := 32767

/-- SAT (R230): NUMERIC on NaN (R231), the bounds beyond them, TO_INT between. -/
def saturate (p : Params) (y : Numeric) : Except FaultCode Int :=
  if y.isNaN then .error .numeric
  else if Numeric.lt (.ofInt satMax) y then .ok satMax
  else if Numeric.lt y (.ofInt (-satMax)) then .ok (-satMax)
  else .ok (p.toInt y)

/-- SAT of each sample of a sub-frame, in increasing order (R220, R300), as `int16` patterns. -/
def saturateAll (p : Params) : List Numeric → Except FaultCode (List Sample)
  | [] => .ok []
  | y :: ys =>
    match saturate p y with
    | .error code => .error code
    | .ok v =>
      match saturateAll p ys with
      | .error code => .error code
      | .ok vs => .ok (BitVec.ofInt 16 v :: vs)

/-- DEC_WOE on one index with its checks (R223, R296 check 2): Wo, energy and the next predictor memory. -/
def decodeWoe (p : Params) (index : Nat) (pred : PredState) : Except FaultCode (Numeric × Numeric × PredState) :=
  let r := p.decWoe index pred
  if r.1.finitePositive && r.2.1.finitePositive then .ok r else .error .collab

/-- DEC_WOE on the WoE indices in increasing order, each with the memory the one before left (R223). -/
def decodeWoes (p : Params) : List Nat → PredState → Except FaultCode (List (Numeric × Numeric) × PredState)
  | [], pred => .ok ([], pred)
  | index :: rest, pred =>
    match decodeWoe p index pred with
    | .error code => .error code
    | .ok (wo, energy, pred') =>
      match decodeWoes p rest pred' with
      | .error code => .error code
      | .ok (more, pred'') => .ok ((wo, energy) :: more, pred'')

/-- The indices WoE_1 to WoE_N of an unpacked frame (R223). -/
def woeIndices (m : FrameMode) (f : FieldList) : List Nat :=
  (List.range (woeCount m)).map fun j => fieldValue f (.woe (j + 1))

/-- The LSP sub-fields of an unpacked frame (R224). -/
def lspIndices (p : Params) (m : FrameMode) (f : FieldList) : List Nat :=
  (List.range (lspWidths p m).length).map fun i => fieldValue f (.lsp i)

/-- DEC_LSP_SCALAR in modes A and B, DEC_LSP_VQ in mode C (R224). -/
def decodeLsps (p : Params) (m : FrameMode) (indices : List Nat) : LspVec :=
  match m with
  | .A => p.decLspScalar (Vector.ofFn fun i => indices.getD i.val 0)
  | .B => p.decLspScalar (Vector.ofFn fun i => indices.getD i.val 0)
  | .C => p.decLspVq indices

/-- `lsp_new` (R225): order correction and bandwidth expansion of the decoded vector, then the strict-order check (R268,
R296 check 6). -/
def correctLsps (p : Params) (raw : LspVec) : Except FaultCode LspVec :=
  let v := p.bwExpand (p.lspOrderFix raw)
  if strictlyIncreasing v.toList then .ok v else .error .collab

/-- `vo[k]` as transmitted (R222). -/
def voicingOf (f : FieldList) (k : Nat) : Bool := decide (fieldValue f (.voicing k) = 1)

/-- The pairs of sub-frames as the frame transmits them, from pair `j` on: WoE_{j+1} belongs to sub-frame 2j+1 (R222, R223). -/
def pairInputs (f : FieldList) (j : Nat) : List (Numeric × Numeric) → List PairInput
  | [] => []
  | (wo, energy) :: rest => ⟨voicingOf f (2 * j), voicingOf f (2 * j + 1), wo, energy⟩ :: pairInputs f (j + 1) rest

/-- What synthesis carries from sub-frame to sub-frame (R227): the last model, phase, noise estimate and overlap buffer. -/
structure SynthState where
  last : Model
  phase : PhaseState
  noise : NoiseState
  ola : OlaState
deriving DecidableEq, Repr

/-- One sub-frame of synthesis (R220, R227): the harmonics check, the chain of collaborators in order, and saturation. -/
def synthSubframe (p : Params) (lsp : LspVec) (x : SubParams) (z : SynthState) :
    Except FaultCode (List Sample × SynthState) :=
  match harmonics p x.wo with
  | .error code => .error code
  | .ok l =>
    let coeffs := p.lspToCoeffs lsp
    let recovered := p.recoverAmps coeffs x.energy ⟨x.wo, l, x.voiced⟩
    let corrected := p.magCorrect recovered.1
    let (phased, phase) := p.phaseSynth corrected coeffs z.phase
    let (filtered, noise) := p.postfilter phased z.noise
    let (y, ola) := p.olaSynth filtered z.ola
    match saturateAll p y.toList with
    | .error code => .error code
    | .ok samples => .ok (samples, ⟨filtered, phase, noise, ola⟩)

/-- The synthesis loop over the sub-frames, each with its LSP vector (R227). -/
def synthesize (p : Params) : List (LspVec × SubParams) → SynthState → Except FaultCode (List Sample × SynthState)
  | [], z => .ok ([], z)
  | (lsp, x) :: rest, z =>
    match synthSubframe p lsp x z with
    | .error code => .error code
    | .ok (samples, z') =>
      match synthesize p rest z' with
      | .error code => .error code
      | .ok (more, z'') => .ok (samples ++ more, z'')

/-- `LSP[0..K-1]` (R260, R262). -/
def lspTrajectory (p : Params) (m : FrameMode) (prevLsps lspNew : LspVec) : List LspVec :=
  (List.range (subframes m)).map (lspOfSubframe p m prevLsps lspNew)

/-- `E[K-1]`, the decoded energy of the last parameter sub-frame (R232). -/
def lastEnergy (prevE : Numeric) (woes : List (Numeric × Numeric)) : Numeric :=
  (woes.getLast?.map Prod.snd).getD prevE

/-- The whole of DECODE on an unpacked frame (R220): the samples and the next decode fields, or the first fault reached
(R300). -/
def decodeFields (p : Params) (m : FrameMode) (f : FieldList) (d : DecState) : Except FaultCode (List Sample × DecState) :=
  match decodeWoes p (woeIndices m f) d.predDec with
  | .error code => .error code
  | .ok (woes, predDec) =>
    match correctLsps p (decodeLsps p m (lspIndices p m f)) with
    | .error code => .error code
    | .ok lspNew =>
      match trajectory p d.prevModel.head d.prevE (pairInputs f 0 woes) with
      | .error code => .error code
      | .ok subs =>
        match synthesize p ((lspTrajectory p m d.prevLsps lspNew).zip subs) ⟨d.prevModel, d.phase, d.noise, d.ola⟩ with
        | .error code => .error code
        | .ok (samples, z) =>
          .ok (samples,
            { predDec := predDec
              prevModel := z.last
              prevLsps := lspNew
              prevE := lastEnergy d.prevE woes
              phase := z.phase
              noise := z.noise
              ola := z.ola })

/-- DECODE on the bytes of a frame (R220, R221): unpack every field, then decode them. -/
def decodeFrame (p : Params) (m : FrameMode) (bytes : List Byte) (d : DecState) : Except FaultCode (List Sample × DecState) :=
  decodeFields p m (unpackFrame p m bytes) d

/-- The effect of a DECODE that completes: decode fields, PCM_OUT[0..SAMPLES-1], RESULT = SAMPLES, ERR = OK (R220, R232). -/
def finishDecode (i : Inst) (samples : List Sample) (d : DecState) (s : State) : State :=
  (((s.withInst (some ⟨i.mode, ⟨i.cs.enc, d⟩⟩)).withMem (Memory.writeSamples s.mem pcmOutBase samples)).withResult
    (BitVec.ofNat 32 (samplesPerFrame i.mode))).withErr .ok

/-- DECODE (R220): NO_INSTANCE, then UNINIT (R221), then COLLAB and NUMERIC as they are reached (R300), or one frame of bits
becomes one frame of audio. -/
def execDecode (s : State) : Host.Outcome State Fault Refusal :=
  withInstance s fun i =>
    match inputBytes i.mode s with
    | none => faultErr .uninit s
    | some bytes =>
      match decodeFrame s.params i.mode bytes i.cs.dec with
      | .error code => faultErr code s
      | .ok (samples, d) => .next (finishDecode i samples d s)

end Sys2Proof.Machine
end

