-- ==== Sys2Proof/Machine/Encoder.lean ====
section
/-! DEFINITION. ENCODE and the encode-direction predictor memory (42_encoder.md). -/

namespace Sys2Proof.Machine

/-- Sub-frame `k` of a frame of samples: `x[80k .. 80k+79]` (R191). -/
def subframeOf (x : List Sample) (k : Nat) : List Sample :=
  (x.drop (subframeLength * k)).take subframeLength

/-- `shift_in` (R192): drop the oldest samples, append the new sub-frame. -/
def shiftIn (hist : Hist) (x : List Sample) : Hist := hist.drop subframeLength ++ x

/-- The LSP index set of the last sub-frame as fields (R196): scalar in modes A and B, VQ in mode C. -/
def encodeLsps (p : Params) (m : FrameMode) (lsps : LspVec) : List Nat :=
  match m with
  | .A => (p.encLspScalar lsps).toList
  | .B => (p.encLspScalar lsps).toList
  | .C => p.encLspVq lsps

/-- Index values as the LSP sub-fields, numbered from `i` (R173). -/
def lspFields (i : Nat) : List Nat → FieldList
  | [] => []
  | v :: vs => (.lsp i, v) :: lspFields (i + 1) vs

/-- One sub-frame of ENCODE (R190): the history update, ANALYZE and the voicing bit, and on an odd sub-frame ENVELOPE,
ENC_WOE and, on the last, the LSP quantizer (R192 to R196, in the order of R199). Answers the next encode fields of the
CodecState and the frame fields of this sub-frame. -/
def encodeSubframe (p : Params) (m : FrameMode) (x : List Sample) (k : Nat) (e : EncState) : EncState × FieldList :=
  let hist := shiftIn e.hist (subframeOf x k)
  let (model, anaCtx) := p.analyze hist e.anaCtx
  let voicing : FieldList := [(.voicing k, model.voiced.toNat)]
  if k % 2 = 1 then
    let (energy, lsps) := p.envelope hist
    let (index, predEnc) := p.encWoe model energy e.predEnc
    let woe : FieldList := [(.woe ((k + 1) / 2), index)]
    let lsp : FieldList := if k + 1 = subframes m then lspFields 0 (encodeLsps p m lsps) else []
    (⟨hist, anaCtx, predEnc⟩, voicing ++ woe ++ lsp)
  else (⟨hist, anaCtx, e.predEnc⟩, voicing)

/-- The sub-frames `ks` of ENCODE, in order. -/
def encodeSubframes (p : Params) (m : FrameMode) (x : List Sample) : List Nat → EncState → EncState × FieldList
  | [], e => (e, [])
  | k :: ks, e =>
    let (e', fields) := encodeSubframe p m x k e
    let (e'', more) := encodeSubframes p m x ks e'
    (e'', fields ++ more)

/-- Spare fields are written as zeros (R197, R114). -/
def spareFields : FrameMode → FieldList
  | .A => [(.spare, 0)]
  | .B => []
  | .C => [(.spare, 0)]

/-- The whole of ENCODE on a frame of samples: the next encode fields and the frame's field list (R190). -/
def encodeFields (p : Params) (m : FrameMode) (x : List Sample) (e : EncState) : EncState × FieldList :=
  let (e', fields) := encodeSubframes p m x (List.range (subframes m)) e
  (e', fields ++ spareFields m)

/-- ENCODE on a frame of samples: the next encode fields and the packed bytes, or COLLAB (R190, R198). -/
def encodeFrame (p : Params) (m : FrameMode) (x : List Sample) (e : EncState) : Except FaultCode (EncState × List Byte) :=
  match packFrame p m (encodeFields p m x e).2 with
  | .error code => .error code
  | .ok bytes => .ok ((encodeFields p m x e).1, bytes)

/-- The effect of an ENCODE that completes: encode fields, BITS_OUT[0..NBYTES-1], RESULT = NBYTES, ERR = OK (R190, R198). -/
def finishEncode (i : Inst) (e : EncState) (bytes : List Byte) (s : State) : State :=
  (((s.withInst (some ⟨i.mode, ⟨e, i.cs.dec⟩⟩)).withMem (Memory.writeBytes s.mem bitsOutBase bytes)).withResult
    (BitVec.ofNat 32 (bytesPerFrame i.mode))).withErr .ok

/-- ENCODE (R190): NO_INSTANCE, then UNINIT (R191), then COLLAB (R171, R300), or one frame of audio becomes one frame of bits. -/
def execEncode (s : State) : Host.Outcome State Fault Refusal :=
  withInstance s fun i =>
    match inputSamples i.mode s with
    | none => faultErr .uninit s
    | some x =>
      match encodeFrame s.params i.mode x i.cs.enc with
      | .error code => faultErr code s
      | .ok (e, bytes) => .next (finishEncode i e bytes s)

end Sys2Proof.Machine
end

