-- ==== Sys2Proof/Machine/Dispatch.lean ====
section
/-! DEFINITION. The command dispatch (R140): one arm per command, each a direct call of its meaning. -/

namespace Sys2Proof.Machine

def exec (i : Instr) (s : State) : Host.Outcome State Fault Refusal :=
  match i with
  | .create mode => Sys2Proof.Machine.execCreate mode s
  | .destroy => Sys2Proof.Machine.execDestroy s
  | .getbits => Sys2Proof.Machine.execGetbits s
  | .getsamples => Sys2Proof.Machine.execGetsamples s
  | .encode => Sys2Proof.Machine.execEncode s
  | .decode => Sys2Proof.Machine.execDecode s

end Sys2Proof.Machine
end

