-- ==== Sys2Proof/Machine/HostWindow.lean ====
section
/-! DEFINITION. The host window (20_memory.md): the map of R70, the admission checks of R71 to R74, host reads and writes
(R75), and the command decoder behind a write of CMD (R140). -/

namespace Sys2Proof.Machine

/-- What a region of the window holds (R70). -/
inductive Target where
  | cmd
  | status
  | result
  | pcmIn
  | pcmOut
  | bitsIn
  | bitsOut
deriving DecidableEq, Repr

/-- A region of the window: its first address, its size and element width in bytes, and whether the host may write it (R70). -/
structure Region where
  base : Nat
  size : Nat
  width : Nat
  writable : Bool
  target : Target
deriving DecidableEq, Repr

/-- The map of R70; an address in no region is reserved. -/
def windowMap : List Region :=
  [ ⟨0x000, 4, 4, true, .cmd⟩,
    ⟨0x004, 4, 4, false, .status⟩,
    ⟨0x008, 4, 4, false, .result⟩,
    ⟨0x100, 640, 2, true, .pcmIn⟩,
    ⟨0x400, 640, 2, false, .pcmOut⟩,
    ⟨0x800, 7, 1, true, .bitsIn⟩,
    ⟨0x810, 7, 1, false, .bitsOut⟩ ]

/-- The region an address lies in, none for a reserved address (R70, R71). -/
def regionAt (a : Nat) : Option Region :=
  windowMap.find? fun r => decide (r.base ≤ a) && decide (a < r.base + r.size)

/-- The region of an admitted access (R71 to R74): not reserved, of the element width, at an element's address and, for a
write, not read-only. -/
def admitted (isWrite : Bool) (a bytes : Nat) : Option Region :=
  match regionAt a with
  | none => none
  | some r =>
    if bytes = r.width ∧ a % r.width = 0 ∧ (isWrite = true → r.writable = true) then some r else none

/-- The element an admitted read returns, zero-extended; none for a buffer element never written (R75). -/
def elementAt (s : State) (r : Region) (a : Nat) : Option Word :=
  match r.target with
  | .cmd => some s.cmd
  | .status => some (statusWord s)
  | .result => some s.result
  | .pcmIn => (Memory.getSample s.mem a).map (BitVec.setWidth 32)
  | .pcmOut => (Memory.getSample s.mem a).map (BitVec.setWidth 32)
  | .bitsIn => (Memory.get s.mem a).map (BitVec.setWidth 32)
  | .bitsOut => (Memory.get s.mem a).map (BitVec.setWidth 32)

/-- A host read (R75, R76): BUS if not admitted (R295), UNINIT if the element was never written (R298), else the element
goes to the host and nothing else changes. -/
def hostRead (a bytes : Nat) (s : State) : Host.Outcome State Fault Refusal :=
  match admitted false a bytes with
  | none => faultErr .bus s
  | some r =>
    match elementAt s r a with
    | none => faultErr .uninit s
    | some v => .next (s.withReadData (some v))

/-- A write of CMD (R34, R140): the word is stored, then performed as a command; an undefined word is ILLEGAL_CMD (R294). -/
def commandWrite (w : Word) (s : State) : Host.Outcome State Fault Refusal :=
  match decodeWord w with
  | .error _ => faultErr .illegalCmd (s.withCmd w)
  | .ok i => exec i (s.withCmd w)

/-- A host write (R75): BUS if not admitted (R295); a write of CMD performs a command; a buffer element takes the value and
its written mark. The value is the `8 * bytes`-bit value of the access (log 17). The read-only targets are never admitted for
writing (R73). -/
def hostWrite (a bytes value : Nat) (s : State) : Host.Outcome State Fault Refusal :=
  match admitted true a bytes with
  | none => faultErr .bus s
  | some r =>
    match r.target with
    | .cmd => commandWrite (BitVec.ofNat 32 value) s
    | .pcmIn => .next (s.withMem (Memory.setSample s.mem a (BitVec.ofNat 16 value)))
    | .bitsIn => .next (s.withMem (Memory.set s.mem a (BitVec.ofNat 8 value)))
    | .status => faultErr .bus s
    | .result => faultErr .bus s
    | .pcmOut => faultErr .bus s
    | .bitsOut => faultErr .bus s

/-- Hardware reset by the reset input (R320): every piece of the hardware's state at its value in R59. What is not the
hardware's stays: the host's remaining operations and last read value, the configuration and the draw counter (log 19). -/
def hardwareReset (s : State) : State :=
  (((State.reset.withHostQueue s.hostQueue).withReadData s.readData).withDraws s.draws).withConfig s.config

/-- One host operation (R75, R320). -/
def performOp (op : HostOp) (s : State) : Host.Outcome State Fault Refusal :=
  match op with
  | .read a bytes => hostRead a.toNat bytes s
  | .write a bytes value => hostWrite a.toNat bytes value s
  | .reset => .next (hardwareReset s)

/-- The next host operation, if there is one (R82). With none the block waits for host accesses (R321, log 1). -/
def performNext (s : State) : Host.Outcome State Fault Refusal :=
  match s.hostQueue with
  | [] => .next s
  | op :: rest => performOp op (s.withHostQueue rest)

/-- The host operation that performs a command: `wr32 CMD, w` (R118). -/
def commandOp (w : Word) : HostOp := .write 0x000 4 w.toNat

/-- `s` with one more host operation before those still to come. -/
def queueFirst (op : HostOp) (s : State) : State := s.withHostQueue (op :: s.hostQueue)

end Sys2Proof.Machine
end

