-- ==== Sys2Proof/Machine/Step.lean ====
section
/-! DEFINITION. One step of the machine: one host operation (R17, R41, R82). -/

namespace Sys2Proof.Machine

/-- One step: the next host operation with all its effects, a command included (R41, R82). -/
def step (s : State) : Host.Outcome State Fault Refusal := performNext s

/-- `s` with the write of CMD that performs the word `w` as the host's next operation (R41, R118, log 1). -/
def State.withFetchWord (s : State) (nbits w : Nat) : State := queueFirst (commandOp (tableWord nbits w)) s

end Sys2Proof.Machine
end

