-- ==== Sys2Proof/Safety.lean ====
section
/-! DEFINITION. What counts as a safe step and a good state, in the terms the claims use: the contracts of R296 written
out against the rules of 42 to 44 (not by running the meanings), the named properties of R266 to R269, the record a fault
leaves, and the invariant of the machine. -/

namespace Sys2Proof.Safety

open Sys2Proof.Machine

/-! ## Named properties a claim may assume of the OPEN functions (R266, R268, R269) -/

/-- `x` lies in `[min(a,b), max(a,b)]`, in the order of NUM; never so for a NaN, which has no place in it (log 14). -/
def between (a b x : Numeric) : Bool :=
  (Numeric.le a x && Numeric.le x b) || (Numeric.le b x && Numeric.le x a)

/-- `x ≠ y` as numbers: one is less than the other, so that -0 and 0 are no different values (log 14) and a NaN differs from
nothing (R266, log 24). -/
def differ (x y : Numeric) : Bool := Numeric.lt x y || Numeric.lt y x

/-- `x = y`: the same value, or two zeros (R266, log 14, log 24). -/
def same (x y : Numeric) : Bool := decide (x = y) || (Numeric.le x y && Numeric.le y x)

/-- INTERP_WO_BETWEEN (R266). The voicing stays true whatever the two Wo are; the interval `[min, max]` is asked for wherever
there is one, that is unless a Wo is NaN (log 24). -/
def interpWoBetween (p : Params) : Prop :=
  ∀ left right : ModelHead, left.voiced = true → right.voiced = true →
    (p.interpWo left true right halfWeight).2 = true ∧
      (left.wo.isNaN = false → right.wo.isNaN = false →
        between left.wo right.wo (p.interpWo left true right halfWeight).1 = true)

/-- INTERP_E_BETWEEN (R266): "for `a, b > 0`". -/
def interpEBetween (p : Params) : Prop :=
  ∀ a b : Numeric, Numeric.lt (.ofInt 0) a = true → Numeric.lt (.ofInt 0) b = true →
    between a b (p.interpE a b halfWeight) = true

/-- INTERP_E_SAME (R266), of every value. -/
def interpESame (p : Params) : Prop := ∀ a : Numeric, same (p.interpE a a halfWeight) a = true

/-- INTERP_E_NOT_LINEAR (R266): two values that differ as numbers, whose interpolation differs as a number from their
arithmetic average in NUM (log 24). -/
def interpENotLinear (p : Params) : Prop :=
  ∃ a b : Numeric, differ a b = true ∧ differ (p.interpE a b halfWeight) (p.div (p.add a b) (.ofInt 2)) = true

/-- LSP_FIX_ID (R268). -/
def lspFixId (p : Params) : Prop := ∀ v : LspVec, strictlyIncreasing v.toList = true → p.lspOrderFix v = v

/-- LSP_FIX_STRICT (R268). -/
def lspFixStrict (p : Params) : Prop := ∀ v : LspVec, strictlyIncreasing (p.lspOrderFix v).toList = true

/-- BW_KEEPS_ORDER (R269). -/
def bwKeepsOrder (p : Params) : Prop :=
  ∀ v : LspVec, strictlyIncreasing v.toList = true → strictlyIncreasing (p.bwExpand v).toList = true

/-! ## The contract of ENCODE (R296 check 1) -/

/-- Every field value of a frame fits its width (R171); a spare field is packed as 0 (R173). -/
abbrev fieldsFit (p : Params) (m : FrameMode) (fields : FieldList) : Prop :=
  ∀ f ∈ layout p m, packedValue fields f.1 < 2 ^ f.2

/-- ENCODE's collaborators keep their contract on a frame: every quantizer index fits its field (R195, R196, R296). -/
abbrev encodeContract (p : Params) (m : FrameMode) (x : List Sample) (e : EncState) : Prop :=
  fieldsFit p m (encodeFields p m x e).2

/-! ## DECODE, value by value

The values DECODE computes for a frame `f` from the decode fields `d`, each as the rules of 43 and 44 name it, whatever the
checks say: index `j` counts the pairs of sub-frames (WoE_{j+1} belongs to sub-frame 2j+1), `k` the sub-frames. -/

/-- WoE_{j+1} of the frame. -/
def sentIndex (f : FieldList) (j : Nat) : Nat := fieldValue f (.woe (j + 1))

/-- `pred_dec` before DEC_WOE is called for WoE_{j+1} (R223). -/
def predAt (p : Params) (f : FieldList) (d : DecState) : Nat → PredState
  | 0 => d.predDec
  | j + 1 => (p.decWoe (sentIndex f j) (predAt p f d j)).2.2

/-- `Wo[2j+1]`, transmitted (R223). -/
def sentWo (p : Params) (f : FieldList) (d : DecState) (j : Nat) : Numeric :=
  (p.decWoe (sentIndex f j) (predAt p f d j)).1

/-- `E[2j+1]`, transmitted (R223). -/
def sentEnergy (p : Params) (f : FieldList) (d : DecState) (j : Nat) : Numeric :=
  (p.decWoe (sentIndex f j) (predAt p f d j)).2.1

/-- `lsp_new` (R225). -/
def newLsps (p : Params) (m : FrameMode) (f : FieldList) : LspVec :=
  p.bwExpand (p.lspOrderFix (decodeLsps p m (lspIndices p m f)))

/-- `harmonics(wo)` lies in 1..L_MAX (R265). -/
def harmonicsInRange (p : Params) (wo : Numeric) : Bool :=
  match (harmonicQuotient p wo).floor? with
  | some n => decide (1 ≤ n) && decide (n ≤ (p.lMax : Int))
  | none => false

/-- The value of `harmonics(wo)` where it is in range (R265). -/
def harmonicCount (p : Params) (wo : Numeric) : Nat :=
  ((harmonicQuotient p wo).floor?.getD 0).toNat

/-- The record `S1` or `S3` of sub-frame 2j+1 (R260). -/
def sentHead (p : Params) (f : FieldList) (d : DecState) (j : Nat) : ModelHead :=
  ⟨sentWo p f d j, harmonicCount p (sentWo p f d j), voicingOf f (2 * j + 1)⟩

/-- The left-hand record of pair `j`: `P` for sub-frame 0, `S1` for sub-frame 2 (R260). -/
def leftHead (p : Params) (f : FieldList) (d : DecState) : Nat → ModelHead
  | 0 => d.prevModel.head
  | j + 1 => sentHead p f d j

/-- The left-hand energy of pair `j`: `prev_e`, then `E[1]` (R260). -/
def leftEnergy (p : Params) (f : FieldList) (d : DecState) : Nat → Numeric
  | 0 => d.prevE
  | j + 1 => sentEnergy p f d j

/-- Wo and voicing of the interpolated sub-frame 2j (R263). -/
def midWo (p : Params) (f : FieldList) (d : DecState) (j : Nat) : Numeric × Bool :=
  p.interpWo (leftHead p f d j) (voicingOf f (2 * j)) (sentHead p f d j) halfWeight

/-- Energy of the interpolated sub-frame 2j (R264). -/
def midEnergy (p : Params) (f : FieldList) (d : DecState) (j : Nat) : Numeric :=
  p.interpE (leftEnergy p f d j) (sentEnergy p f d j) halfWeight

/-- `Wo[k]`, `E[k]`, `vo[k]` (R260): transmitted on odd sub-frames, interpolated on even ones. -/
def subParams (p : Params) (f : FieldList) (d : DecState) (k : Nat) : SubParams :=
  if k % 2 = 1 then ⟨sentWo p f d (k / 2), sentEnergy p f d (k / 2), voicingOf f k⟩
  else ⟨(midWo p f d (k / 2)).1, midEnergy p f d (k / 2), (midWo p f d (k / 2)).2⟩

/-- `LSP[k]` (R260, R262): the lerp at weight `(k+1)/K`, and `lsp_new` itself on the last sub-frame. -/
def lspAt (p : Params) (m : FrameMode) (f : FieldList) (d : DecState) (k : Nat) : LspVec :=
  if k + 1 = subframes m then newLsps p m f
  else lerp p d.prevLsps (newLsps p m f) (.finite (((k : Rat) + 1) / (subframes m : Rat)))

/-- The chain of R227 on one sub-frame, before saturation: 80 pre-clamp samples and what passes to the next sub-frame. -/
def synthChain (p : Params) (lsp : LspVec) (x : SubParams) (z : SynthState) : Vector Numeric 80 × SynthState :=
  let coeffs := p.lspToCoeffs lsp
  let recovered := p.recoverAmps coeffs x.energy ⟨x.wo, harmonicCount p x.wo, x.voiced⟩
  let phased := p.phaseSynth (p.magCorrect recovered.1) coeffs z.phase
  let filtered := p.postfilter phased.1 z.noise
  let out := p.olaSynth filtered.1 z.ola
  (out.1, ⟨filtered.1, phased.2, filtered.2, out.2⟩)

/-- The synthesis state before sub-frame `k` (R227). -/
def synthAt (p : Params) (m : FrameMode) (f : FieldList) (d : DecState) : Nat → SynthState
  | 0 => ⟨d.prevModel, d.phase, d.noise, d.ola⟩
  | k + 1 => (synthChain p (lspAt p m f d k) (subParams p f d k) (synthAt p m f d k)).2

/-- The 80 pre-clamp samples of sub-frame `k` (R227). -/
def preClamp (p : Params) (m : FrameMode) (f : FieldList) (d : DecState) (k : Nat) : Vector Numeric 80 :=
  (synthChain p (lspAt p m f d k) (subParams p f d k) (synthAt p m f d k)).1

/-- The value R230 gives a pre-clamp sample that is not NaN. -/
def clamped (p : Params) (y : Numeric) : Int :=
  if Numeric.lt (.ofInt 32767) y then 32767
  else if Numeric.lt y (.ofInt (-32767)) then -32767
  else p.toInt y

/-- The checks DECODE reaches before synthesis (R296 checks 2 to 6, R300): DEC_WOE results, the strict LSP order, and for
each pair the harmonics of the right-hand record, INTERP_WO and INTERP_E. -/
abbrev decodeParamsOk (p : Params) (m : FrameMode) (f : FieldList) (d : DecState) : Prop :=
  (∀ j < woeCount m, (sentWo p f d j).finitePositive = true ∧ (sentEnergy p f d j).finitePositive = true) ∧
  strictlyIncreasing (newLsps p m f).toList = true ∧
  ∀ j < woeCount m, harmonicsInRange p (sentWo p f d j) = true ∧ (midWo p f d j).1.finitePositive = true ∧
    ((midWo p f d j).2 = true → voicingOf f (2 * j) = true) ∧ (midEnergy p f d j).finitePositive = true

/-- No pre-clamp sample of sub-frame `k` is NaN (R231). -/
abbrev noNaN (p : Params) (m : FrameMode) (f : FieldList) (d : DecState) (k : Nat) : Prop :=
  ∀ y ∈ (preClamp p m f d k).toList, y.isNaN = false

/-- The checks of the synthesis of sub-frame `k` (R265, R231). -/
abbrev decodeSubframeOk (p : Params) (m : FrameMode) (f : FieldList) (d : DecState) (k : Nat) : Prop :=
  harmonicsInRange p (subParams p f d k).wo = true ∧ noNaN p m f d k

/-- DECODE's collaborators keep their contract on a frame: no check of R296 or R297 fails. -/
abbrev decodeContract (p : Params) (m : FrameMode) (f : FieldList) (d : DecState) : Prop :=
  decodeParamsOk p m f d ∧ ∀ k < subframes m, decodeSubframeOk p m f d k

/-- The decode fields after a DECODE that keeps the contract (R232). -/
def nextDecState (p : Params) (m : FrameMode) (f : FieldList) (d : DecState) : DecState where
  predDec := predAt p f d (woeCount m)
  prevModel := (synthAt p m f d (subframes m)).last
  prevLsps := newLsps p m f
  prevE := sentEnergy p f d (woeCount m - 1)
  phase := (synthAt p m f d (subframes m)).phase
  noise := (synthAt p m f d (subframes m)).noise
  ola := (synthAt p m f d (subframes m)).ola

/-! ## What a fault leaves (R290) -/

/-- The registers after a fault. -/
def faultRegisters : Fault → Registers
  | .noInstance s => registersOf s
  | .illegalCmd s => registersOf s
  | .alreadyConfigured s => registersOf s
  | .bus s => registersOf s
  | .uninit s => registersOf s
  | .collab r => r
  | .numeric r => r

/-- The error code of a fault (R291). -/
def faultErrCode : Fault → ErrCode
  | .noInstance _ => .noInstance
  | .illegalCmd _ => .illegalCmd
  | .alreadyConfigured _ => .alreadyConfigured
  | .bus _ => .bus
  | .uninit _ => .uninit
  | .collab _ => .collab
  | .numeric _ => .numeric

/-- The state a precise fault leaves; none for COLLAB and NUMERIC (R290). -/
def faultLeaves : Fault → Option State
  | .noInstance s => some s
  | .illegalCmd s => some s
  | .alreadyConfigured s => some s
  | .bus s => some s
  | .uninit s => some s
  | .collab _ => none
  | .numeric _ => none

/-- A run is safe when no error was raised: "FAULT = 0 at the end" (R39). -/
def safe (s : State) : Prop := s.fault = false

/-! ## Good states -/

/-- The address of a byte of one of the four buffers (R70). -/
def bufferAddress (a : Nat) : Bool :=
  (decide (0x100 ≤ a) && decide (a < 0x380)) || (decide (0x400 ≤ a) && decide (a < 0x680)) ||
  (decide (0x800 ≤ a) && decide (a < 0x807)) || (decide (0x810 ≤ a) && decide (a < 0x817))

/-- The invariant of the machine. -/
structure Inv (s : State) : Prop where
  /-- The memory is in its canonical form. -/
  memWf : Memory.wf s.mem = true
  /-- Only buffer addresses hold a byte (R70). -/
  memInBuffers : ∀ a, (Memory.get s.mem a).isSome = true → bufferAddress a = true
  /-- A PCM_IN element is written whole or not at all (R55, R75). -/
  pcmInWhole : ∀ i < 320, (Memory.get s.mem (0x100 + 2 * i)).isSome = (Memory.get s.mem (0x100 + 2 * i + 1)).isSome
  /-- A PCM_OUT element is written whole or not at all (R55, R75). -/
  pcmOutWhole : ∀ i < 320, (Memory.get s.mem (0x400 + 2 * i)).isSome = (Memory.get s.mem (0x400 + 2 * i + 1)).isSome
  /-- Every sample in PCM_OUT lies in [-32767, 32767]: "-32768 is never written to PCM_OUT" (R230). -/
  pcmOutSaturated : ∀ i < 320, ∀ v, Memory.getSample s.mem (0x400 + 2 * i) = some v →
    -32767 ≤ v.toInt ∧ v.toInt ≤ 32767
  /-- The history holds N_HIST samples (R15, R43). -/
  histLength : ∀ i, s.inst = some i → i.cs.enc.hist.length = s.params.nHist
  /-- `prev_lsps` is strictly increasing (R270). -/
  lspsIncreasing : ∀ i, s.inst = some i → strictlyIncreasing i.cs.dec.prevLsps.toList = true
  /-- `prev_e` is greater than 0 (R12, R223). -/
  energyPositive : ∀ i, s.inst = some i → Numeric.lt (.ofInt 0) i.cs.dec.prevE = true

end Sys2Proof.Safety
end

