-- ==== Sys2Proof/Certificates/Slice0/Obligations.lean ====
section
/-! DEFINITION. The statements for the provers. Each docstring names the rule of spec/ it formalises; a clause that rests on
a choice of the model names the log entry. -/

open Sys2Proof Sys2Proof.Machine Sys2Proof.Safety

/-! ## Reset -/

/-- R59: CMD = 0, STATUS = 0x0000003C, RESULT = 0, no instance, and every buffer element's written mark clear. -/
def Obligations.ResetValues : Prop :=
  registersOf State.reset = ⟨0, 0x3C, 0⟩ ∧ State.reset.inst = none ∧ ∀ a, Memory.get State.reset.mem a = none

/-- R320: the reset input, from any state, sets the registers to their values in R59, ends any instance and clears every
written mark; and it is the only event that clears STATUS.FAULT. -/
def Obligations.ResetInputRestoresAndAloneClearsFault : Prop :=
  (∀ (s : State) (rest : List HostOp), s.hostQueue = .reset :: rest →
    ∃ t, step s = .next t ∧ registersOf t = ⟨0, 0x3C, 0⟩ ∧ t.inst = none ∧ ∀ a, Memory.get t.mem a = none) ∧
  ∀ s t : State, step s = .next t → s.fault = true → t.fault = false → s.hostQueue.head? = some .reset

/-! ## Command words -/

/-- The encodings of R101 and R118, word by word. -/
def Obligations.SampleWordsDecode : Prop :=
  decodeWord 0x00000001 = .ok (.create 0) ∧ decodeWord 0x00000101 = .ok (.create 1) ∧
  decodeWord 0x00000201 = .ok (.create 2) ∧ decodeWord 0x00000F01 = .ok (.create 15) ∧
  decodeWord 0x00000002 = .ok .destroy ∧ decodeWord 0x00000003 = .ok .getbits ∧
  decodeWord 0x00000004 = .ok .getsamples ∧ decodeWord 0x00000005 = .ok .encode ∧ decodeWord 0x00000006 = .ok .decode

/-- Decode and encode agree: every well-formed command is what its own word decodes to, and a word that decodes is the word
of the command it decodes to, which is well formed. -/
def Obligations.DecodeAndEncodeAgree : Prop :=
  (∀ i : Instr, i.wf = true → decodeWord (encodeWord i) = .ok i) ∧
  ∀ (w : Word) (i : Instr), decodeWord w = .ok i → i.wf = true ∧ encodeWord i = w

/-- R104: each of the six commands is selected by its match and mask, and CREATE's free field is `w[11:8]`. -/
def Obligations.MatchMaskTable : Prop :=
  ∀ w : Word,
    (∀ mode, decodeWord w = .ok (.create mode) ↔ w &&& 0xFFFFF0FF = 0x00000001 ∧ mode = (w.extractLsb' 8 4).toNat) ∧
    (decodeWord w = .ok .destroy ↔ w &&& 0xFFFFFFFF = 0x00000002) ∧
    (decodeWord w = .ok .getbits ↔ w &&& 0xFFFFFFFF = 0x00000003) ∧
    (decodeWord w = .ok .getsamples ↔ w &&& 0xFFFFFFFF = 0x00000004) ∧
    (decodeWord w = .ok .encode ↔ w &&& 0xFFFFFFFF = 0x00000005) ∧
    (decodeWord w = .ok .decode ↔ w &&& 0xFFFFFFFF = 0x00000006)

/-- R105: a word is undefined exactly when RSVD is not 0, or OP is not 0x01 to 0x06, or OP is 0x02 to 0x06 with MODE not 0;
every other word is one of the six commands; and the write of an undefined word to CMD is the faulting error ILLEGAL_CMD,
whatever the state. -/
def Obligations.UndefinedWordsFaultIllegalCmd : Prop :=
  (∀ w : Word, (decodeWord w).toOption = none ↔
    w.toNat / 2 ^ 12 ≠ 0 ∨ (w.toNat % 256 < 1 ∨ 6 < w.toNat % 256) ∨
      (2 ≤ w.toNat % 256 ∧ w.toNat % 256 ≤ 6 ∧ w.toNat / 256 % 16 ≠ 0)) ∧
  ∀ (s : State) (rest : List HostOp) (v : Nat), s.hostQueue = .write 0x000 4 v :: rest →
    (decodeWord (BitVec.ofNat 32 v)).toOption = none →
      ∃ left, step s = .fault (.illegalCmd left) ∧ errField (statusWord left) = 4 ∧ faultField (statusWord left) = true

/-- A write of CMD whose word decodes runs exactly the decoded command, on the state in which the write is taken off the
host's list (log 1) and CMD holds the word (R34, R41); so does the step after `withFetchWord`. -/
def Obligations.StepRunsDecodedCommand : Prop :=
  (∀ (s : State) (rest : List HostOp) (v : Nat) (i : Instr), s.hostQueue = .write 0x000 4 v :: rest →
    decodeWord (BitVec.ofNat 32 v) = .ok i →
      step s = exec i { s with hostQueue := rest, cmd := BitVec.ofNat 32 v }) ∧
  ∀ (s : State) (nbits w : Nat) (i : Instr), decodeTableWord nbits w = some i →
    step (s.withFetchWord nbits w) = exec i { s with cmd := tableWord nbits w }

/-- With no host operation to perform the block waits: nothing changes (R321; the list itself is the model's choice, log 1). -/
def Obligations.IdleStepChangesNothing : Prop :=
  ∀ s : State, s.hostQueue = [] → step s = .next s

/-- R34: CMD reads back the last word written, whatever the outcome of the command it names: after a next state and in the
registers any fault leaves. -/
def Obligations.CommandWordReadsBack : Prop :=
  ∀ (s : State) (rest : List HostOp) (v : Nat), s.hostQueue = .write 0x000 4 v :: rest →
    (∀ t, step s = .next t → t.cmd = BitVec.ofNat 32 v) ∧
    (∀ r, step s = .fault r → (faultRegisters r).cmd = BitVec.ofNat 32 v)

/-! ## CREATE, DESTROY, GETBITS, GETSAMPLES -/

/-- R142, R143: with no instance, a supported mode and no failing draw, CREATE completes: an instance of that mode at
session start, every field as the table of R42 gives it, STATE = READY, MODE the code, ERR = OK, nothing else changed. (The
draw counter is the model's, log 8; the amplitudes at session start and the count of an unfloorable quotient are free
values, log 12, 13.) -/
def Obligations.CreateStartsSession : Prop :=
  ∀ (s : State) (mode : Nat) (m : FrameMode), s.inst = none →
    (mode = 0 ∧ m = .A ∨ mode = 1 ∧ m = .B ∨ mode = 2 ∧ m = .C) →
    (s.config.createMayFail = true → s.params.failDraw s.draws = false) →
    ∃ t cs, exec (.create mode) s = .next t ∧
      t = { s with inst := some ⟨m, cs⟩, err := .ok, draws := if s.config.createMayFail then s.draws + 1 else s.draws } ∧
      stateField (statusWord t) = 1 ∧ modeField (statusWord t) = BitVec.ofNat 4 mode ∧ errField (statusWord t) = 0 ∧
      cs.enc.hist = List.replicate s.params.nHist 0 ∧ cs.enc.anaCtx = s.params.anaReset ∧
      cs.enc.predEnc = s.params.predReset ∧ cs.dec.predDec = s.params.predReset ∧
      cs.dec.prevModel.wo = s.params.resetWo ∧ cs.dec.prevModel.voiced = false ∧
      (∀ n : Nat, (s.params.div s.params.pi s.params.resetWo).floor? = some (n : Int) → cs.dec.prevModel.l = n) ∧
      cs.dec.prevLsps = s.params.resetLsp ∧ cs.dec.prevE = s.params.resetE ∧ cs.dec.phase = s.params.phaseReset ∧
      cs.dec.noise = s.params.noiseReset ∧ cs.dec.ola = s.params.olaReset

/-- R146: CREATE with a mode code that is not 0, 1 or 2, while no instance exists, sets STATUS.ERR = BAD_MODE and changes
nothing else; it is not a fault. The codes 3 to 15 are R146's (MODE is a 4-bit field, R102); that an operand of 16 or more,
which no word decodes to, does the same is the model's choice (DESIGN CHOICE, log 20). -/
def Obligations.CreateUnsupportedModeOnlySetsErr : Prop :=
  ∀ (s : State) (mode : Nat), s.inst = none → 2 < mode → exec (.create mode) s = .next { s with err := .badMode }

/-- R147: when CREATE_MAY_FAIL, a CREATE that passes its checks takes a draw, and a true draw sets STATUS.ERR = NO_RESOURCE
and changes nothing else (but the model's draw counter, log 8). -/
def Obligations.CreateFailedDrawOnlySetsErr : Prop :=
  ∀ (s : State) (mode : Nat), s.inst = none → mode ≤ 2 → s.config.createMayFail = true →
    s.params.failDraw s.draws = true →
      exec (.create mode) s = .next { s with err := .noResource, draws := s.draws + 1 }

/-- R293: CREATE while an instance exists is the faulting error ALREADY_CONFIGURED, whatever the mode code (R300), and the
existing instance is not changed. -/
def Obligations.CreateWhileReadyFaults : Prop :=
  ∀ (s : State) (mode : Nat), s.inst.isSome = true →
    exec (.create mode) s = .fault (.alreadyConfigured { s with err := .alreadyConfigured, fault := true })

/-- R292: DESTROY, GETBITS, GETSAMPLES, ENCODE and DECODE with no instance are the faulting error NO_INSTANCE. -/
def Obligations.CommandsWithoutInstanceFault : Prop :=
  ∀ (s : State) (i : Instr), s.inst = none → i ∈ [Instr.destroy, .getbits, .getsamples, .encode, .decode] →
    exec i s = .fault (.noInstance { s with err := .noInstance, fault := true })

/-- R150: DESTROY ends the instance: STATE = UNCONFIGURED, MODE = 15, ERR = OK, and nothing else changes, the buffers and
their marks included. -/
def Obligations.DestroyEndsInstance : Prop :=
  ∀ s : State, s.inst.isSome = true →
    ∃ t, exec .destroy s = .next t ∧ t = { s with inst := none, err := .ok } ∧
      stateField (statusWord t) = 0 ∧ modeField (statusWord t) = 15 ∧ errField (statusWord t) = 0

/-- R143, R151: a CREATE after a DESTROY starts a session with the same CodecState as a CREATE from reset with the same
configuration, whatever the discarded session held (CREATE_MAY_FAIL false, so that no draw intervenes). -/
def Obligations.SessionStartForgetsEarlierSession : Prop :=
  ∀ (s u t : State) (mode : Nat), s.inst.isSome = true → s.config.createMayFail = false → mode ≤ 2 →
    exec .destroy s = .next u → exec (.create mode) u = .next t →
      ∃ t', exec (.create mode) { State.reset with config := s.config } = .next t' ∧ t'.inst = t.inst

/-- R152: GETBITS puts 48, 56 or 48 into RESULT for modes A, B and C, sets ERR = OK and changes nothing else. -/
def Obligations.GetbitsReportsBits : Prop :=
  ∀ (s : State) (i : Inst), s.inst = some i →
    exec .getbits s = .next { s with
      result := (match i.mode with | .A => 48 | .B => 56 | .C => 48), err := .ok }

/-- R153: GETSAMPLES puts 160, 320 or 320 into RESULT for modes A, B and C, sets ERR = OK and changes nothing else. -/
def Obligations.GetsamplesReportsSamples : Prop :=
  ∀ (s : State) (i : Inst), s.inst = some i →
    exec .getsamples s = .next { s with
      result := (match i.mode with | .A => 160 | .B => 320 | .C => 320), err := .ok }

/-! ## The bit packer and the frame layouts -/

/-- R171: PACK faults COLLAB when the value does not fit; otherwise it writes exactly the positions `off..off+w-1`, the most
significant bit first, and leaves every other bit of the buffer as it was. -/
def Obligations.PackWritesExactlyItsPositions : Prop :=
  ∀ (buf : List Byte) (off w v : Nat), off + w ≤ 8 * buf.length →
    (2 ^ w ≤ v → packField buf off w v = .error .collab) ∧
    (v < 2 ^ w → ∃ buf', packField buf off w v = .ok buf' ∧ buf'.length = buf.length ∧
      ∀ q, getBit buf' q = if off ≤ q ∧ q < off + w then v.testBit (w - 1 - (q - off)) else getBit buf q)

/-- R170: position `p` of a buffer is bit `7 - (p & 7)` of byte `p >> 3`. R172: UNPACK gives a value below `2^w` whose bit
`w-1-j` is the frame bit at position `off + j`; it reads no other position; and every value below `2^w` can come out. -/
def Obligations.UnpackReadsItsPositions : Prop :=
  (∀ (buf : List Byte) (p : Nat) (h : p < 8 * buf.length),
    (getBit buf p).toNat = (buf[p / 8]'(by omega)).toNat / 2 ^ (7 - p % 8) % 2) ∧
  (∀ (buf : List Byte) (off w : Nat),
    unpackField buf off w < 2 ^ w ∧ ∀ j < w, (unpackField buf off w).testBit (w - 1 - j) = getBit buf (off + j)) ∧
  (∀ (a b : List Byte) (off w : Nat), (∀ q, off ≤ q → q < off + w → getBit a q = getBit b q) →
    unpackField a off w = unpackField b off w) ∧
  ∀ off w v : Nat, v < 2 ^ w → ∃ buf : List Byte, off + w ≤ 8 * buf.length ∧ unpackField buf off w = v

/-- R107 to R112, R178: the field tables of the three modes, for every choice of sub-field widths. Every field has the name,
the width and the place in the order that R108 to R110 give it; sub-field `i` of the LSP set has the width `WIDTHS[i]`, and
the set has 36, 36 and 27 bits from position 10, 20 and 20 on; the fields fill `BITS` positions. And UNPACK_FRAME reads each
field at the positions of those tables. -/
def Obligations.LayoutPositions : Prop :=
  ∀ p : Params,
    let first : List (FieldName × Nat) := [(.voicing 0, 1), (.voicing 1, 1), (.woe 1, 8)]
    let second : List (FieldName × Nat) := [(.voicing 2, 1), (.voicing 3, 1), (.woe 2, 8)]
    let lspSet (widths : List Nat) : List (FieldName × Nat) := widths.zipIdx.map fun w => (.lsp w.2, w.1)
    (layout p .A = first ++ lspSet p.lspScalarWidths ++ [(.spare, 2)] ∧
      layout p .B = first ++ second ++ lspSet p.lspScalarWidths ∧
      layout p .C = first ++ second ++ lspSet p.lspVqWidths ++ [(.spare, 1)]) ∧
    (p.lspScalarWidths.length = 10 ∧ p.lspScalarWidths.sum = 36 ∧ p.lspVqWidths.sum = 27 ∧
      ∀ m, ((layout p m).map Prod.snd).sum = bitsPerFrame m ∧ bitsPerFrame m = 8 * bytesPerFrame m) ∧
    ∀ (buf : List Byte) (m : FrameMode), let f := unpackFrame p m buf
      (fieldValue f (.voicing 0) = unpackField buf 0 1 ∧ fieldValue f (.voicing 1) = unpackField buf 1 1 ∧
        fieldValue f (.woe 1) = unpackField buf 2 8) ∧
      (m = .B ∨ m = .C → fieldValue f (.voicing 2) = unpackField buf 10 1 ∧
        fieldValue f (.voicing 3) = unpackField buf 11 1 ∧ fieldValue f (.woe 2) = unpackField buf 12 8) ∧
      (∀ i w : Nat, (match m with | .A => p.lspScalarWidths | .B => p.lspScalarWidths | .C => p.lspVqWidths)[i]? = some w →
        fieldValue f (.lsp i) = unpackField buf
          ((match m with | .A => 10 | .B => 20 | .C => 20) +
            ((match m with | .A => p.lspScalarWidths | .B => p.lspScalarWidths | .C => p.lspVqWidths).take i).sum) w) ∧
      (m = .A → fieldValue f .spare = unpackField buf 46 2) ∧ (m = .C → fieldValue f .spare = unpackField buf 47 1)

/-- R176: for every mode, every choice of widths and every field list whose values fit, PACK_FRAME gives NBYTES bytes and
UNPACK_FRAME gives the field list back. In a field list the spare field has the value 0 (R173); of a list that holds
something else there, the spare value comes back as 0 and every other field as it was. -/
def Obligations.UnpackOfPackFrame : Prop :=
  ∀ (p : Params) (m : FrameMode) (fields : FieldList),
    fields.map Prod.fst = (layout p m).map Prod.fst → fieldsFit p m fields →
      ∃ buf, packFrame p m fields = .ok buf ∧ buf.length = bytesPerFrame m ∧
        ((∀ f ∈ fields, f.1 = .spare → f.2 = 0) → unpackFrame p m buf = fields) ∧
        unpackFrame p m buf = fields.map fun f => if f.1 = .spare then (f.1, 0) else f

/-- R177: packing the fields unpacked from a buffer gives the buffer back with every spare position 0. -/
def Obligations.PackOfUnpackFrame : Prop :=
  ∀ (p : Params) (m : FrameMode) (buf : List Byte), buf.length = bytesPerFrame m →
    ∃ buf', packFrame p m (unpackFrame p m buf) = .ok buf' ∧ buf'.length = buf.length ∧
      ∀ q, getBit buf' q =
        if (m = .A ∧ (q = 46 ∨ q = 47)) ∨ (m = .C ∧ q = 47) then false else getBit buf q

/-- R113: packing sub-fields in order puts the same bits in the same positions as packing one value, their concatenation
with the first most significant. -/
def Obligations.SubfieldsPackAsOneValue : Prop :=
  ∀ (subs : List (Nat × Nat)) (buf : List Byte) (off : Nat), (∀ f ∈ subs, f.2 < 2 ^ f.1) →
    off + (subs.map Prod.fst).sum ≤ 8 * buf.length →
      (subs.foldl (fun (a : List Byte × Nat) f => (packBits a.1 a.2 f.1 f.2, a.2 + f.1)) (buf, off)).1 =
        packBits buf off (subs.map Prod.fst).sum (subs.foldl (fun v f => v * 2 ^ f.1 + f.2) 0)

/-! ## ENCODE -/

/-- R192: after `shift_in`, element `i` is the old element `i + 80` below N_HIST - 80, and the new sub-frame above. -/
def Obligations.HistoryShift : Prop :=
  ∀ (p : Params) (hist : Hist) (x : List Sample), hist.length = p.nHist → x.length = 80 →
    (shiftIn hist x).length = p.nHist ∧
    (∀ i, i + 80 < p.nHist → (shiftIn hist x)[i]? = hist[i + 80]?) ∧
    (∀ i, i < 80 → (shiftIn hist x)[p.nHist - 80 + i]? = x[i]?)

/-- R199: the calls of ENCODE in their order, what each is given, and where each result goes. In modes B and C, WoE1 is
quantized with `pred_enc` as the previous frame left it, WoE2 with what WoE1's call returned, and the LSPs come from the
ENVELOPE call of sub-frame 3. -/
def Obligations.EncodeCallOrder : Prop :=
  ∀ (p : Params) (x : List Sample) (e : EncState),
    let h0 := shiftIn e.hist (x.take 80)
    let a0 := p.analyze h0 e.anaCtx
    let h1 := shiftIn h0 ((x.drop 80).take 80)
    let a1 := p.analyze h1 a0.2
    let v1 := p.envelope h1
    let w1 := p.encWoe a1.1 v1.1 e.predEnc
    let h2 := shiftIn h1 ((x.drop 160).take 80)
    let a2 := p.analyze h2 a1.2
    let h3 := shiftIn h2 ((x.drop 240).take 80)
    let a3 := p.analyze h3 a2.2
    let v3 := p.envelope h3
    let w3 := p.encWoe a3.1 v3.1 w1.2
    let first : FieldList := [(.voicing 0, a0.1.voiced.toNat), (.voicing 1, a1.1.voiced.toNat), (.woe 1, w1.1)]
    let second : FieldList := [(.voicing 2, a2.1.voiced.toNat), (.voicing 3, a3.1.voiced.toNat), (.woe 2, w3.1)]
    encodeFields p .A x e = (⟨h1, a1.2, w1.2⟩, first ++ lspFields 0 (p.encLspScalar v1.2).toList ++ [(.spare, 0)]) ∧
    encodeFields p .B x e = (⟨h3, a3.2, w3.2⟩, first ++ second ++ lspFields 0 (p.encLspScalar v3.2).toList) ∧
    encodeFields p .C x e = (⟨h3, a3.2, w3.2⟩, first ++ second ++ lspFields 0 (p.encLspVq v3.2) ++ [(.spare, 0)])

/-- R191, R298: ENCODE with any element of PCM_IN[0..SAMPLES-1] never written is the faulting error UNINIT, before any
collaborator is called. -/
def Obligations.EncodeUnwrittenInputFaults : Prop :=
  ∀ (s : State) (i : Inst) (n : Nat), s.inst = some i → n < samplesPerFrame i.mode →
    Memory.getSample s.mem (0x100 + 2 * n) = none →
      exec .encode s = .fault (.uninit { s with err := .uninit, fault := true })

/-- R190, R198: with an instance, its input samples written and every index fitting its field, ENCODE completes. RESULT is
NBYTES and ERR is OK; BITS_OUT[0..NBYTES-1] are written with bytes in which every field of the layout unpacks to its value
(the field list of `encodeFields`, which `EncodeCallOrder` spells out); the encode fields
are the ones that list goes with; every other byte of memory, the decode fields, the mode and every other field of the state
are unchanged. -/
def Obligations.EncodeCompletes : Prop :=
  ∀ (s : State) (i : Inst) (x : List Sample), s.inst = some i → x.length = samplesPerFrame i.mode →
    (∀ n < samplesPerFrame i.mode, Memory.getSample s.mem (0x100 + 2 * n) = x[n]?) →
    encodeContract s.params i.mode x i.cs.enc →
    ∃ (t : State) (bytes : List Byte), exec .encode s = .next t ∧
      t = { s with
        inst := some ⟨i.mode, (encodeFields s.params i.mode x i.cs.enc).1, i.cs.dec⟩, mem := t.mem
        result := (match i.mode with | .A => 6 | .B => 7 | .C => 6), err := .ok } ∧
      bytes.length = (match i.mode with | .A => 6 | .B => 7 | .C => 6) ∧
      (∀ n < bytes.length, Memory.get t.mem (0x810 + n) = bytes[n]?) ∧
      (∀ a, ¬(0x810 ≤ a ∧ a < 0x810 + bytes.length) → Memory.get t.mem a = Memory.get s.mem a) ∧
      unpackFrame s.params i.mode bytes = (encodeFields s.params i.mode x i.cs.enc).2

/-- R296 check 1 (R171): with an instance and its input samples written, an index that does not fit its field makes ENCODE
the model fault COLLAB: STATUS.ERR = COLLAB and FAULT set, CMD, RESULT, STATE and MODE as they were. R290 leaves open what
else COLLAB leaves; that these four are as before is DEDUCED from R34, R40, R36 and R37 (log 2). -/
def Obligations.EncodeIndexTooLargeFaults : Prop :=
  ∀ (s : State) (i : Inst) (x : List Sample), s.inst = some i → x.length = samplesPerFrame i.mode →
    (∀ n < samplesPerFrame i.mode, Memory.getSample s.mem (0x100 + 2 * n) = x[n]?) →
    ¬ encodeContract s.params i.mode x i.cs.enc →
      exec .encode s = .fault (.collab ⟨s.cmd, statusWord { s with err := .collab, fault := true }, s.result⟩)

/-- ENCODE's frame: when it gives a next state, only BITS_OUT[0..NBYTES-1], the encode fields, RESULT and ERR can have
changed (R79, R53, R190). -/
def Obligations.EncodeFrameCondition : Prop :=
  ∀ (s t : State), exec .encode s = .next t →
    ∃ i e, s.inst = some i ∧ t = { s with
        inst := some ⟨i.mode, e, i.cs.dec⟩, mem := t.mem
        result := BitVec.ofNat 32 (bytesPerFrame i.mode), err := .ok } ∧
      ∀ a, ¬(0x810 ≤ a ∧ a < 0x810 + bytesPerFrame i.mode) → Memory.get t.mem a = Memory.get s.mem a

/-- R201: the same PCM_IN[0..SAMPLES-1], mode, encode fields and collaborators give the same BITS_OUT[0..NBYTES-1] and the
same next encode fields, whatever else the two states hold. -/
def Obligations.EncodeDependsOnlyOnItsInputs : Prop :=
  ∀ (s s' t : State) (i i' : Inst), s.inst = some i → s'.inst = some i' → s.params = s'.params → i.mode = i'.mode →
    i.cs.enc = i'.cs.enc →
    (∀ n < samplesPerFrame i.mode, Memory.getSample s.mem (0x100 + 2 * n) = Memory.getSample s'.mem (0x100 + 2 * n)) →
    exec .encode s = .next t →
    ∃ t', exec .encode s' = .next t' ∧
      (t'.inst.map fun j => (j.mode, j.cs.enc)) = (t.inst.map fun j => (j.mode, j.cs.enc)) ∧
      ∀ n < bytesPerFrame i.mode, Memory.get t'.mem (0x810 + n) = Memory.get t.mem (0x810 + n)

/-! ## DECODE -/

/-- R230, R231: SAT on every value of NUM: NUMERIC on NaN, the nearest bound beyond [-32767, 32767], and between them an
integer of that range within 1 of the sample. -/
def Obligations.SaturationRule : Prop :=
  ∀ (p : Params) (y : Numeric),
    (y = .nan → saturate p y = .error .numeric) ∧
    (y = .posInf → saturate p y = .ok 32767) ∧ (y = .negInf → saturate p y = .ok (-32767)) ∧
    ∀ q : Rat, y.toRat? = some q →
      (32767 < q → saturate p y = .ok 32767) ∧ (q < -32767 → saturate p y = .ok (-32767)) ∧
      (-32767 ≤ q → q ≤ 32767 → ∃ n : Int, saturate p y = .ok n ∧ n = p.toInt y ∧ -32767 ≤ n ∧ n ≤ 32767 ∧
        q - 1 < (n : Rat) ∧ (n : Rat) < q + 1)

/-- R261, R262: the LSP vectors of the sub-frames: weights 0.5 then the decoded vector in mode A, 0.25, 0.5, 0.75 then the
decoded vector in modes B and C, each element computed as `(1-w)*a`, then `w*b`, then their sum. -/
def Obligations.LspTrajectoryWeights : Prop :=
  ∀ (p : Params) (a b : LspVec),
    (∀ w (i : Nat) (h : i < 10), (lerp p a b w)[i] = p.add (p.mul (p.sub (.finite 1) w) a[i]) (p.mul w b[i])) ∧
    lspTrajectory p .A a b = [lerp p a b (.finite (1 / 2)), b] ∧
    ∀ m, m = FrameMode.B ∨ m = FrameMode.C → lspTrajectory p m a b =
      [lerp p a b (.finite (1 / 4)), lerp p a b (.finite (1 / 2)), lerp p a b (.finite (3 / 4)), b]

/-- R260, modes B and C (with the checks of R263 to R265 passing): sub-frame 0 interpolates between the previous frame's
values and sub-frame 1, sub-frame 2 between sub-frames 1 and 3, all at weight 0.5, and sub-frames 1 and 3 keep the
transmitted values. -/
def Obligations.TrajectoryTable : Prop :=
  ∀ (p : Params) (P : ModelHead) (prevE : Numeric) (x y : PairInput) (l1 l3 : Nat),
    harmonics p x.wo = .ok l1 → harmonics p y.wo = .ok l3 →
    let S1 : ModelHead := ⟨x.wo, l1, x.voicedSecond⟩
    let S3 : ModelHead := ⟨y.wo, l3, y.voicedSecond⟩
    let r0 := p.interpWo P x.voicedFirst S1 (.finite (1 / 2))
    let r2 := p.interpWo S1 y.voicedFirst S3 (.finite (1 / 2))
    let e0 := p.interpE prevE x.energy (.finite (1 / 2))
    let e2 := p.interpE x.energy y.energy (.finite (1 / 2))
    r0.1.finitePositive = true → (r0.2 = true → x.voicedFirst = true) → e0.finitePositive = true →
    r2.1.finitePositive = true → (r2.2 = true → y.voicedFirst = true) → e2.finitePositive = true →
      trajectory p P prevE [x, y] = .ok
        [⟨r0.1, e0, r0.2⟩, ⟨x.wo, x.energy, x.voicedSecond⟩, ⟨r2.1, e2, r2.2⟩, ⟨y.wo, y.energy, y.voicedSecond⟩]

/-- R263, R264 under the properties R266 names: where both neighbours and the sub-frame are voiced, an INTERP_WO with
INTERP_WO_BETWEEN that passes the checks of R263 leaves the sub-frame voiced, with a Wo between its neighbours' (unless one of
those is NaN, log 24), and between finite positive neighbours it always passes them; an INTERP_E with INTERP_E_BETWEEN between finite
positive neighbours always passes the check of R264 and gives an energy between theirs, and with INTERP_E_SAME the common
one of equal neighbours. -/
def Obligations.InterpolationKeepsContract : Prop :=
  ∀ p : Params,
    (interpWoBetween p → ∀ left right : ModelHead, left.voiced = true → right.voiced = true →
      (∀ r, interpolateWo p left true right = .ok r → r.2 = true ∧
        (left.wo.isNaN = false → right.wo.isNaN = false → between left.wo right.wo r.1 = true)) ∧
      (left.wo.finitePositive = true → right.wo.finitePositive = true →
        ∃ wo, interpolateWo p left true right = .ok (wo, true) ∧ wo.finitePositive = true ∧
          between left.wo right.wo wo = true)) ∧
    (interpEBetween p → ∀ a b : Numeric, a.finitePositive = true → b.finitePositive = true →
      ∃ e, interpolateE p a b = .ok e ∧ e.finitePositive = true ∧ between a b e = true) ∧
    (interpESame p → ∀ a : Numeric, a.finitePositive = true → interpolateE p a a = .ok a)

/-- R265: the harmonic count is `floor(π/Wo)` where that lies in 1..L_MAX, and COLLAB otherwise. (That a quotient with no
floor fails the check is an inference of the model, log 12.) -/
def Obligations.HarmonicsRange : Prop :=
  ∀ (p : Params) (wo : Numeric),
    (∀ q : Rat, (p.div p.pi wo).toRat? = some q →
      (1 ≤ ⌊q⌋ → ⌊q⌋ ≤ (p.lMax : Int) → ∃ n : Nat, (n : Int) = ⌊q⌋ ∧ harmonics p wo = .ok n) ∧
      (⌊q⌋ < 1 ∨ (p.lMax : Int) < ⌊q⌋ → harmonics p wo = .error .collab)) ∧
    ((p.div p.pi wo).toRat? = none → harmonics p wo = .error .collab)

/-- R268, R269: an order correction with LSP_FIX_STRICT and an expansion with BW_KEEPS_ORDER never trip DECODE's strict-order
check, and the vector they give is strictly increasing; without them, the check is COLLAB exactly when the vector is not. -/
def Obligations.LspOrderCheck : Prop :=
  (∀ p : Params, lspFixStrict p → bwKeepsOrder p → ∀ raw,
    correctLsps p raw = .ok (p.bwExpand (p.lspOrderFix raw)) ∧
      strictlyIncreasing (p.bwExpand (p.lspOrderFix raw)).toList = true) ∧
  ∀ (p : Params) (raw : LspVec), correctLsps p raw = .error .collab ↔
    ∃ n : Nat, ∃ h : n + 1 < 10,
      Numeric.lt ((p.bwExpand (p.lspOrderFix raw))[n]'(by omega)) ((p.bwExpand (p.lspOrderFix raw))[n + 1]'h) = false

/-- R221, R298: DECODE with any byte of BITS_IN[0..NBYTES-1] never written is the faulting error UNINIT, before any
collaborator is called. -/
def Obligations.DecodeUnwrittenInputFaults : Prop :=
  ∀ (s : State) (i : Inst) (n : Nat), s.inst = some i → n < bytesPerFrame i.mode → Memory.get s.mem (0x800 + n) = none →
    exec .decode s = .fault (.uninit { s with err := .uninit, fault := true })

/-- R220, R227, R232: with an instance, its input bytes written and the collaborators' contracts kept (R296, R297, written out
value by value in `decodeContract`), DECODE completes. PCM_OUT[80k+n] is the saturated sample n of sub-frame k; the decode
fields are those of `nextDecState`; RESULT is SAMPLES, ERR is OK; every other byte of memory, the encode fields, the mode and
every other field of the state are unchanged. The LSP vector is decoded by DEC_LSP_SCALAR from lsp0 to lsp9 in modes A and B
and by DEC_LSP_VQ from the N_VQ indices in mode C (R224), and sub-frame k's voicing is `v_k = 1`, which INTERP_WO is given on
the even sub-frames (R222, R263). -/
def Obligations.DecodeCompletes : Prop :=
  ∀ (s : State) (i : Inst) (bytes : List Byte), s.inst = some i → bytes.length = bytesPerFrame i.mode →
    (∀ n < bytesPerFrame i.mode, Memory.get s.mem (0x800 + n) = bytes[n]?) →
    let f := unpackFrame s.params i.mode bytes
    decodeContract s.params i.mode f i.cs.dec →
    (∃ t : State, exec .decode s = .next t ∧
      t = { s with
        inst := some ⟨i.mode, i.cs.enc, nextDecState s.params i.mode f i.cs.dec⟩
        mem := t.mem, result := (match i.mode with | .A => 160 | .B => 320 | .C => 320), err := .ok } ∧
      (∀ k < subframes i.mode, ∀ n : Nat, ∀ h : n < 80,
        Memory.getSample t.mem (0x400 + 2 * (80 * k + n)) = some (BitVec.ofInt 16 (clamped s.params
          ((preClamp s.params i.mode f i.cs.dec k)[n]'h)))) ∧
      ∀ a, ¬(0x400 ≤ a ∧ a < 0x400 + 2 * samplesPerFrame i.mode) → Memory.get t.mem a = Memory.get s.mem a) ∧
    newLsps s.params i.mode f = s.params.bwExpand (s.params.lspOrderFix (match i.mode with
      | .A => s.params.decLspScalar (Vector.ofFn fun k => fieldValue f (.lsp k))
      | .B => s.params.decLspScalar (Vector.ofFn fun k => fieldValue f (.lsp k))
      | .C => s.params.decLspVq ((List.range s.params.lspVqWidths.length).map fun k => fieldValue f (.lsp k)))) ∧
    ∀ k, (subParams s.params f i.cs.dec k).voiced =
      if k % 2 = 1 then decide (fieldValue f (.voicing k) = 1)
      else (s.params.interpWo (leftHead s.params f i.cs.dec (k / 2)) (decide (fieldValue f (.voicing k) = 1))
        (sentHead s.params f i.cs.dec (k / 2)) (.finite (1 / 2))).2

/-- The calls of DECODE on an unpacked frame, in their order, what each is given and where each result goes (R220, R222 to
R226, R232), when the checks on them pass. Field `v_k` is voiced when it is 1. In modes B and C, WoE1 is decoded with `pred_dec`
as the previous frame left it and WoE2 with what WoE1's call returned. Modes A and B call DEC_LSP_SCALAR on lsp0 to lsp9, mode C
calls DEC_LSP_VQ on its N_VQ indices (R224, 90_conflicts.md C1). The spare field is not used (R221). `TrajectoryTable`,
`LspTrajectoryWeights` and `DecodeCompletes` say what the trajectory and the synthesis give. -/
def Obligations.DecodeCallOrder : Prop :=
  ∀ (p : Params) (d : DecState) (v0 v1 v2 v3 w1 w2 spare : Nat) (ix : Vector Nat 10) (vq : List Nat),
    vq.length = p.lspVqWidths.length →
    let lspSet (values : List Nat) : FieldList := values.zipIdx.map fun v => (.lsp v.2, v.1)
    let first : FieldList := [(.voicing 0, v0), (.voicing 1, v1), (.woe 1, w1)]
    let second : FieldList := [(.voicing 2, v2), (.voicing 3, v3), (.woe 2, w2)]
    let u1 := p.decWoe w1 d.predDec
    let u2 := p.decWoe w2 u1.2.2
    let pair1 : PairInput := ⟨decide (v0 = 1), decide (v1 = 1), u1.1, u1.2.1⟩
    let pair2 : PairInput := ⟨decide (v2 = 1), decide (v3 = 1), u2.1, u2.2.1⟩
    let scalar := p.bwExpand (p.lspOrderFix (p.decLspScalar ix))
    let vector := p.bwExpand (p.lspOrderFix (p.decLspVq vq))
    let decodes (m : FrameMode) (fields : FieldList) (lspNew : LspVec) (pairs : List PairInput) (pred : PredState)
        (energy : Numeric) : Prop :=
      strictlyIncreasing lspNew.toList = true → ∀ (subs : List SubParams) (samples : List Sample) (z : SynthState),
        trajectory p d.prevModel.head d.prevE pairs = .ok subs →
        synthesize p ((lspTrajectory p m d.prevLsps lspNew).zip subs) ⟨d.prevModel, d.phase, d.noise, d.ola⟩ =
          .ok (samples, z) →
          decodeFields p m fields d = .ok (samples, ⟨pred, z.last, lspNew, energy, z.phase, z.noise, z.ola⟩)
    u1.1.finitePositive = true → u1.2.1.finitePositive = true →
      decodes .A (first ++ lspSet ix.toList ++ [(.spare, spare)]) scalar [pair1] u1.2.2 u1.2.1 ∧
      (u2.1.finitePositive = true → u2.2.1.finitePositive = true →
        decodes .B (first ++ second ++ lspSet ix.toList) scalar [pair1, pair2] u2.2.2 u2.2.1 ∧
        decodes .C (first ++ second ++ lspSet vq ++ [(.spare, spare)]) vector [pair1, pair2] u2.2.2 u2.2.1)

/-- R296, R297, R300: the faults of DECODE in their order. A check that fails before synthesis is COLLAB. Otherwise the first
sub-frame whose checks fail decides: COLLAB when its harmonic count is out of range, NUMERIC when that is in range and a
pre-clamp sample is NaN. That a quotient pi/Wo with no floor (infinite or NaN) is out of range is DEDUCED (log 12). That CMD,
RESULT, STATE and MODE are as before, where R290 leaves open what else COLLAB and NUMERIC leave, is DEDUCED from R34, R40, R36
and R37 (log 2). -/
def Obligations.DecodeFaultsInOrder : Prop :=
  ∀ (s : State) (i : Inst) (bytes : List Byte), s.inst = some i → bytes.length = bytesPerFrame i.mode →
    (∀ n < bytesPerFrame i.mode, Memory.get s.mem (0x800 + n) = bytes[n]?) →
    let f := unpackFrame s.params i.mode bytes
    (¬ decodeParamsOk s.params i.mode f i.cs.dec →
      exec .decode s = .fault (.collab ⟨s.cmd, statusWord { s with err := .collab, fault := true }, s.result⟩)) ∧
    (decodeParamsOk s.params i.mode f i.cs.dec → ∀ k < subframes i.mode,
      (∀ k' < k, decodeSubframeOk s.params i.mode f i.cs.dec k') →
      (harmonicsInRange s.params (subParams s.params f i.cs.dec k).wo = false →
        exec .decode s = .fault (.collab ⟨s.cmd, statusWord { s with err := .collab, fault := true }, s.result⟩)) ∧
      (harmonicsInRange s.params (subParams s.params f i.cs.dec k).wo = true → ¬ noNaN s.params i.mode f i.cs.dec k →
        exec .decode s = .fault (.numeric ⟨s.cmd, statusWord { s with err := .numeric, fault := true }, s.result⟩)))

/-- DECODE's frame: when it gives a next state, only PCM_OUT[0..SAMPLES-1], the decode fields, RESULT and ERR can have
changed (R79, R53, R220). -/
def Obligations.DecodeFrameCondition : Prop :=
  ∀ (s t : State), exec .decode s = .next t →
    ∃ i d, s.inst = some i ∧ t = { s with
        inst := some ⟨i.mode, i.cs.enc, d⟩, mem := t.mem
        result := BitVec.ofNat 32 (samplesPerFrame i.mode), err := .ok } ∧
      ∀ a, ¬(0x400 ≤ a ∧ a < 0x400 + 2 * samplesPerFrame i.mode) → Memory.get t.mem a = Memory.get s.mem a

/-- R230: every sample a DECODE writes lies in [-32767, 32767]; -32768 is never written to PCM_OUT. -/
def Obligations.DecodeOutputSaturated : Prop :=
  ∀ (s t : State) (i : Inst), exec .decode s = .next t → s.inst = some i →
    ∀ n < samplesPerFrame i.mode, ∃ v, Memory.getSample t.mem (0x400 + 2 * n) = some v ∧
      -32767 ≤ v.toInt ∧ v.toInt ≤ 32767

/-- R237: the same BITS_IN[0..NBYTES-1], mode, decode fields and collaborators give the same PCM_OUT[0..SAMPLES-1] and the
same next decode fields; and the spare bits of the input do not matter (R115, R221). -/
def Obligations.DecodeDependsOnlyOnItsInputs : Prop :=
  ∀ (s s' t : State) (i i' : Inst), s.inst = some i → s'.inst = some i' → s.params = s'.params → i.mode = i'.mode →
    i.cs.dec = i'.cs.dec →
    (∀ n < bytesPerFrame i.mode, ∃ b b', Memory.get s.mem (0x800 + n) = some b ∧ Memory.get s'.mem (0x800 + n) = some b' ∧
      (n = 5 → (i.mode = .A → b &&& 0xFC = b' &&& 0xFC) ∧ (i.mode = .B → b = b') ∧ (i.mode = .C → b &&& 0xFE = b' &&& 0xFE)) ∧
      (n ≠ 5 → b = b')) →
    exec .decode s = .next t →
    ∃ t', exec .decode s' = .next t' ∧
      (t'.inst.map fun j => (j.mode, j.cs.dec)) = (t.inst.map fun j => (j.mode, j.cs.dec)) ∧
      ∀ n < samplesPerFrame i.mode,
        Memory.getSample t'.mem (0x400 + 2 * n) = Memory.getSample t.mem (0x400 + 2 * n)

/-- R53, R329: an ENCODE and a DECODE on one instance give the same results in either order: when one order completes the
other does, and the two final states differ at most in RESULT, which holds the last command's size. -/
def Obligations.EncodeDecodeCommute : Prop :=
  (∀ (s u t : State), exec .encode s = .next u → exec .decode u = .next t →
    ∃ u' t', exec .decode s = .next u' ∧ exec .encode u' = .next t' ∧ t'.inst = t.inst ∧
      (∀ a, Memory.get t'.mem a = Memory.get t.mem a) ∧
      t' = { t with mem := t'.mem, result := u.result } ∧ t.result = u'.result) ∧
  ∀ (s u t : State), exec .decode s = .next u → exec .encode u = .next t →
    ∃ u' t', exec .encode s = .next u' ∧ exec .decode u' = .next t' ∧ t'.inst = t.inst ∧
      (∀ a, Memory.get t'.mem a = Memory.get t.mem a) ∧
      t' = { t with mem := t'.mem, result := u.result } ∧ t.result = u'.result

/-! ## The host window -/

/-- R70 to R74, R295: exactly the whole-element accesses of the window map are admitted, the read-only elements for reading
alone: an access is the faulting error BUS when and only when it is not one of them. BUS sets STATUS.ERR and STATUS.FAULT and has
no other effect on registers or buffers. -/
def Obligations.InadmissibleAccessFaultsBus : Prop :=
  ∀ (s : State) (rest : List HostOp) (a : Addr) (n : Nat),
    let pcm (base : Nat) : Prop := n = 2 ∧ base ≤ a.toNat ∧ a.toNat < base + 640 ∧ a.toNat % 2 = 0
    let bits (base : Nat) : Prop := n = 1 ∧ base ≤ a.toNat ∧ a.toNat < base + 7
    (s.hostQueue = .read a n :: rest → ((∃ left, step s = .fault (.bus left)) ↔
      ¬(n = 4 ∧ (a = 0x000 ∨ a = 0x004 ∨ a = 0x008) ∨ pcm 0x100 ∨ pcm 0x400 ∨ bits 0x800 ∨ bits 0x810))) ∧
    (∀ v, s.hostQueue = .write a n v :: rest → ((∃ left, step s = .fault (.bus left)) ↔
      ¬(n = 4 ∧ a = 0x000 ∨ pcm 0x100 ∨ bits 0x800))) ∧
    ∀ left, step s = .fault (.bus left) → errField (statusWord left) = 6 ∧ faultField (statusWord left) = true ∧
      left.cmd = s.cmd ∧ left.result = s.result ∧ left.inst = s.inst ∧ left.mem = s.mem

/-- R34, R35, R40, R75, R76: an admitted read returns the whole element, zero-extended, and changes nothing else. -/
def Obligations.HostReadReturnsElement : Prop :=
  ∀ (s : State) (rest : List HostOp) (a : Addr) (n : Nat), s.hostQueue = .read a n :: rest →
    (n = 4 → a = 0x000 → step s = .next { s with hostQueue := rest, readData := some s.cmd }) ∧
    (n = 4 → a = 0x004 → step s = .next { s with hostQueue := rest, readData := some (statusWord s) }) ∧
    (n = 4 → a = 0x008 → step s = .next { s with hostQueue := rest, readData := some s.result }) ∧
    (∀ i < 320, ∀ v, n = 2 → (a.toNat = 0x100 + 2 * i ∨ a.toNat = 0x400 + 2 * i) →
      Memory.getSample s.mem a.toNat = some v →
        step s = .next { s with hostQueue := rest, readData := some (v.setWidth 32) }) ∧
    (∀ i < 7, ∀ v, n = 1 → (a.toNat = 0x800 + i ∨ a.toNat = 0x810 + i) → Memory.get s.mem a.toNat = some v →
      step s = .next { s with hostQueue := rest, readData := some (v.setWidth 32) })

/-- R298, R75: an admitted read of a buffer element whose written mark is clear is the faulting error UNINIT. -/
def Obligations.HostReadOfUnwrittenFaults : Prop :=
  ∀ (s : State) (rest : List HostOp) (a : Addr) (i : Nat),
    let left : State := { s with hostQueue := rest, err := .uninit, fault := true }
    (s.hostQueue = .read a 2 :: rest → i < 320 → (a.toNat = 0x100 + 2 * i ∨ a.toNat = 0x400 + 2 * i) →
      Memory.getSample s.mem a.toNat = none → step s = .fault (.uninit left)) ∧
    (s.hostQueue = .read a 1 :: rest → i < 7 → (a.toNat = 0x800 + i ∨ a.toNat = 0x810 + i) →
      Memory.get s.mem a.toNat = none → step s = .fault (.uninit left))

/-- R75, R76: a host write of a PCM_IN or BITS_IN element completes, stores exactly that element, sets its mark and changes
nothing else, and the read that follows returns the value written. -/
def Obligations.HostWriteThenReadReturnsValue : Prop :=
  ∀ (s : State) (rest : List HostOp) (a : Addr) (n v i : Nat),
    s.hostQueue = .write a n v :: .read a n :: rest →
    (n = 2 ∧ i < 320 ∧ a.toNat = 0x100 + 2 * i ∧ v < 2 ^ 16 ∨ n = 1 ∧ i < 7 ∧ a.toNat = 0x800 + i ∧ v < 2 ^ 8) →
    ∃ u t, step s = .next u ∧ step u = .next t ∧ t.readData = some (BitVec.ofNat 32 v) ∧
      u = { s with hostQueue := .read a n :: rest, mem := u.mem } ∧
      ∀ x, ¬(a.toNat ≤ x ∧ x < a.toNat + n) → Memory.get u.mem x = Memory.get s.mem x

/-! ## The whole machine -/

/-- R35: in every state STATUS holds a legal value in every field: STATE 0 or 1, MODE 0, 1 or 2 while READY and 15 otherwise,
ERR at most 9, the reserved bits 0. -/
def Obligations.StatusFieldsLegal : Prop :=
  ∀ s : State, let w := statusWord s
    (stateField w = 1 ∧ modeField w ≤ 2 ∧ s.inst.isSome = true ∨ stateField w = 0 ∧ modeField w = 15 ∧ s.inst = none) ∧
    errField w ≤ 9 ∧ errField w = s.err.code ∧ faultField w = s.fault ∧ w.extractLsb' 6 2 = 0 ∧ w.extractLsb' 13 19 = 0

/-- R290, R291: whatever operation faults, STATUS.ERR holds the code of that fault and STATUS.FAULT is 1; and a fault other
than COLLAB or NUMERIC leaves everything but the STATUS write and, for a write of CMD, CMD (and the performed operation taken
off the host's list, log 1). -/
def Obligations.FaultsSetErrAndFaultOnly : Prop :=
  ∀ (s : State) (r : Fault), step s = .fault r →
    errField (faultRegisters r).status = (faultErrCode r).code ∧ 3 ≤ (faultErrCode r).code ∧
    faultField (faultRegisters r).status = true ∧
    ∀ left, faultLeaves r = some left →
      left = { s with hostQueue := s.hostQueue.tail, cmd := left.cmd, err := faultErrCode r, fault := true } ∧
      (left.cmd ≠ s.cmd → ∃ v, s.hostQueue.head? = some (.write 0x000 4 v))

/-- R40: RESULT changes only when GETBITS, GETSAMPLES, ENCODE or DECODE completes (or the reset input is asserted). -/
def Obligations.ResultWrittenByFourCommandsOnly : Prop :=
  ∀ (s t : State), step s = .next t → t.result ≠ s.result →
    s.hostQueue.head? = some .reset ∨
    ∃ v i, s.hostQueue.head? = some (.write 0x000 4 v) ∧ decodeWord (BitVec.ofNat 32 v) = .ok i ∧
      i ∈ [Instr.getbits, .getsamples, .encode, .decode]

/-- R33, R36, R37, R145: an instance appears only by CREATE, ends only by DESTROY or reset, and its mode never changes in
between. -/
def Obligations.InstanceModeFixedUntilDestroy : Prop :=
  ∀ (s t : State), step s = .next t →
    (∀ i j, s.inst = some i → t.inst = some j → j.mode = i.mode) ∧
    (s.inst = none → t.inst.isSome = true →
      ∃ v mode, s.hostQueue.head? = some (.write 0x000 4 v) ∧ decodeWord (BitVec.ofNat 32 v) = .ok (.create mode)) ∧
    (s.inst.isSome = true → t.inst = none → s.hostQueue.head? = some .reset ∨
      ∃ v, s.hostQueue.head? = some (.write 0x000 4 v) ∧ decodeWord (BitVec.ofNat 32 v) = .ok .destroy)

/-- R42, R54, R70: a CodecState changes only by commands: when an instance is there before and after a step and its encode
fields differ, the step performed ENCODE; when its decode fields differ, DECODE. -/
def Obligations.CodecStateChangedOnlyByItsCommand : Prop :=
  ∀ (s t : State) (i j : Inst), step s = .next t → s.inst = some i → t.inst = some j →
    (j.cs.enc ≠ i.cs.enc → ∃ v, s.hostQueue.head? = some (.write 0x000 4 v) ∧
      decodeWord (BitVec.ofNat 32 v) = .ok .encode) ∧
    (j.cs.dec ≠ i.cs.dec → ∃ v, s.hostQueue.head? = some (.write 0x000 4 v) ∧
      decodeWord (BitVec.ofNat 32 v) = .ok .decode)

/-- R55: nothing but reset clears a written mark. -/
def Obligations.WrittenMarksPersist : Prop :=
  ∀ (s t : State) (a : Nat), step s = .next t → s.hostQueue.head? ≠ some .reset →
    (Memory.get s.mem a).isSome = true → (Memory.get t.mem a).isSome = true

/-- R12 (log 6): no step changes the configuration the block was built with. -/
def Obligations.ConfigurationFixed : Prop :=
  ∀ (s t : State), step s = .next t → t.config = s.config

/-- The invariant holds at reset, whatever the configuration and whatever the host is about to do. -/
def Obligations.ResetSatisfiesInvariant : Prop :=
  Safety.Inv State.reset ∧ ∀ (c : Config) (q : List HostOp) (n : Nat),
    Safety.Inv { State.reset with config := c, hostQueue := q, draws := n }

/-- Every step keeps the invariant: canonical memory that holds bytes only in the four buffers and whole PCM elements, no
-32768 in PCM_OUT (R230), a history of N_HIST samples (R43), strictly increasing `prev_lsps` (R270), positive `prev_e`. -/
def Obligations.StepKeepsInvariant : Prop :=
  ∀ (s t : State), Safety.Inv s → step s = .next t → Safety.Inv t

/-- R270: after any number of host operations from reset, in any order and for any configuration, if no fault ended the run,
`prev_lsps` of the instance is strictly increasing. -/
def Obligations.LspsIncreasingAlongEveryRun : Prop :=
  ∀ (c : Config) (q : List HostOp) (n : Nat) (t : State) (i : Inst),
    Sys2Proof.core.run n { State.reset with config := c, hostQueue := q } = .next t → t.inst = some i →
      strictlyIncreasing i.cs.dec.prevLsps.toList = true
end

