-- ==== Sys2Proof/Laws/State.lean ====
section
/-! SUPPORT. One lemma per field per named update of State, true by rfl, so that no proof unfolds a record update; and the
fields of the composite updates the commands use. -/

namespace Sys2Proof.Machine

@[simp] theorem State.withCmd_cmd (s : State) (x : Word) : (s.withCmd x).cmd = x := rfl
@[simp] theorem State.withCmd_err (s : State) (x : Word) : (s.withCmd x).err = s.err := rfl
@[simp] theorem State.withCmd_fault (s : State) (x : Word) : (s.withCmd x).fault = s.fault := rfl
@[simp] theorem State.withCmd_result (s : State) (x : Word) : (s.withCmd x).result = s.result := rfl
@[simp] theorem State.withCmd_inst (s : State) (x : Word) : (s.withCmd x).inst = s.inst := rfl
@[simp] theorem State.withCmd_mem (s : State) (x : Word) : (s.withCmd x).mem = s.mem := rfl
@[simp] theorem State.withCmd_readData (s : State) (x : Word) : (s.withCmd x).readData = s.readData := rfl
@[simp] theorem State.withCmd_hostQueue (s : State) (x : Word) : (s.withCmd x).hostQueue = s.hostQueue := rfl
@[simp] theorem State.withCmd_config (s : State) (x : Word) : (s.withCmd x).config = s.config := rfl
@[simp] theorem State.withCmd_draws (s : State) (x : Word) : (s.withCmd x).draws = s.draws := rfl
@[simp] theorem State.withCmd_params (s : State) (x : Word) : (s.withCmd x).params = s.params := rfl

@[simp] theorem State.withErr_cmd (s : State) (x : ErrCode) : (s.withErr x).cmd = s.cmd := rfl
@[simp] theorem State.withErr_err (s : State) (x : ErrCode) : (s.withErr x).err = x := rfl
@[simp] theorem State.withErr_fault (s : State) (x : ErrCode) : (s.withErr x).fault = s.fault := rfl
@[simp] theorem State.withErr_result (s : State) (x : ErrCode) : (s.withErr x).result = s.result := rfl
@[simp] theorem State.withErr_inst (s : State) (x : ErrCode) : (s.withErr x).inst = s.inst := rfl
@[simp] theorem State.withErr_mem (s : State) (x : ErrCode) : (s.withErr x).mem = s.mem := rfl
@[simp] theorem State.withErr_readData (s : State) (x : ErrCode) : (s.withErr x).readData = s.readData := rfl
@[simp] theorem State.withErr_hostQueue (s : State) (x : ErrCode) : (s.withErr x).hostQueue = s.hostQueue := rfl
@[simp] theorem State.withErr_config (s : State) (x : ErrCode) : (s.withErr x).config = s.config := rfl
@[simp] theorem State.withErr_draws (s : State) (x : ErrCode) : (s.withErr x).draws = s.draws := rfl
@[simp] theorem State.withErr_params (s : State) (x : ErrCode) : (s.withErr x).params = s.params := rfl

@[simp] theorem State.withFault_cmd (s : State) (x : Bool) : (s.withFault x).cmd = s.cmd := rfl
@[simp] theorem State.withFault_err (s : State) (x : Bool) : (s.withFault x).err = s.err := rfl
@[simp] theorem State.withFault_fault (s : State) (x : Bool) : (s.withFault x).fault = x := rfl
@[simp] theorem State.withFault_result (s : State) (x : Bool) : (s.withFault x).result = s.result := rfl
@[simp] theorem State.withFault_inst (s : State) (x : Bool) : (s.withFault x).inst = s.inst := rfl
@[simp] theorem State.withFault_mem (s : State) (x : Bool) : (s.withFault x).mem = s.mem := rfl
@[simp] theorem State.withFault_readData (s : State) (x : Bool) : (s.withFault x).readData = s.readData := rfl
@[simp] theorem State.withFault_hostQueue (s : State) (x : Bool) : (s.withFault x).hostQueue = s.hostQueue := rfl
@[simp] theorem State.withFault_config (s : State) (x : Bool) : (s.withFault x).config = s.config := rfl
@[simp] theorem State.withFault_draws (s : State) (x : Bool) : (s.withFault x).draws = s.draws := rfl
@[simp] theorem State.withFault_params (s : State) (x : Bool) : (s.withFault x).params = s.params := rfl

@[simp] theorem State.withResult_cmd (s : State) (x : Word) : (s.withResult x).cmd = s.cmd := rfl
@[simp] theorem State.withResult_err (s : State) (x : Word) : (s.withResult x).err = s.err := rfl
@[simp] theorem State.withResult_fault (s : State) (x : Word) : (s.withResult x).fault = s.fault := rfl
@[simp] theorem State.withResult_result (s : State) (x : Word) : (s.withResult x).result = x := rfl
@[simp] theorem State.withResult_inst (s : State) (x : Word) : (s.withResult x).inst = s.inst := rfl
@[simp] theorem State.withResult_mem (s : State) (x : Word) : (s.withResult x).mem = s.mem := rfl
@[simp] theorem State.withResult_readData (s : State) (x : Word) : (s.withResult x).readData = s.readData := rfl
@[simp] theorem State.withResult_hostQueue (s : State) (x : Word) : (s.withResult x).hostQueue = s.hostQueue := rfl
@[simp] theorem State.withResult_config (s : State) (x : Word) : (s.withResult x).config = s.config := rfl
@[simp] theorem State.withResult_draws (s : State) (x : Word) : (s.withResult x).draws = s.draws := rfl
@[simp] theorem State.withResult_params (s : State) (x : Word) : (s.withResult x).params = s.params := rfl

@[simp] theorem State.withInst_cmd (s : State) (x : Option Inst) : (s.withInst x).cmd = s.cmd := rfl
@[simp] theorem State.withInst_err (s : State) (x : Option Inst) : (s.withInst x).err = s.err := rfl
@[simp] theorem State.withInst_fault (s : State) (x : Option Inst) : (s.withInst x).fault = s.fault := rfl
@[simp] theorem State.withInst_result (s : State) (x : Option Inst) : (s.withInst x).result = s.result := rfl
@[simp] theorem State.withInst_inst (s : State) (x : Option Inst) : (s.withInst x).inst = x := rfl
@[simp] theorem State.withInst_mem (s : State) (x : Option Inst) : (s.withInst x).mem = s.mem := rfl
@[simp] theorem State.withInst_readData (s : State) (x : Option Inst) : (s.withInst x).readData = s.readData := rfl
@[simp] theorem State.withInst_hostQueue (s : State) (x : Option Inst) : (s.withInst x).hostQueue = s.hostQueue := rfl
@[simp] theorem State.withInst_config (s : State) (x : Option Inst) : (s.withInst x).config = s.config := rfl
@[simp] theorem State.withInst_draws (s : State) (x : Option Inst) : (s.withInst x).draws = s.draws := rfl
@[simp] theorem State.withInst_params (s : State) (x : Option Inst) : (s.withInst x).params = s.params := rfl

@[simp] theorem State.withMem_cmd (s : State) (x : Memory) : (s.withMem x).cmd = s.cmd := rfl
@[simp] theorem State.withMem_err (s : State) (x : Memory) : (s.withMem x).err = s.err := rfl
@[simp] theorem State.withMem_fault (s : State) (x : Memory) : (s.withMem x).fault = s.fault := rfl
@[simp] theorem State.withMem_result (s : State) (x : Memory) : (s.withMem x).result = s.result := rfl
@[simp] theorem State.withMem_inst (s : State) (x : Memory) : (s.withMem x).inst = s.inst := rfl
@[simp] theorem State.withMem_mem (s : State) (x : Memory) : (s.withMem x).mem = x := rfl
@[simp] theorem State.withMem_readData (s : State) (x : Memory) : (s.withMem x).readData = s.readData := rfl
@[simp] theorem State.withMem_hostQueue (s : State) (x : Memory) : (s.withMem x).hostQueue = s.hostQueue := rfl
@[simp] theorem State.withMem_config (s : State) (x : Memory) : (s.withMem x).config = s.config := rfl
@[simp] theorem State.withMem_draws (s : State) (x : Memory) : (s.withMem x).draws = s.draws := rfl
@[simp] theorem State.withMem_params (s : State) (x : Memory) : (s.withMem x).params = s.params := rfl

@[simp] theorem State.withReadData_cmd (s : State) (x : Option Word) : (s.withReadData x).cmd = s.cmd := rfl
@[simp] theorem State.withReadData_err (s : State) (x : Option Word) : (s.withReadData x).err = s.err := rfl
@[simp] theorem State.withReadData_fault (s : State) (x : Option Word) : (s.withReadData x).fault = s.fault := rfl
@[simp] theorem State.withReadData_result (s : State) (x : Option Word) : (s.withReadData x).result = s.result := rfl
@[simp] theorem State.withReadData_inst (s : State) (x : Option Word) : (s.withReadData x).inst = s.inst := rfl
@[simp] theorem State.withReadData_mem (s : State) (x : Option Word) : (s.withReadData x).mem = s.mem := rfl
@[simp] theorem State.withReadData_readData (s : State) (x : Option Word) : (s.withReadData x).readData = x := rfl
@[simp] theorem State.withReadData_hostQueue (s : State) (x : Option Word) : (s.withReadData x).hostQueue = s.hostQueue := rfl
@[simp] theorem State.withReadData_config (s : State) (x : Option Word) : (s.withReadData x).config = s.config := rfl
@[simp] theorem State.withReadData_draws (s : State) (x : Option Word) : (s.withReadData x).draws = s.draws := rfl
@[simp] theorem State.withReadData_params (s : State) (x : Option Word) : (s.withReadData x).params = s.params := rfl

@[simp] theorem State.withHostQueue_cmd (s : State) (x : List HostOp) : (s.withHostQueue x).cmd = s.cmd := rfl
@[simp] theorem State.withHostQueue_err (s : State) (x : List HostOp) : (s.withHostQueue x).err = s.err := rfl
@[simp] theorem State.withHostQueue_fault (s : State) (x : List HostOp) : (s.withHostQueue x).fault = s.fault := rfl
@[simp] theorem State.withHostQueue_result (s : State) (x : List HostOp) : (s.withHostQueue x).result = s.result := rfl
@[simp] theorem State.withHostQueue_inst (s : State) (x : List HostOp) : (s.withHostQueue x).inst = s.inst := rfl
@[simp] theorem State.withHostQueue_mem (s : State) (x : List HostOp) : (s.withHostQueue x).mem = s.mem := rfl
@[simp] theorem State.withHostQueue_readData (s : State) (x : List HostOp) : (s.withHostQueue x).readData = s.readData := rfl
@[simp] theorem State.withHostQueue_hostQueue (s : State) (x : List HostOp) : (s.withHostQueue x).hostQueue = x := rfl
@[simp] theorem State.withHostQueue_config (s : State) (x : List HostOp) : (s.withHostQueue x).config = s.config := rfl
@[simp] theorem State.withHostQueue_draws (s : State) (x : List HostOp) : (s.withHostQueue x).draws = s.draws := rfl
@[simp] theorem State.withHostQueue_params (s : State) (x : List HostOp) : (s.withHostQueue x).params = s.params := rfl

@[simp] theorem State.withDraws_cmd (s : State) (x : Nat) : (s.withDraws x).cmd = s.cmd := rfl
@[simp] theorem State.withDraws_err (s : State) (x : Nat) : (s.withDraws x).err = s.err := rfl
@[simp] theorem State.withDraws_fault (s : State) (x : Nat) : (s.withDraws x).fault = s.fault := rfl
@[simp] theorem State.withDraws_result (s : State) (x : Nat) : (s.withDraws x).result = s.result := rfl
@[simp] theorem State.withDraws_inst (s : State) (x : Nat) : (s.withDraws x).inst = s.inst := rfl
@[simp] theorem State.withDraws_mem (s : State) (x : Nat) : (s.withDraws x).mem = s.mem := rfl
@[simp] theorem State.withDraws_readData (s : State) (x : Nat) : (s.withDraws x).readData = s.readData := rfl
@[simp] theorem State.withDraws_hostQueue (s : State) (x : Nat) : (s.withDraws x).hostQueue = s.hostQueue := rfl
@[simp] theorem State.withDraws_config (s : State) (x : Nat) : (s.withDraws x).config = s.config := rfl
@[simp] theorem State.withDraws_draws (s : State) (x : Nat) : (s.withDraws x).draws = x := rfl
@[simp] theorem State.withDraws_params (s : State) (x : Nat) : (s.withDraws x).params = s.params := rfl

@[simp] theorem State.withConfig_cmd (s : State) (x : Config) : (s.withConfig x).cmd = s.cmd := rfl
@[simp] theorem State.withConfig_err (s : State) (x : Config) : (s.withConfig x).err = s.err := rfl
@[simp] theorem State.withConfig_fault (s : State) (x : Config) : (s.withConfig x).fault = s.fault := rfl
@[simp] theorem State.withConfig_result (s : State) (x : Config) : (s.withConfig x).result = s.result := rfl
@[simp] theorem State.withConfig_inst (s : State) (x : Config) : (s.withConfig x).inst = s.inst := rfl
@[simp] theorem State.withConfig_mem (s : State) (x : Config) : (s.withConfig x).mem = s.mem := rfl
@[simp] theorem State.withConfig_readData (s : State) (x : Config) : (s.withConfig x).readData = s.readData := rfl
@[simp] theorem State.withConfig_hostQueue (s : State) (x : Config) : (s.withConfig x).hostQueue = s.hostQueue := rfl
@[simp] theorem State.withConfig_config (s : State) (x : Config) : (s.withConfig x).config = x := rfl
@[simp] theorem State.withConfig_draws (s : State) (x : Config) : (s.withConfig x).draws = s.draws := rfl

@[simp] theorem raiseErr_err (e : FaultCode) (s : State) : (raiseErr e s).err = e.err := rfl
@[simp] theorem raiseErr_fault (e : FaultCode) (s : State) : (raiseErr e s).fault = true := rfl
@[simp] theorem raiseErr_cmd (e : FaultCode) (s : State) : (raiseErr e s).cmd = s.cmd := rfl
@[simp] theorem raiseErr_result (e : FaultCode) (s : State) : (raiseErr e s).result = s.result := rfl
@[simp] theorem raiseErr_inst (e : FaultCode) (s : State) : (raiseErr e s).inst = s.inst := rfl
@[simp] theorem raiseErr_mem (e : FaultCode) (s : State) : (raiseErr e s).mem = s.mem := rfl
@[simp] theorem raiseErr_readData (e : FaultCode) (s : State) : (raiseErr e s).readData = s.readData := rfl
@[simp] theorem raiseErr_hostQueue (e : FaultCode) (s : State) : (raiseErr e s).hostQueue = s.hostQueue := rfl
@[simp] theorem raiseErr_config (e : FaultCode) (s : State) : (raiseErr e s).config = s.config := rfl
@[simp] theorem raiseErr_draws (e : FaultCode) (s : State) : (raiseErr e s).draws = s.draws := rfl

@[simp] theorem buildInstance_cmd (m : FrameMode) (s : State) : (buildInstance m s).cmd = s.cmd := rfl
@[simp] theorem buildInstance_err (m : FrameMode) (s : State) : (buildInstance m s).err = .ok := rfl
@[simp] theorem buildInstance_fault (m : FrameMode) (s : State) : (buildInstance m s).fault = s.fault := rfl
@[simp] theorem buildInstance_result (m : FrameMode) (s : State) : (buildInstance m s).result = s.result := rfl
@[simp] theorem buildInstance_inst (m : FrameMode) (s : State) : (buildInstance m s).inst = some ⟨m, sessionStart s.params⟩ := rfl
@[simp] theorem buildInstance_mem (m : FrameMode) (s : State) : (buildInstance m s).mem = s.mem := rfl
@[simp] theorem buildInstance_readData (m : FrameMode) (s : State) : (buildInstance m s).readData = s.readData := rfl
@[simp] theorem buildInstance_hostQueue (m : FrameMode) (s : State) : (buildInstance m s).hostQueue = s.hostQueue := rfl
@[simp] theorem buildInstance_config (m : FrameMode) (s : State) : (buildInstance m s).config = s.config := rfl
@[simp] theorem buildInstance_draws (m : FrameMode) (s : State) : (buildInstance m s).draws = s.draws := rfl

@[simp] theorem finishEncode_cmd (i : Inst) (e : EncState) (bytes : List Byte) (s : State) :
    (finishEncode i e bytes s).cmd = s.cmd := rfl
@[simp] theorem finishEncode_err (i : Inst) (e : EncState) (bytes : List Byte) (s : State) :
    (finishEncode i e bytes s).err = .ok := rfl
@[simp] theorem finishEncode_fault (i : Inst) (e : EncState) (bytes : List Byte) (s : State) :
    (finishEncode i e bytes s).fault = s.fault := rfl
@[simp] theorem finishEncode_result (i : Inst) (e : EncState) (bytes : List Byte) (s : State) :
    (finishEncode i e bytes s).result = BitVec.ofNat 32 (bytesPerFrame i.mode) := rfl
@[simp] theorem finishEncode_inst (i : Inst) (e : EncState) (bytes : List Byte) (s : State) :
    (finishEncode i e bytes s).inst = some ⟨i.mode, ⟨e, i.cs.dec⟩⟩ := rfl
@[simp] theorem finishEncode_mem (i : Inst) (e : EncState) (bytes : List Byte) (s : State) :
    (finishEncode i e bytes s).mem = Memory.writeBytes s.mem bitsOutBase bytes := rfl
@[simp] theorem finishEncode_readData (i : Inst) (e : EncState) (bytes : List Byte) (s : State) :
    (finishEncode i e bytes s).readData = s.readData := rfl
@[simp] theorem finishEncode_hostQueue (i : Inst) (e : EncState) (bytes : List Byte) (s : State) :
    (finishEncode i e bytes s).hostQueue = s.hostQueue := rfl
@[simp] theorem finishEncode_config (i : Inst) (e : EncState) (bytes : List Byte) (s : State) :
    (finishEncode i e bytes s).config = s.config := rfl
@[simp] theorem finishEncode_draws (i : Inst) (e : EncState) (bytes : List Byte) (s : State) :
    (finishEncode i e bytes s).draws = s.draws := rfl
@[simp] theorem finishEncode_params (i : Inst) (e : EncState) (bytes : List Byte) (s : State) :
    (finishEncode i e bytes s).params = s.params := rfl

@[simp] theorem finishDecode_cmd (i : Inst) (samples : List Sample) (d : DecState) (s : State) :
    (finishDecode i samples d s).cmd = s.cmd := rfl
@[simp] theorem finishDecode_err (i : Inst) (samples : List Sample) (d : DecState) (s : State) :
    (finishDecode i samples d s).err = .ok := rfl
@[simp] theorem finishDecode_fault (i : Inst) (samples : List Sample) (d : DecState) (s : State) :
    (finishDecode i samples d s).fault = s.fault := rfl
@[simp] theorem finishDecode_result (i : Inst) (samples : List Sample) (d : DecState) (s : State) :
    (finishDecode i samples d s).result = BitVec.ofNat 32 (samplesPerFrame i.mode) := rfl
@[simp] theorem finishDecode_inst (i : Inst) (samples : List Sample) (d : DecState) (s : State) :
    (finishDecode i samples d s).inst = some ⟨i.mode, ⟨i.cs.enc, d⟩⟩ := rfl
@[simp] theorem finishDecode_mem (i : Inst) (samples : List Sample) (d : DecState) (s : State) :
    (finishDecode i samples d s).mem = Memory.writeSamples s.mem pcmOutBase samples := rfl
@[simp] theorem finishDecode_readData (i : Inst) (samples : List Sample) (d : DecState) (s : State) :
    (finishDecode i samples d s).readData = s.readData := rfl
@[simp] theorem finishDecode_hostQueue (i : Inst) (samples : List Sample) (d : DecState) (s : State) :
    (finishDecode i samples d s).hostQueue = s.hostQueue := rfl
@[simp] theorem finishDecode_config (i : Inst) (samples : List Sample) (d : DecState) (s : State) :
    (finishDecode i samples d s).config = s.config := rfl
@[simp] theorem finishDecode_draws (i : Inst) (samples : List Sample) (d : DecState) (s : State) :
    (finishDecode i samples d s).draws = s.draws := rfl
@[simp] theorem finishDecode_params (i : Inst) (samples : List Sample) (d : DecState) (s : State) :
    (finishDecode i samples d s).params = s.params := rfl

@[simp] theorem hardwareReset_cmd (s : State) : (hardwareReset s).cmd = 0 := rfl
@[simp] theorem hardwareReset_err (s : State) : (hardwareReset s).err = .ok := rfl
@[simp] theorem hardwareReset_fault (s : State) : (hardwareReset s).fault = false := rfl
@[simp] theorem hardwareReset_result (s : State) : (hardwareReset s).result = 0 := rfl
@[simp] theorem hardwareReset_inst (s : State) : (hardwareReset s).inst = none := rfl
@[simp] theorem hardwareReset_mem (s : State) : (hardwareReset s).mem = [] := rfl
@[simp] theorem hardwareReset_readData (s : State) : (hardwareReset s).readData = s.readData := rfl
@[simp] theorem hardwareReset_hostQueue (s : State) : (hardwareReset s).hostQueue = s.hostQueue := rfl
@[simp] theorem hardwareReset_config (s : State) : (hardwareReset s).config = s.config := rfl
@[simp] theorem hardwareReset_draws (s : State) : (hardwareReset s).draws = s.draws := rfl

end Sys2Proof.Machine
end

