-- ==== Sys2Proof/Laws/Memory.lean ====
section
/-! SUPPORT. The laws of the byte memory: read after write, everything else unchanged, the canonical form kept, and what the
range operations read and write. -/

namespace Sys2Proof.Machine

/-! ## One byte -/

theorem Memory.get_set (m : Memory) (x y : Nat) (v : Byte) :
    Memory.get (Memory.set m x v) y = if y = x then some v else Memory.get m y := by
  induction m with
  | nil => simp [Memory.set, Memory.get]
  | cons c rest ih =>
    obtain ⟨a, b⟩ := c
    simp only [Memory.set]
    split
    · simp [Memory.get]
    · split
      · rename_i h; subst h
        by_cases hy : y = x <;> simp [Memory.get, hy]
      · rename_i h1 h2
        simp only [Memory.get, ih]
        by_cases hy : y = x
        · subst hy; simp [h2]
        · simp [hy]

@[simp] theorem Memory.get_set_same (m : Memory) (x : Nat) (v : Byte) :
    Memory.get (Memory.set m x v) x = some v := by simp [Memory.get_set]

theorem Memory.get_set_other (m : Memory) {x y : Nat} (v : Byte) (h : y ≠ x) :
    Memory.get (Memory.set m x v) y = Memory.get m y := by simp [Memory.get_set, h]

@[simp] theorem Memory.get_nil (x : Nat) : Memory.get [] x = none := rfl

theorem Memory.above_set (m : Memory) {x y : Nat} (v : Byte) (hm : Memory.above y m = true) (h : y < x) :
    Memory.above y (Memory.set m x v) = true := by
  induction m with
  | nil => simp [Memory.set, Memory.above, h]
  | cons c rest ih =>
    obtain ⟨a, b⟩ := c
    simp only [Memory.above, List.all_cons, Bool.and_eq_true, decide_eq_true_eq] at hm
    simp only [Memory.set]
    split
    · simp only [Memory.above, List.all_cons, Bool.and_eq_true, decide_eq_true_eq]
      exact ⟨h, hm.1, hm.2⟩
    · split
      · simp only [Memory.above, List.all_cons, Bool.and_eq_true, decide_eq_true_eq]
        exact ⟨h, hm.2⟩
      · simp only [Memory.above, List.all_cons, Bool.and_eq_true, decide_eq_true_eq]
        exact ⟨hm.1, ih hm.2⟩

theorem Memory.above_trans (m : Memory) {x y : Nat} (hm : Memory.above y m = true) (h : x < y) :
    Memory.above x m = true := by
  simp only [Memory.above, List.all_eq_true, decide_eq_true_eq] at hm ⊢
  intro c hc
  exact lt_trans h (hm c hc)

/-- A store keeps the canonical form. -/
theorem Memory.wf_set (m : Memory) (x : Nat) (v : Byte) (hm : Memory.wf m = true) :
    Memory.wf (Memory.set m x v) = true := by
  induction m with
  | nil => simp [Memory.set, Memory.wf, Memory.above]
  | cons c rest ih =>
    obtain ⟨a, b⟩ := c
    simp only [Memory.wf, Bool.and_eq_true] at hm
    simp only [Memory.set]
    split
    · rename_i h
      simp only [Memory.wf, Bool.and_eq_true]
      refine ⟨?_, hm.1, hm.2⟩
      simp only [Memory.above, List.all_cons, Bool.and_eq_true, decide_eq_true_eq]
      exact ⟨h, Memory.above_trans rest hm.1 h⟩
    · split
      · rename_i h; subst h
        simp only [Memory.wf, Bool.and_eq_true]
        exact hm
      · simp only [Memory.wf, Bool.and_eq_true]
        exact ⟨Memory.above_set rest v hm.1 (by omega), ih hm.2⟩

/-! ## One PCM element -/

theorem Memory.get_setSample (m : Memory) (a y : Nat) (v : Sample) :
    Memory.get (Memory.setSample m a v) y =
      if y = a then some (v.extractLsb' 0 8) else if y = a + 1 then some (v.extractLsb' 8 8) else Memory.get m y := by
  unfold Memory.setSample
  rw [Memory.get_set, Memory.get_set]
  by_cases h1 : y = a + 1
  · subst h1; simp
  · simp [h1]

theorem Memory.wf_setSample (m : Memory) (a : Nat) (v : Sample) (hm : Memory.wf m = true) :
    Memory.wf (Memory.setSample m a v) = true :=
  Memory.wf_set _ _ _ (Memory.wf_set _ _ _ hm)

theorem Memory.joinSample (v : Sample) : v.extractLsb' 8 8 ++ v.extractLsb' 0 8 = v := by
  ext i hi
  simp only [BitVec.getElem_append, BitVec.getElem_extractLsb']
  split
  · simp [BitVec.getLsbD_eq_getElem, hi]
  · rename_i h
    rw [show 8 + (i - 8) = i by omega]
    simp [BitVec.getLsbD_eq_getElem, hi]

@[simp] theorem Memory.getSample_setSample_same (m : Memory) (a : Nat) (v : Sample) :
    Memory.getSample (Memory.setSample m a v) a = some v := by
  simp only [Memory.getSample, Memory.get_setSample]
  simp [Memory.joinSample]

/-- A PCM element not touched by a store reads as before. -/
theorem Memory.getSample_congr {m m' : Memory} {a : Nat} (h0 : Memory.get m' a = Memory.get m a)
    (h1 : Memory.get m' (a + 1) = Memory.get m (a + 1)) : Memory.getSample m' a = Memory.getSample m a := by
  simp [Memory.getSample, h0, h1]

theorem Memory.getSample_setSample_other (m : Memory) {a b : Nat} (v : Sample) (h : b + 1 < a ∨ a + 1 < b) :
    Memory.getSample (Memory.setSample m a v) b = Memory.getSample m b := by
  apply Memory.getSample_congr
  · rw [Memory.get_setSample, if_neg (by omega), if_neg (by omega)]
  · rw [Memory.get_setSample, if_neg (by omega), if_neg (by omega)]

/-- A PCM element is written exactly when both its cells are. -/
theorem Memory.getSample_isSome (m : Memory) (a : Nat) :
    (Memory.getSample m a).isSome = ((Memory.get m a).isSome && (Memory.get m (a + 1)).isSome) := by
  unfold Memory.getSample
  cases Memory.get m a <;> cases Memory.get m (a + 1) <;> rfl

/-! ## Ranges -/

/-- Reading a range of bytes succeeds exactly when every byte is written, and gives them in order. -/
theorem Memory.readBytes_eq_some (m : Memory) (a n : Nat) (xs : List Byte) :
    Memory.readBytes m a n = some xs ↔ xs.length = n ∧ ∀ k < n, Memory.get m (a + k) = xs[k]? := by
  induction n generalizing a xs with
  | zero =>
    simp only [Memory.readBytes, Option.some.injEq]
    constructor
    · rintro rfl; simp
    · rintro ⟨h, -⟩; exact (List.length_eq_zero_iff.mp h).symm
  | succ n ih =>
    simp only [Memory.readBytes]
    constructor
    · intro h
      split at h
      · rename_i x ys hx hys
        obtain rfl := Option.some.inj h
        obtain ⟨hl, hk⟩ := (ih (a + 1) ys).mp hys
        refine ⟨by simp [hl], fun k hkn => ?_⟩
        cases k with
        | zero => simpa using hx
        | succ k => simpa [Nat.add_assoc, Nat.add_comm 1 k] using hk k (by omega)
      · cases h
    · rintro ⟨hl, hk⟩
      cases xs with
      | nil => simp at hl
      | cons x ys =>
        have h0 : Memory.get m a = some x := by simpa using hk 0 (by omega)
        have hys : Memory.readBytes m (a + 1) n = some ys := by
          refine (ih (a + 1) ys).mpr ⟨by simpa using hl, fun k hkn => ?_⟩
          simpa [Nat.add_assoc, Nat.add_comm 1 k] using hk (k + 1) (by omega)
        simp [h0, hys]

/-- Reading a range of PCM elements succeeds exactly when every element is written, and gives them in order. -/
theorem Memory.readSamples_eq_some (m : Memory) (a n : Nat) (xs : List Sample) :
    Memory.readSamples m a n = some xs ↔ xs.length = n ∧ ∀ k < n, Memory.getSample m (a + 2 * k) = xs[k]? := by
  induction n generalizing a xs with
  | zero =>
    simp only [Memory.readSamples, Option.some.injEq]
    constructor
    · rintro rfl; simp
    · rintro ⟨h, -⟩; exact (List.length_eq_zero_iff.mp h).symm
  | succ n ih =>
    simp only [Memory.readSamples]
    constructor
    · intro h
      split at h
      · rename_i x ys hx hys
        obtain rfl := Option.some.inj h
        obtain ⟨hl, hk⟩ := (ih (a + 2) ys).mp hys
        refine ⟨by simp [hl], fun k hkn => ?_⟩
        cases k with
        | zero => simpa using hx
        | succ k =>
          have := hk k (by omega)
          rw [show a + 2 * (k + 1) = a + 2 + 2 * k by omega]
          simpa using this
      · cases h
    · rintro ⟨hl, hk⟩
      cases xs with
      | nil => simp at hl
      | cons x ys =>
        have h0 : Memory.getSample m a = some x := by simpa using hk 0 (by omega)
        have hys : Memory.readSamples m (a + 2) n = some ys := by
          refine (ih (a + 2) ys).mpr ⟨by simpa using hl, fun k hkn => ?_⟩
          have := hk (k + 1) (by omega)
          rw [show a + 2 * (k + 1) = a + 2 + 2 * k by omega] at this
          simpa using this
        simp [h0, hys]

/-- Reading a range of bytes fails exactly when one of them was never written. -/
theorem Memory.readBytes_eq_none (m : Memory) (a n : Nat) :
    Memory.readBytes m a n = none ↔ ∃ k < n, Memory.get m (a + k) = none := by
  induction n generalizing a with
  | zero => simp [Memory.readBytes]
  | succ n ih =>
    simp only [Memory.readBytes]
    cases hx : Memory.get m a with
    | none => simpa using ⟨0, by omega, by simpa using hx⟩
    | some x =>
      cases hr : Memory.readBytes m (a + 1) n with
      | none =>
        obtain ⟨k, hk, hn⟩ := (ih (a + 1)).mp hr
        simp only [true_iff]
        exact ⟨k + 1, by omega, by rw [show a + (k + 1) = a + 1 + k by omega]; exact hn⟩
      | some ys =>
        simp only [reduceCtorEq, false_iff]
        rintro ⟨k, hk, hn⟩
        cases k with
        | zero => rw [Nat.add_zero, hx] at hn; cases hn
        | succ k =>
          have : Memory.readBytes m (a + 1) n = none :=
            (ih (a + 1)).mpr ⟨k, by omega, by rw [show a + 1 + k = a + (k + 1) by omega]; exact hn⟩
          rw [hr] at this; cases this

/-- Reading a range of PCM elements fails exactly when one of them was never written. -/
theorem Memory.readSamples_eq_none (m : Memory) (a n : Nat) :
    Memory.readSamples m a n = none ↔ ∃ k < n, Memory.getSample m (a + 2 * k) = none := by
  induction n generalizing a with
  | zero => simp [Memory.readSamples]
  | succ n ih =>
    simp only [Memory.readSamples]
    cases hx : Memory.getSample m a with
    | none => simpa using ⟨0, by omega, by simpa using hx⟩
    | some x =>
      cases hr : Memory.readSamples m (a + 2) n with
      | none =>
        obtain ⟨k, hk, hn⟩ := (ih (a + 2)).mp hr
        simp only [true_iff]
        exact ⟨k + 1, by omega, by rw [show a + 2 * (k + 1) = a + 2 + 2 * k by omega]; exact hn⟩
      | some ys =>
        simp only [reduceCtorEq, false_iff]
        rintro ⟨k, hk, hn⟩
        cases k with
        | zero => rw [Nat.mul_zero, Nat.add_zero, hx] at hn; cases hn
        | succ k =>
          have : Memory.readSamples m (a + 2) n = none :=
            (ih (a + 2)).mpr ⟨k, by omega, by rw [show a + 2 + 2 * k = a + 2 * (k + 1) by omega]; exact hn⟩
          rw [hr] at this; cases this

/-- A range of bytes stored: the bytes in the range, everything else as before. -/
theorem Memory.get_writeBytes (m : Memory) (a y : Nat) (xs : List Byte) :
    Memory.get (Memory.writeBytes m a xs) y =
      if a ≤ y ∧ y < a + xs.length then xs[y - a]? else Memory.get m y := by
  induction xs generalizing m a with
  | nil => simp [Memory.writeBytes]
  | cons x xs ih =>
    simp only [Memory.writeBytes, ih, List.length_cons]
    by_cases h : a + 1 ≤ y ∧ y < a + 1 + xs.length
    · rw [if_pos h, if_pos (by omega)]
      obtain ⟨k, rfl⟩ : ∃ k, y = a + 1 + k := ⟨y - (a + 1), by omega⟩
      rw [show a + 1 + k - (a + 1) = k by omega, show a + 1 + k - a = k + 1 by omega]
      simp
    · rw [if_neg h, Memory.get_set]
      by_cases hy : y = a
      · subst hy; simp
      · rw [if_neg hy, if_neg (by omega)]

theorem Memory.get_writeBytes_outside (m : Memory) {a y : Nat} (xs : List Byte) (h : ¬(a ≤ y ∧ y < a + xs.length)) :
    Memory.get (Memory.writeBytes m a xs) y = Memory.get m y := by
  rw [Memory.get_writeBytes, if_neg h]

theorem Memory.wf_writeBytes (m : Memory) (a : Nat) (xs : List Byte) (hm : Memory.wf m = true) :
    Memory.wf (Memory.writeBytes m a xs) = true := by
  induction xs generalizing m a with
  | nil => exact hm
  | cons x xs ih => exact ih _ _ (Memory.wf_set _ _ _ hm)

/-- A range of PCM elements stored leaves every byte outside the range as before. -/
theorem Memory.get_writeSamples_outside (m : Memory) {a y : Nat} (xs : List Sample)
    (h : ¬(a ≤ y ∧ y < a + 2 * xs.length)) : Memory.get (Memory.writeSamples m a xs) y = Memory.get m y := by
  induction xs generalizing m a with
  | nil => rfl
  | cons x xs ih =>
    simp only [List.length_cons] at h
    rw [Memory.writeSamples, ih _ (by omega), Memory.get_setSample, if_neg (by omega), if_neg (by omega)]

/-- A range of PCM elements stored reads back element by element. -/
theorem Memory.getSample_writeSamples (m : Memory) (a k : Nat) (xs : List Sample) (h : k < xs.length) :
    Memory.getSample (Memory.writeSamples m a xs) (a + 2 * k) = xs[k]? := by
  induction xs generalizing m a k with
  | nil => simp at h
  | cons x xs ih =>
    rw [Memory.writeSamples]
    cases k with
    | zero =>
      rw [Memory.getSample_congr (m := Memory.setSample m a x)
        (Memory.get_writeSamples_outside _ _ (by omega)) (Memory.get_writeSamples_outside _ _ (by omega))]
      simp
    | succ k =>
      rw [show a + 2 * (k + 1) = a + 2 + 2 * k by omega, ih _ _ _ (by simpa using h)]
      simp

theorem Memory.getSample_writeSamples_outside (m : Memory) {a y : Nat} (xs : List Sample)
    (h : y + 1 < a ∨ a + 2 * xs.length ≤ y) :
    Memory.getSample (Memory.writeSamples m a xs) y = Memory.getSample m y :=
  Memory.getSample_congr (Memory.get_writeSamples_outside _ _ (by omega))
    (Memory.get_writeSamples_outside _ _ (by omega))

/-- Inside a range of PCM elements stored, a byte does not depend on the memory before. -/
theorem Memory.get_writeSamples_inside (m m' : Memory) {a y : Nat} (xs : List Sample)
    (h : a ≤ y ∧ y < a + 2 * xs.length) :
    Memory.get (Memory.writeSamples m a xs) y = Memory.get (Memory.writeSamples m' a xs) y := by
  induction xs generalizing m m' a with
  | nil => simp at h; omega
  | cons x xs ih =>
    simp only [List.length_cons] at h
    simp only [Memory.writeSamples]
    by_cases hb : a + 2 ≤ y
    · exact ih _ _ (by omega)
    · rw [Memory.get_writeSamples_outside _ _ (by omega), Memory.get_writeSamples_outside _ _ (by omega),
        Memory.get_setSample, Memory.get_setSample]
      by_cases h3 : y = a
      · simp [h3]
      · simp [show y = a + 1 by omega]

theorem Memory.wf_writeSamples (m : Memory) (a : Nat) (xs : List Sample) (hm : Memory.wf m = true) :
    Memory.wf (Memory.writeSamples m a xs) = true := by
  induction xs generalizing m a with
  | nil => exact hm
  | cons x xs ih => exact ih _ _ (Memory.wf_setSample _ _ _ hm)

/-- No store clears a written mark (R55). -/
theorem Memory.isSome_set (m : Memory) (x y : Nat) (v : Byte) (h : (Memory.get m y).isSome = true) :
    (Memory.get (Memory.set m x v) y).isSome = true := by
  rw [Memory.get_set]; split <;> simp [h]

theorem Memory.isSome_setSample (m : Memory) (x y : Nat) (v : Sample) (h : (Memory.get m y).isSome = true) :
    (Memory.get (Memory.setSample m x v) y).isSome = true :=
  Memory.isSome_set _ _ _ _ (Memory.isSome_set _ _ _ _ h)

theorem Memory.isSome_writeBytes (m : Memory) (a y : Nat) (xs : List Byte) (h : (Memory.get m y).isSome = true) :
    (Memory.get (Memory.writeBytes m a xs) y).isSome = true := by
  induction xs generalizing m a with
  | nil => exact h
  | cons x xs ih => exact ih _ _ (Memory.isSome_set _ _ _ _ h)

theorem Memory.isSome_writeSamples (m : Memory) (a y : Nat) (xs : List Sample) (h : (Memory.get m y).isSome = true) :
    (Memory.get (Memory.writeSamples m a xs) y).isSome = true := by
  induction xs generalizing m a with
  | nil => exact h
  | cons x xs ih => exact ih _ _ (Memory.isSome_setSample _ _ _ _ h)

end Sys2Proof.Machine
end

