-- ==== Sys2Proof/Laws/BitPacker.lean ====
section
/-! SUPPORT. The laws of the bit packer: what PACK writes and UNPACK reads, bit by bit, and what the frame routines do with a
layout. -/

namespace Sys2Proof.Machine

/-! ## One bit -/

theorem getLsbD_one_shift : ∀ n < 8, ∀ k < 8, ((1 : Byte) <<< n).getLsbD k = decide (k = n) := by decide

theorem getLsbD_putBit (v : Byte) (n k : Nat) (b : Bool) (hn : n < 8) :
    (putBit v n b).getLsbD k = if k = n then b else v.getLsbD k := by
  unfold putBit
  by_cases hk : k < 8
  · have h1 := getLsbD_one_shift n hn k hk
    cases b
    · rw [BitVec.getLsbD_or, BitVec.getLsbD_and, BitVec.getLsbD_not, h1]
      by_cases h : k = n <;> simp [h, hn, hk]
    · rw [if_pos rfl, BitVec.getLsbD_or, BitVec.getLsbD_and, BitVec.getLsbD_not, h1]
      by_cases h : k = n <;> simp [h, hn, hk]
  · have h1 : ∀ w : Byte, w.getLsbD k = false := fun w => BitVec.getLsbD_of_ge w k (by omega)
    rw [h1, h1, if_neg (by omega)]

@[simp] theorem length_setBit (buf : List Byte) (p : Nat) (b : Bool) : (setBit buf p b).length = buf.length := by
  simp [setBit]

/-- `setBit` writes one position and leaves every other as it was. -/
theorem getBit_setBit (buf : List Byte) (p q : Nat) (b : Bool) (hp : p < 8 * buf.length) :
    getBit (setBit buf p b) q = if q = p then b else getBit buf q := by
  unfold getBit setBit
  rw [List.getElem?_modify]
  by_cases hq : p / 8 = q / 8
  · have hlt : q / 8 < buf.length := by omega
    simp only [hq, if_true, List.getElem?_eq_getElem hlt, Option.map_eq_map, Option.map_some, getLsbD_putBit _ _ _ _ (show 7 - p % 8 < 8 by omega)]
    by_cases h : q = p
    · subst h; simp
    · rw [if_neg h, if_neg (by omega)]
  · rw [if_neg (by rintro rfl; exact hq rfl)]
    simp only [if_neg hq]
    cases buf[q / 8]? <;> rfl

/-- Two buffers of one length whose bits agree are equal. -/
theorem buffer_ext {a b : List Byte} (hl : a.length = b.length) (h : ∀ q, getBit a q = getBit b q) : a = b := by
  apply List.ext_getElem hl
  intro n h1 h2
  apply BitVec.eq_of_getLsbD_eq
  intro k hk
  have := h (8 * n + (7 - k))
  unfold getBit at this
  rw [show (8 * n + (7 - k)) / 8 = n by omega, List.getElem?_eq_getElem h1, List.getElem?_eq_getElem h2] at this
  rw [show 7 - (8 * n + (7 - k)) % 8 = k by omega] at this
  exact this

theorem getBit_outside (buf : List Byte) (q : Nat) (h : 8 * buf.length ≤ q) : getBit buf q = false := by
  unfold getBit
  rw [List.getElem?_eq_none (by omega)]

theorem getBit_zeros (n q : Nat) : getBit (List.replicate n 0) q = false := by
  unfold getBit
  by_cases h : q / 8 < n <;> simp [h]

/-! ## PACK -/

/-- The first `n` bits of the loop of PACK. -/
theorem packLoop (buf : List Byte) (off w v n : Nat) (hn : n ≤ w) (h : off + w ≤ 8 * buf.length) :
    let r := (List.range n).foldl (fun b j => setBit b (off + j) (v.testBit (w - 1 - j))) buf
    r.length = buf.length ∧
      ∀ q, getBit r q = if off ≤ q ∧ q < off + n then v.testBit (w - 1 - (q - off)) else getBit buf q := by
  induction n with
  | zero => simp
  | succ n ih =>
    obtain ⟨hl, hb⟩ := ih (by omega)
    simp only [List.range_succ, List.foldl_append, List.foldl_cons, List.foldl_nil]
    refine ⟨by simpa using hl, fun q => ?_⟩
    rw [getBit_setBit _ _ _ _ (by rw [hl]; omega), hb]
    by_cases hq : q = off + n
    · subst hq; simp
    · rw [if_neg hq]
      by_cases h2 : off ≤ q ∧ q < off + n
      · rw [if_pos h2, if_pos (by omega)]
      · rw [if_neg h2, if_neg (by omega)]

@[simp] theorem length_packBits (buf : List Byte) (off w v : Nat) : (packBits buf off w v).length = buf.length := by
  unfold packBits
  induction (List.range w) generalizing buf with
  | nil => rfl
  | cons j js ih => simp [List.foldl_cons, ih]

/-- The bits after `packBits`: its own positions hold the value, most significant bit first, every other is as it was. -/
theorem getBit_packBits (buf : List Byte) (off w v : Nat) (h : off + w ≤ 8 * buf.length) (q : Nat) :
    getBit (packBits buf off w v) q =
      if off ≤ q ∧ q < off + w then v.testBit (w - 1 - (q - off)) else getBit buf q :=
  (packLoop buf off w v w le_rfl h).2 q

/-- What PACK can do: succeed on a value that fits, fault COLLAB on one that does not. -/
theorem packField_cases (buf : List Byte) (off w v : Nat) :
    (v < 2 ^ w ∧ packField buf off w v = .ok (packBits buf off w v)) ∨
      (2 ^ w ≤ v ∧ packField buf off w v = .error .collab) := by
  unfold packField
  by_cases h : v < 2 ^ w
  · exact .inl ⟨h, if_pos h⟩
  · exact .inr ⟨by omega, if_neg h⟩

/-! ## UNPACK -/

/-- The first `n` bits of the loop of UNPACK. -/
theorem unpackLoop (buf : List Byte) (off n : Nat) :
    let r := (List.range n).foldl (fun v j => 2 * v + (getBit buf (off + j)).toNat) 0
    r < 2 ^ n ∧ ∀ j < n, r.testBit (n - 1 - j) = getBit buf (off + j) := by
  induction n with
  | zero => simp
  | succ n ih =>
    obtain ⟨hl, hb⟩ := ih
    simp only [List.range_succ, List.foldl_append, List.foldl_cons, List.foldl_nil]
    refine ⟨?_, fun j hj => ?_⟩
    · have : (getBit buf (off + n)).toNat ≤ 1 := Bool.toNat_le _
      rw [pow_succ]; omega
    · by_cases h : j = n
      · subst h
        rw [show j + 1 - 1 - j = 0 by omega, Nat.testBit_zero]
        cases getBit buf (off + j) <;> simp
      · rw [show n + 1 - 1 - j = (n - 1 - j) + 1 by omega, Nat.testBit_succ, ← hb j (by omega)]
        congr 1
        have : (getBit buf (off + n)).toNat ≤ 1 := Bool.toNat_le _
        omega

theorem unpackField_lt (buf : List Byte) (off w : Nat) : unpackField buf off w < 2 ^ w := (unpackLoop buf off w).1

theorem testBit_unpackField (buf : List Byte) (off w j : Nat) (h : j < w) :
    (unpackField buf off w).testBit (w - 1 - j) = getBit buf (off + j) := (unpackLoop buf off w).2 j h

/-- A value is what UNPACK gives when its bits are the buffer's. -/
theorem unpackField_eq (buf : List Byte) (off w v : Nat) (hv : v < 2 ^ w)
    (h : ∀ j < w, getBit buf (off + j) = v.testBit (w - 1 - j)) : unpackField buf off w = v := by
  apply Nat.eq_of_testBit_eq
  intro i
  by_cases hi : i < w
  · have := testBit_unpackField buf off w (w - 1 - i) (by omega)
    rw [show w - 1 - (w - 1 - i) = i by omega] at this
    rw [this, h _ (by omega), show w - 1 - (w - 1 - i) = i by omega]
  · rw [Nat.testBit_lt_two_pow (lt_of_lt_of_le (unpackField_lt buf off w) (Nat.pow_le_pow_right (by omega) (by omega))),
      Nat.testBit_lt_two_pow (lt_of_lt_of_le hv (Nat.pow_le_pow_right (by omega) (by omega)))]

/-- UNPACK depends only on the positions of its field. -/
theorem unpackField_congr {a b : List Byte} {off w : Nat} (h : ∀ q, off ≤ q → q < off + w → getBit a q = getBit b q) :
    unpackField a off w = unpackField b off w := by
  apply unpackField_eq _ _ _ _ (unpackField_lt b off w)
  intro j hj
  rw [h _ (by omega) (by omega), testBit_unpackField b off w j hj]

/-- UNPACK of what PACK wrote. -/
theorem unpackField_packBits (buf : List Byte) (off w v : Nat) (hv : v < 2 ^ w) (h : off + w ≤ 8 * buf.length) :
    unpackField (packBits buf off w v) off w = v := by
  apply unpackField_eq _ _ _ _ hv
  intro j hj
  rw [getBit_packBits _ _ _ _ h, if_pos (by omega), show off + j - off = j by omega]

/-! ## Frames -/

/-- The total width of a layout. -/
def totalWidth (l : List (FieldName × Nat)) : Nat := (l.map Prod.snd).sum

@[simp] theorem totalWidth_nil : totalWidth [] = 0 := rfl

@[simp] theorem totalWidth_cons (f : FieldName × Nat) (l : List (FieldName × Nat)) :
    totalWidth (f :: l) = f.2 + totalWidth l := by simp [totalWidth]

/-- What the loop of PACK_FRAME can do: write every field when all fit, fault COLLAB when one does not. -/
theorem packFields_cases (fields : FieldList) (l : List (FieldName × Nat)) (off : Nat) (buf : List Byte) :
    ((∀ f ∈ l, packedValue fields f.1 < 2 ^ f.2) ∧ ∃ buf', packFields fields l off buf = .ok buf' ∧
        buf'.length = buf.length) ∨
      ((∃ f ∈ l, 2 ^ f.2 ≤ packedValue fields f.1) ∧ packFields fields l off buf = .error .collab) := by
  induction l generalizing off buf with
  | nil => exact .inl ⟨by simp, buf, rfl, rfl⟩
  | cons f rest ih =>
    obtain ⟨name, w⟩ := f
    simp only [packFields]
    rcases packField_cases buf off w (packedValue fields name) with ⟨hv, he⟩ | ⟨hv, he⟩
    · rw [he]
      rcases ih (off + w) (packBits buf off w (packedValue fields name)) with ⟨hf, b', hb, hl⟩ | ⟨⟨f, hf, hw⟩, hb⟩
      · exact .inl ⟨by simpa using ⟨hv, fun a b h => hf (a, b) h⟩, b', hb, by simpa using hl⟩
      · exact .inr ⟨⟨f, List.mem_cons_of_mem _ hf, hw⟩, hb⟩
    · rw [he]
      exact .inr ⟨⟨(name, w), List.mem_cons_self, hv⟩, rfl⟩

/-- The loop of PACK_FRAME leaves the positions before `off` and after the layout as they were. -/
theorem getBit_packFields_outside (fields : FieldList) (l : List (FieldName × Nat)) (off : Nat) (buf buf' : List Byte)
    (hp : packFields fields l off buf = .ok buf') (h : off + totalWidth l ≤ 8 * buf.length) (q : Nat)
    (hq : q < off ∨ off + totalWidth l ≤ q) : getBit buf' q = getBit buf q := by
  induction l generalizing off buf with
  | nil => simp only [packFields, Except.ok.injEq] at hp; rw [hp]
  | cons f rest ih =>
    obtain ⟨name, w⟩ := f
    simp only [totalWidth_cons] at h hq
    simp only [packFields] at hp
    rcases packField_cases buf off w (packedValue fields name) with ⟨hv, he⟩ | ⟨hv, he⟩
    · rw [he] at hp
      rw [ih (off + w) _ hp (by rw [length_packBits]; omega) (by omega), getBit_packBits _ _ _ _ (by omega),
        if_neg (by omega)]
    · rw [he] at hp; cases hp

/-- Unpacking a layout depends only on its positions. -/
theorem unpackFields_congr {a b : List Byte} (l : List (FieldName × Nat)) (off : Nat)
    (h : ∀ q, off ≤ q → q < off + totalWidth l → getBit a q = getBit b q) :
    unpackFields a l off = unpackFields b l off := by
  induction l generalizing off with
  | nil => rfl
  | cons f rest ih =>
    obtain ⟨name, w⟩ := f
    simp only [totalWidth_cons] at h
    simp only [unpackFields]
    rw [unpackField_congr (fun q h1 h2 => h q h1 (by omega)), ih (off + w) (fun q h1 h2 => h q (by omega) (by omega))]

/-- Unpacking what was packed gives each field of the layout its value. -/
theorem unpackFields_packFields (fields : FieldList) (l : List (FieldName × Nat)) (off : Nat) (buf buf' : List Byte)
    (hp : packFields fields l off buf = .ok buf') (h : off + totalWidth l ≤ 8 * buf.length) :
    unpackFields buf' l off = l.map fun f => (f.1, packedValue fields f.1) := by
  induction l generalizing off buf with
  | nil => rfl
  | cons f rest ih =>
    obtain ⟨name, w⟩ := f
    simp only [totalWidth_cons] at h
    simp only [packFields] at hp
    rcases packField_cases buf off w (packedValue fields name) with ⟨hv, he⟩ | ⟨hv, he⟩
    · rw [he] at hp
      have hl : off + w + totalWidth rest ≤ 8 * (packBits buf off w (packedValue fields name)).length := by
        rw [length_packBits]; omega
      simp only [unpackFields, List.map_cons, ih (off + w) _ hp hl]
      congr 2
      rw [← unpackField_packBits buf off w (packedValue fields name) hv (by omega)]
      exact unpackField_congr fun q h1 h2 => getBit_packFields_outside fields rest (off + w) _ _ hp hl q (by omega)
    · rw [he] at hp; cases hp

theorem map_fst_unpackFields (buf : List Byte) (l : List (FieldName × Nat)) (off : Nat) :
    (unpackFields buf l off).map Prod.fst = l.map Prod.fst := by
  induction l generalizing off with
  | nil => rfl
  | cons f rest ih => simp [unpackFields, ih]

/-! ## The layouts -/

theorem totalWidth_append (a b : List (FieldName × Nat)) : totalWidth (a ++ b) = totalWidth a + totalWidth b := by
  simp [totalWidth]

theorem totalWidth_lspLayout (i : Nat) (ws : List Nat) : totalWidth (lspLayout i ws) = ws.sum := by
  induction ws generalizing i with
  | nil => rfl
  | cons w ws ih => simp [lspLayout, ih]

theorem mem_lspLayout {i : Nat} {ws : List Nat} {f : FieldName × Nat} (h : f ∈ lspLayout i ws) :
    ∃ j, i ≤ j ∧ f.1 = .lsp j := by
  induction ws generalizing i with
  | nil => cases h
  | cons w ws ih =>
    rcases List.mem_cons.mp h with rfl | h
    · exact ⟨i, le_rfl, rfl⟩
    · obtain ⟨j, hj, hf⟩ := ih h
      exact ⟨j, by omega, hf⟩

/-- The LSP set has 36 bits in modes A and B and 27 in mode C, whatever the sub-field widths (R10). -/
theorem lspWidths_sum (p : Params) (m : FrameMode) :
    (lspWidths p m).sum = (match m with | .A => 36 | .B => 36 | .C => 27) := by
  cases m
  · exact p.scalar_sum
  · exact p.scalar_sum
  · exact p.vq_sum

/-- A layout fills its frame (R174). -/
theorem totalWidth_layout (p : Params) (m : FrameMode) : totalWidth (layout p m) = 8 * bytesPerFrame m := by
  simp only [layout, totalWidth_append, totalWidth_lspLayout, lspWidths_sum]
  cases m <;> rfl

theorem map_fst_lspLayout_nodup (i : Nat) (ws : List Nat) : ((lspLayout i ws).map Prod.fst).Nodup := by
  induction ws generalizing i with
  | nil => exact List.nodup_nil
  | cons w ws ih =>
    simp only [lspLayout, List.map_cons, List.nodup_cons, ih, and_true]
    intro h
    obtain ⟨f, hf, hn⟩ := List.mem_map.mp h
    obtain ⟨j, hj, hfj⟩ := mem_lspLayout hf
    rw [hn] at hfj
    cases hfj
    omega

/-- No two fields of a layout have one name. -/
theorem layout_nodup (p : Params) (m : FrameMode) : ((layout p m).map Prod.fst).Nodup := by
  simp only [layout, List.map_append]
  have hlsp := map_fst_lspLayout_nodup 0 (lspWidths p m)
  have hmem : ∀ n ∈ (lspLayout 0 (lspWidths p m)).map Prod.fst, ∃ j, n = .lsp j := by
    intro n hn
    obtain ⟨f, hf, rfl⟩ := List.mem_map.mp hn
    obtain ⟨j, -, hj⟩ := mem_lspLayout hf
    exact ⟨j, hj⟩
  refine List.Nodup.append (List.Nodup.append ?_ hlsp ?_) ?_ ?_
  · cases m <;> decide
  · intro n hn hn'
    obtain ⟨j, rfl⟩ := hmem n hn'
    cases m <;> simp [headLayout] at hn
  · cases m <;> decide
  · intro n hn hn'
    rcases List.mem_append.mp hn with hn | hn
    · cases m <;> simp [spareLayout] at hn' <;> subst hn' <;> simp [headLayout] at hn
    · obtain ⟨j, rfl⟩ := hmem n hn
      cases m <;> simp [spareLayout] at hn'

/-- Looking up the fields of a list with distinct names gives the list back. -/
theorem map_fieldValue_self (fields : FieldList) (h : (fields.map Prod.fst).Nodup) :
    fields.map (fun f => (f.1, fieldValue fields f.1)) = fields := by
  have key : ∀ (l pre : FieldList), ((pre ++ l).map Prod.fst).Nodup →
      l.map (fun f => (f.1, fieldValue (pre ++ l) f.1)) = l := by
    intro l
    induction l with
    | nil => intro pre _; rfl
    | cons f rest ih =>
      intro pre hn
      have hrest := ih (pre ++ [f]) (by simpa using hn)
      simp only [List.append_assoc, List.singleton_append] at hrest
      rw [List.map_cons, hrest]
      congr 1
      obtain ⟨name, v⟩ := f
      have hnot : name ∉ pre.map Prod.fst := by
        intro hm
        rw [List.map_append, List.map_cons] at hn
        exact (List.disjoint_of_nodup_append hn) hm List.mem_cons_self
      have : List.lookup name (pre ++ (name, v) :: rest) = some v := by
        clear hrest hn ih
        induction pre with
        | nil => simp
        | cons g pre ihp =>
          obtain ⟨gn, gv⟩ := g
          simp only [List.map_cons, List.mem_cons, not_or] at hnot
          simp only [List.cons_append, List.lookup, beq_eq_false_iff_ne.mpr hnot.1]
          exact ihp hnot.2
      simp [fieldValue, this]
  simpa using key fields [] (by simpa using h)

/-- Packing a value in two parts, the more significant one first, is packing it at once (R113). -/
theorem packBits_append (buf : List Byte) (off w₁ w₂ v₁ v₂ : Nat) (hv : v₂ < 2 ^ w₂)
    (h : off + (w₁ + w₂) ≤ 8 * buf.length) :
    packBits (packBits buf off w₁ v₁) (off + w₁) w₂ v₂ = packBits buf off (w₁ + w₂) (v₁ * 2 ^ w₂ + v₂) := by
  apply buffer_ext (by simp)
  intro q
  rw [getBit_packBits _ _ _ _ (by simpa using by omega), getBit_packBits _ _ _ _ (by omega), getBit_packBits _ _ _ _ h]
  rw [show v₁ * 2 ^ w₂ + v₂ = 2 ^ w₂ * v₁ + v₂ by ring]
  by_cases h2 : off + w₁ ≤ q ∧ q < off + w₁ + w₂
  · rw [if_pos h2, if_pos (by omega), Nat.testBit_two_pow_mul_add _ hv, if_pos (by omega)]
    congr 1; omega
  · rw [if_neg h2]
    by_cases h1 : off ≤ q ∧ q < off + w₁
    · rw [if_pos h1, if_pos (by omega), Nat.testBit_two_pow_mul_add _ hv, if_neg (by omega)]
      congr 1; omega
    · rw [if_neg h1, if_neg (by omega)]

theorem unpackFields_append (buf : List Byte) (a b : List (FieldName × Nat)) (off : Nat) :
    unpackFields buf (a ++ b) off = unpackFields buf a off ++ unpackFields buf b (off + totalWidth a) := by
  induction a generalizing off with
  | nil => simp [unpackFields]
  | cons f rest ih => simp [unpackFields, ih, Nat.add_assoc]

/-- A field of an unpacked frame is what stands at its position: the total width of the fields before it (R175). -/
theorem fieldValue_unpackFields (buf : List Byte) (a b : List (FieldName × Nat)) (name : FieldName) (w off : Nat)
    (h : name ∉ a.map Prod.fst) :
    fieldValue (unpackFields buf (a ++ (name, w) :: b) off) name = unpackField buf (off + totalWidth a) w := by
  induction a generalizing off with
  | nil => simp [fieldValue, unpackFields]
  | cons f rest ih =>
    simp only [List.map_cons, List.mem_cons, not_or] at h
    have := ih (off + f.2) h.2
    simp only [fieldValue] at this
    simp only [fieldValue, List.cons_append, unpackFields, List.lookup, beq_eq_false_iff_ne.mpr h.1, this,
      totalWidth_cons, Nat.add_assoc]

/-- The LSP sub-fields as their widths with their numbers (R111, R112). -/
theorem lspLayout_eq_zipIdx (i : Nat) (ws : List Nat) :
    lspLayout i ws = (ws.zipIdx i).map fun w => (.lsp w.2, w.1) := by
  induction ws generalizing i with
  | nil => rfl
  | cons w ws ih => simp [lspLayout, List.zipIdx_cons, ih]

/-- The LSP sub-fields around number `i + n`, of width `ws[n]`. -/
theorem lspLayout_split (i n w : Nat) (ws : List Nat) (h : ws[n]? = some w) :
    lspLayout i ws = lspLayout i (ws.take n) ++ (.lsp (i + n), w) :: lspLayout (i + n + 1) (ws.drop (n + 1)) := by
  induction n generalizing i ws with
  | zero =>
    cases ws with
    | nil => cases h
    | cons v ws => cases h; rfl
  | succ n ih =>
    cases ws with
    | nil => cases h
    | cons v ws =>
      simp only [List.take_succ_cons, List.drop_succ_cons, lspLayout, List.cons_append,
        ih (i + 1) ws (by simpa using h), show i + 1 + n = i + (n + 1) by omega]

/-- Buffers whose fields over a layout agree hold the same bits in its positions. -/
theorem getBit_eq_of_unpackFields {a b : List Byte} (l : List (FieldName × Nat)) (off : Nat)
    (h : unpackFields a l off = unpackFields b l off) (q : Nat) (hq : off ≤ q ∧ q < off + totalWidth l) :
    getBit a q = getBit b q := by
  induction l generalizing off with
  | nil => simp at hq; omega
  | cons f rest ih =>
    obtain ⟨name, w⟩ := f
    simp only [unpackFields, List.cons.injEq, Prod.mk.injEq, true_and] at h
    simp only [totalWidth_cons] at hq
    by_cases hw : q < off + w
    · have ha := testBit_unpackField a off w (q - off) (by omega)
      have hb := testBit_unpackField b off w (q - off) (by omega)
      rw [show off + (q - off) = q by omega] at ha hb
      rw [← ha, ← hb, h.1]
    · exact ih _ h.2 (by omega)

/-- A field list with the layout's names, packed field by field along the layout, is the list with its spare value 0 (R173). -/
theorem map_layout_packedValue {p : Params} {m : FrameMode} {fields : FieldList}
    (h : fields.map Prod.fst = (layout p m).map Prod.fst) :
    (layout p m).map (fun f => (f.1, packedValue fields f.1)) =
      fields.map fun f => if f.1 = .spare then (f.1, 0) else f := by
  have e : ∀ l : List (FieldName × Nat), l.map (fun f => (f.1, packedValue fields f.1)) =
      (l.map Prod.fst).map fun n => (n, packedValue fields n) := by intro l; simp
  conv_rhs => rw [← map_fieldValue_self fields (h ▸ layout_nodup p m)]
  rw [e, ← h, List.map_map, List.map_map]
  apply List.map_congr_left
  intro f _
  simp only [Function.comp, packedValue]
  split <;> rfl

/-- A field list of R173, whose spare value is 0, is what packing it packs. -/
theorem map_spare_zero {fields : FieldList} (h : ∀ f ∈ fields, f.1 = .spare → f.2 = 0) :
    (fields.map fun f => if f.1 = .spare then (f.1, 0) else f) = fields := by
  conv_rhs => rw [← List.map_id fields]
  apply List.map_congr_left
  rintro ⟨name, v⟩ hf
  split
  · rename_i hs
    rw [← h _ hf hs, id]
  · rfl

/-- Everything PACK_FRAME can do: NBYTES bytes whose fields are the list's, the spare one 0, or COLLAB when a value does not
fit. -/
theorem packFrame_cases (p : Params) (m : FrameMode) (fields : FieldList) :
    ((∀ f ∈ layout p m, packedValue fields f.1 < 2 ^ f.2) ∧ ∃ buf, packFrame p m fields = .ok buf ∧
        buf.length = bytesPerFrame m ∧
        unpackFrame p m buf = (layout p m).map fun f => (f.1, packedValue fields f.1)) ∨
      ((∃ f ∈ layout p m, 2 ^ f.2 ≤ packedValue fields f.1) ∧ packFrame p m fields = .error .collab) := by
  unfold packFrame
  rcases packFields_cases fields (layout p m) 0 (List.replicate (bytesPerFrame m) 0) with ⟨h0, buf, h1, h2⟩ | h
  · exact .inl ⟨h0, buf, h1, by simpa using h2,
      unpackFields_packFields _ _ _ _ _ h1 (by simp [totalWidth_layout])⟩
  · exact .inr h

end Sys2Proof.Machine
end

