-- ==== Sys2Proof/Laws/Decoder.lean ====
section
/-! SUPPORT. The laws of DECODE: each stage answers the values `Safety` names, or the fault of the first check that fails. -/

namespace Sys2Proof.Machine

open Sys2Proof.Safety

/-! ## Numbers -/

/-- Every element is less than the next, read by index (R268). -/
theorem strictlyIncreasing_iff (l : List Numeric) :
    strictlyIncreasing l = true ↔ ∀ n, ∀ h : n + 1 < l.length, Numeric.lt l[n] l[n + 1] = true := by
  induction l with
  | nil => simp [strictlyIncreasing]
  | cons x t ih =>
    cases t with
    | nil => simp [strictlyIncreasing]
    | cons y t =>
      simp only [strictlyIncreasing, Bool.and_eq_true, ih]
      constructor
      · rintro ⟨h0, h1⟩ n hn
        cases n with
        | zero => exact h0
        | succ n => exact h1 n (by simpa using hn)
      · intro h
        exact ⟨h 0 (by simp), fun n hn => h (n + 1) (by simpa using hn)⟩

theorem lt_of_finitePositive {y : Numeric} (h : y.finitePositive = true) : Numeric.lt (.ofInt 0) y = true := by
  simp only [Numeric.finitePositive, Bool.and_eq_true] at h
  exact h.2

/-! ## Saturation -/

/-- SAT on a value that is not NaN (R230). -/
theorem saturate_ok (p : Params) {y : Numeric} (h : y.isNaN = false) : saturate p y = .ok (clamped p y) := by
  unfold saturate clamped
  rw [if_neg (by simp [h])]
  by_cases h1 : Numeric.lt (.ofInt 32767) y = true
  · exact (if_pos h1).trans (by rw [if_pos h1]; rfl)
  · refine (if_neg h1).trans ?_
    rw [if_neg h1]
    by_cases h2 : Numeric.lt y (.ofInt (-32767)) = true
    · exact (if_pos h2).trans (by rw [if_pos h2]; rfl)
    · exact (if_neg h2).trans (by rw [if_neg h2])

/-- SAT on NaN (R231). -/
theorem saturate_nan (p : Params) {y : Numeric} (h : y.isNaN = true) : saturate p y = .error .numeric := by
  simp [saturate, h]

/-- The value SAT gives lies in [-32767, 32767] (R230). -/
theorem clamped_range (p : Params) {y : Numeric} (h : y.isNaN = false) : -32767 ≤ clamped p y ∧ clamped p y ≤ 32767 := by
  unfold clamped
  split
  · omega
  · rename_i h1
    split
    · omega
    · rename_i h2
      have key : ∀ q : Rat, y.toRat? = some q → -32767 ≤ q → q ≤ 32767 → -32767 ≤ p.toInt y ∧ p.toInt y ≤ 32767 :=
        fun q hq ha hb => ⟨(p.toInt_near y q hq ha hb).1, (p.toInt_near y q hq ha hb).2.1⟩
      cases y with
      | nan => cases h
      | posInf => exact absurd rfl h1
      | negInf => exact absurd rfl h2
      | negZero => exact key 0 rfl (by norm_num) (by norm_num)
      | finite q =>
        simp only [Numeric.lt, Numeric.rank?, Numeric.ofInt, lt_irrefl, decide_false, decide_true, Bool.true_and,
          Bool.false_or, decide_eq_true_eq, not_lt] at h1 h2
        exact key q rfl (by exact_mod_cast h2) (by exact_mod_cast h1)

/-- SAT over a sub-frame: every sample clamped, or NUMERIC when one of them is NaN. -/
theorem saturateAll_cases (p : Params) (ys : List Numeric) :
    ((∀ y ∈ ys, y.isNaN = false) ∧ saturateAll p ys = .ok (ys.map fun y => BitVec.ofInt 16 (clamped p y))) ∨
      (¬(∀ y ∈ ys, y.isNaN = false) ∧ saturateAll p ys = .error .numeric) := by
  induction ys with
  | nil => exact .inl ⟨by simp, rfl⟩
  | cons y ys ih =>
    simp only [saturateAll, List.forall_mem_cons]
    cases hy : y.isNaN
    · rw [saturate_ok p hy]
      rcases ih with ⟨h1, h2⟩ | ⟨h1, h2⟩
      · exact .inl ⟨⟨rfl, h1⟩, by rw [h2]; rfl⟩
      · exact .inr ⟨fun h => h1 h.2, by rw [h2]⟩
    · exact .inr ⟨fun h => by simp at h, by rw [saturate_nan p hy]⟩

/-! ## Parameters -/

/-- `harmonics` with its check (R265). -/
theorem harmonics_eq (p : Params) (wo : Numeric) :
    harmonics p wo = if harmonicsInRange p wo = true then .ok (harmonicCount p wo) else .error .collab := by
  unfold harmonics harmonicsInRange harmonicCount
  cases (harmonicQuotient p wo).floor? with
  | none => rfl
  | some n => simp [Bool.and_eq_true]

/-- One DEC_WOE call in range of its checks (R223). -/
abbrev woeOk (p : Params) (f : FieldList) (d : DecState) (j : Nat) : Prop :=
  (sentWo p f d j).finitePositive = true ∧ (sentEnergy p f d j).finitePositive = true

/-- The checks of the trajectory on one pair (R263 to R265). -/
abbrev pairOk (p : Params) (f : FieldList) (d : DecState) (j : Nat) : Prop :=
  harmonicsInRange p (sentWo p f d j) = true ∧ (midWo p f d j).1.finitePositive = true ∧
    ((midWo p f d j).2 = true → voicingOf f (2 * j) = true) ∧ (midEnergy p f d j).finitePositive = true

/-- The DEC_WOE calls from index `j` on: every value, or COLLAB when a check fails. -/
theorem decodeWoes_cases (p : Params) (f : FieldList) (d : DecState) (n j : Nat) :
    let calls := decodeWoes p ((List.range' j n).map (sentIndex f)) (predAt p f d j)
    ((∀ j', j ≤ j' → j' < j + n → woeOk p f d j') ∧
      calls = .ok ((List.range' j n).map fun j' => (sentWo p f d j', sentEnergy p f d j'), predAt p f d (j + n))) ∨
    (¬(∀ j', j ≤ j' → j' < j + n → woeOk p f d j') ∧ calls = .error .collab) := by
  induction n generalizing j with
  | zero => exact .inl ⟨fun j' h1 h2 => by omega, rfl⟩
  | succ n ih =>
    simp only [List.range'_succ, List.map_cons, decodeWoes, decodeWoe]
    by_cases h0 : woeOk p f d j
    · rw [if_pos (by simpa [woeOk, sentWo, sentEnergy] using h0)]
      rcases ih (j + 1) with ⟨h1, h2⟩ | ⟨h1, h2⟩
      · refine .inl ⟨fun j' ha hb => ?_, ?_⟩
        · by_cases hj : j' = j
          · exact hj ▸ h0
          · exact h1 j' (by omega) (by omega)
        · simp only [predAt] at h2
          simp only [h2, show j + 1 + n = j + (n + 1) by omega]
          rfl
      · refine .inr ⟨fun h => h1 fun j' ha hb => h j' (by omega) (by omega), ?_⟩
        simp only [predAt] at h2
        simp only [h2]
    · rw [if_neg (by simpa [woeOk, sentWo, sentEnergy] using h0)]
      exact .inr ⟨fun h => h0 (h j le_rfl (by omega)), rfl⟩

theorem trajectoryPair_cases (p : Params) (f : FieldList) (d : DecState) (j : Nat) :
    let pair := trajectoryPair p (leftHead p f d j) (leftEnergy p f d j)
      ⟨voicingOf f (2 * j), voicingOf f (2 * j + 1), sentWo p f d j, sentEnergy p f d j⟩
    (pairOk p f d j ∧ pair = .ok (subParams p f d (2 * j), subParams p f d (2 * j + 1), sentHead p f d j)) ∨
    (¬pairOk p f d j ∧ pair = .error .collab) := by
  simp only [trajectoryPair, harmonics_eq]
  by_cases h1 : harmonicsInRange p (sentWo p f d j) = true
  swap
  · exact .inr ⟨fun h => h1 h.1, by simp [h1]⟩
  simp only [h1, if_true, interpolateWo]
  by_cases h2 : (midWo p f d j).1.finitePositive = true ∧ ((midWo p f d j).2 = true → voicingOf f (2 * j) = true)
  swap
  · refine .inr ⟨fun h => h2 ⟨h.2.1, h.2.2.1⟩, ?_⟩
    rw [if_neg]
    intro h
    simp only [Bool.and_eq_true, Bool.or_eq_true, Bool.not_eq_true'] at h
    exact h2 ⟨h.1, fun hv => h.2.resolve_left (by change ¬((midWo p f d j).2 = false); simp [hv])⟩
  rw [if_pos]
  swap
  · simp only [Bool.and_eq_true, Bool.or_eq_true, Bool.not_eq_true']
    refine ⟨h2.1, ?_⟩
    change (midWo p f d j).2 = false ∨ _
    cases hv : (midWo p f d j).2
    · exact .inl rfl
    · exact .inr (h2.2 hv)
  simp only [interpolateE]
  by_cases h3 : (midEnergy p f d j).finitePositive = true
  · refine .inl ⟨⟨h1, h2.1, h2.2, h3⟩, ?_⟩
    rw [if_pos (by exact h3)]
    have ha : ¬(2 * j % 2 = 1) := by omega
    have hb : (2 * j + 1) % 2 = 1 := by omega
    simp only [subParams, ha, hb, if_true, if_false, show 2 * j / 2 = j by omega, show (2 * j + 1) / 2 = j by omega]
    rfl
  · refine .inr ⟨fun h => h3 h.2.2.2, ?_⟩
    rw [if_neg (by exact h3)]

/-- The trajectory from pair `j` on: every sub-frame's values, or COLLAB when a check fails. -/
theorem trajectory_cases (p : Params) (f : FieldList) (d : DecState) (n j : Nat) :
    let run := trajectory p (leftHead p f d j) (leftEnergy p f d j)
      (pairInputs f j ((List.range' j n).map fun j' => (sentWo p f d j', sentEnergy p f d j')))
    ((∀ j', j ≤ j' → j' < j + n → pairOk p f d j') ∧
      run = .ok ((List.range' (2 * j) (2 * n)).map (subParams p f d))) ∨
    (¬(∀ j', j ≤ j' → j' < j + n → pairOk p f d j') ∧ run = .error .collab) := by
  induction n generalizing j with
  | zero => exact .inl ⟨fun j' h1 h2 => by omega, rfl⟩
  | succ n ih =>
    simp only [List.range'_succ, List.map_cons, pairInputs, trajectory]
    rcases trajectoryPair_cases p f d j with ⟨h0, hp⟩ | ⟨h0, hp⟩
    · rw [hp]
      rcases ih (j + 1) with ⟨h1, h2⟩ | ⟨h1, h2⟩
      · refine .inl ⟨fun j' ha hb => ?_, ?_⟩
        · by_cases hj : j' = j
          · exact hj ▸ h0
          · exact h1 j' (by omega) (by omega)
        · simp only [leftHead, leftEnergy] at h2
          simp only [h2, show 2 * (n + 1) = 2 * n + 1 + 1 by omega, List.range'_succ, List.map_cons,
            show 2 * j + 1 + 1 = 2 * (j + 1) by omega]
      · refine .inr ⟨fun h => h1 fun j' ha hb => h j' (by omega) (by omega), ?_⟩
        simp only [leftHead, leftEnergy] at h2
        simp only [h2]
    · rw [hp]
      exact .inr ⟨fun h => h0 (h j le_rfl (by omega)), rfl⟩

/-! ## Synthesis -/

/-- The samples of sub-frame `k` as SAT gives them. -/
abbrev subframeSamples (p : Params) (m : FrameMode) (f : FieldList) (d : DecState) (k : Nat) : List Sample :=
  (preClamp p m f d k).toList.map fun y => BitVec.ofInt 16 (clamped p y)

/-- One sub-frame of synthesis: its samples, COLLAB when its harmonic count is out of range, NUMERIC on a NaN. -/
theorem synthSubframe_cases (p : Params) (m : FrameMode) (f : FieldList) (d : DecState) (k : Nat) :
    let run := synthSubframe p (lspAt p m f d k) (subParams p f d k) (synthAt p m f d k)
    (decodeSubframeOk p m f d k ∧ run = .ok (subframeSamples p m f d k, synthAt p m f d (k + 1))) ∨
    (harmonicsInRange p (subParams p f d k).wo = false ∧ run = .error .collab) ∨
    (harmonicsInRange p (subParams p f d k).wo = true ∧ ¬noNaN p m f d k ∧ run = .error .numeric) := by
  simp only [synthSubframe, harmonics_eq]
  cases h1 : harmonicsInRange p (subParams p f d k).wo with
  | false => exact .inr (.inl ⟨rfl, rfl⟩)
  | true =>
    simp only [if_true]
    rcases saturateAll_cases p (preClamp p m f d k).toList with ⟨h2, h3⟩ | ⟨h2, h3⟩
    · refine .inl ⟨⟨h1, h2⟩, ?_⟩
      simp only [preClamp, synthChain] at h3
      simp only [h3]
      rfl
    · refine .inr (.inr ⟨by trivial, h2, ?_⟩)
      simp only [preClamp, synthChain] at h3
      simp only [h3]

/-- The synthesis loop from sub-frame `k` on: all the samples, or the fault of the first sub-frame whose checks fail. -/
theorem synthesize_cases (p : Params) (m : FrameMode) (f : FieldList) (d : DecState) (n k : Nat) :
    let run := synthesize p ((List.range' k n).map fun k' => (lspAt p m f d k', subParams p f d k')) (synthAt p m f d k)
    ((∀ k', k ≤ k' → k' < k + n → decodeSubframeOk p m f d k') ∧
      run = .ok ((List.range' k n).flatMap (subframeSamples p m f d), synthAt p m f d (k + n))) ∨
    ∃ k', k ≤ k' ∧ k' < k + n ∧ (∀ k'', k ≤ k'' → k'' < k' → decodeSubframeOk p m f d k'') ∧
      ((harmonicsInRange p (subParams p f d k').wo = false ∧ run = .error .collab) ∨
       (harmonicsInRange p (subParams p f d k').wo = true ∧ ¬noNaN p m f d k' ∧ run = .error .numeric)) := by
  induction n generalizing k with
  | zero => exact .inl ⟨fun j' h1 h2 => by omega, rfl⟩
  | succ n ih =>
    simp only [List.range'_succ, List.map_cons, synthesize]
    rcases synthSubframe_cases p m f d k with ⟨h0, hs⟩ | ⟨h0, hs⟩ | ⟨h0, h1, hs⟩
    · rw [hs]
      have hk : ∀ k'', k ≤ k'' → k'' < k + 1 → decodeSubframeOk p m f d k'' := fun k'' ha hb => by
        obtain rfl : k'' = k := by omega
        exact h0
      rcases ih (k + 1) with ⟨h1, h2⟩ | ⟨k', ha, hb, hc, h2⟩
      · refine .inl ⟨fun k' ha hb => ?_, ?_⟩
        · by_cases hj : k' < k + 1
          · exact hk k' ha hj
          · exact h1 k' (by omega) (by omega)
        · simp only [h2, List.flatMap_cons, show k + 1 + n = k + (n + 1) by omega]
      · refine .inr ⟨k', by omega, by omega, fun k'' hd he => ?_, ?_⟩
        · by_cases hj : k'' < k + 1
          · exact hk k'' hd hj
          · exact hc k'' (by omega) he
        · rcases h2 with ⟨h3, h4⟩ | ⟨h3, h4, h5⟩
          · exact .inl ⟨h3, by simp only [h4]⟩
          · exact .inr ⟨h3, h4, by simp only [h5]⟩
    · exact .inr ⟨k, le_rfl, by omega, fun k'' ha hb => by omega, .inl ⟨h0, by rw [hs]⟩⟩
    · exact .inr ⟨k, le_rfl, by omega, fun k'' ha hb => by omega, .inr ⟨h0, h1, by rw [hs]⟩⟩

/-! ## The whole frame -/

theorem woeIndices_eq (m : FrameMode) (f : FieldList) : woeIndices m f = (List.range' 0 (woeCount m)).map (sentIndex f) := by
  rw [← List.range_eq_range']; rfl

theorem subframes_eq (m : FrameMode) : subframes m = 2 * woeCount m := by cases m <;> rfl

theorem lspTrajectory_zip (p : Params) (m : FrameMode) (f : FieldList) (d : DecState) :
    (lspTrajectory p m d.prevLsps (newLsps p m f)).zip ((List.range' 0 (subframes m)).map (subParams p f d)) =
      (List.range' 0 (subframes m)).map fun k => (lspAt p m f d k, subParams p f d k) := by
  rw [lspTrajectory, List.range_eq_range', List.zip_map']
  apply List.map_congr_left
  intro k hk
  have hk : k < subframes m := by simpa [List.mem_range'_1] using hk
  simp only [lspOfSubframe, lspAt, lspWeight, Prod.mk.injEq, and_true]
  by_cases h : k + 1 = subframes m
  · rw [if_neg (by omega), if_pos h]
  · rw [if_pos (by omega), if_neg h]

/-- Everything DECODE of a frame can do (R220, R300): the samples and the next decode fields when the contract is kept; COLLAB
when a check before synthesis fails; otherwise the fault of the first sub-frame whose checks fail. -/
theorem decodeFields_cases (p : Params) (m : FrameMode) (f : FieldList) (d : DecState) :
    (decodeContract p m f d ∧ decodeFields p m f d =
      .ok ((List.range' 0 (subframes m)).flatMap (subframeSamples p m f d), nextDecState p m f d)) ∨
    (¬decodeParamsOk p m f d ∧ decodeFields p m f d = .error .collab) ∨
    (decodeParamsOk p m f d ∧ ∃ k < subframes m, (∀ k' < k, decodeSubframeOk p m f d k') ∧
      ((harmonicsInRange p (subParams p f d k).wo = false ∧ decodeFields p m f d = .error .collab) ∨
       (harmonicsInRange p (subParams p f d k).wo = true ∧ ¬noNaN p m f d k ∧
         decodeFields p m f d = .error .numeric))) := by
  have hlast : ∀ woes, woes = (List.range' 0 (woeCount m)).map (fun j => (sentWo p f d j, sentEnergy p f d j)) →
      lastEnergy d.prevE woes = sentEnergy p f d (woeCount m - 1) := by
    rintro _ rfl; cases m <;> rfl
  simp only [decodeFields, woeIndices_eq]
  rcases decodeWoes_cases p f d (woeCount m) 0 with ⟨h1, e1⟩ | ⟨h1, e1⟩
  swap
  · exact .inr (.inl ⟨fun h => h1 fun j _ hj => h.1 j (by omega), by simp only [predAt] at e1; rw [e1]⟩)
  simp only [predAt] at e1
  rw [e1]
  simp only [correctLsps]
  by_cases h2 : strictlyIncreasing (newLsps p m f).toList = true
  swap
  · refine .inr (.inl ⟨fun h => h2 h.2.1, ?_⟩)
    rw [if_neg (by exact h2)]
  rw [if_pos (by exact h2)]
  rcases trajectory_cases p f d (woeCount m) 0 with ⟨h3, e3⟩ | ⟨h3, e3⟩
  swap
  · exact .inr (.inl ⟨fun h => h3 fun j _ hj => h.2.2 j (by omega), by simp only [leftHead, leftEnergy] at e3; simp only [e3]⟩)
  simp only [leftHead, leftEnergy, ← subframes_eq, Nat.mul_zero] at e3
  simp only [e3]
  have hok : decodeParamsOk p m f d := ⟨fun j hj => h1 j (by omega) (by omega), h2, fun j hj => h3 j (by omega) (by omega)⟩
  have hz := lspTrajectory_zip p m f d
  simp only [newLsps] at hz
  simp only [hz]
  rcases synthesize_cases p m f d (subframes m) 0 with ⟨h4, e4⟩ | ⟨k, -, hk, hbefore, h4⟩
  · refine .inl ⟨⟨hok, fun k hk => h4 k (by omega) (by omega)⟩, ?_⟩
    simp only [synthAt, Nat.zero_add] at e4
    simp only [e4, hlast _ rfl, Nat.zero_add]
    rfl
  · refine .inr (.inr ⟨hok, k, by omega, fun k' hk' => hbefore k' (by omega) hk', ?_⟩)
    simp only [synthAt] at h4
    rcases h4 with ⟨ha, hb⟩ | ⟨ha, hb, hc⟩
    · exact .inl ⟨ha, by simp only [hb]⟩
    · exact .inr ⟨ha, hb, by simp only [hc]⟩

/-- Sample `80k+n` of a completed DECODE is sample `n` of sub-frame `k` (R220). -/
theorem flatMap_subframeSamples (p : Params) (m : FrameMode) (f : FieldList) (d : DecState) (n : Nat) :
    ((List.range' 0 n).flatMap (subframeSamples p m f d)).length = 80 * n ∧
    ∀ k < n, ∀ j, ∀ h : j < 80, ((List.range' 0 n).flatMap (subframeSamples p m f d))[80 * k + j]? =
      some (BitVec.ofInt 16 (clamped p ((preClamp p m f d k)[j]'h))) := by
  induction n with
  | zero => exact ⟨rfl, fun k hk => by omega⟩
  | succ n ih =>
    rw [List.range'_concat, List.flatMap_append]
    simp only [Nat.zero_add, Nat.one_mul, List.flatMap_cons, List.flatMap_nil, List.append_nil]
    refine ⟨by rw [List.length_append, ih.1]; simp; omega, fun k hk j h => ?_⟩
    by_cases hkn : k < n
    · rw [List.getElem?_append_left (by rw [ih.1]; omega)]
      exact ih.2 k hkn j h
    · obtain rfl : k = n := by omega
      rw [List.getElem?_append_right (by rw [ih.1]; omega), ih.1, show 80 * k + j - 80 * k = j by omega]
      simp [subframeSamples, h]

theorem samplesPerFrame_eq (m : FrameMode) : samplesPerFrame m = 80 * subframes m := by cases m <;> rfl

/-- What a DECODE that succeeds on a frame of bytes gives (R220, R232). -/
theorem decodeFrame_ok {p : Params} {m : FrameMode} {bytes : List Byte} {d d' : DecState} {xs : List Sample}
    (h : decodeFrame p m bytes d = .ok (xs, d')) :
    decodeContract p m (unpackFrame p m bytes) d ∧
      xs = (List.range' 0 (subframes m)).flatMap (subframeSamples p m (unpackFrame p m bytes) d) ∧
      d' = nextDecState p m (unpackFrame p m bytes) d ∧ xs.length = samplesPerFrame m := by
  unfold decodeFrame at h
  rcases decodeFields_cases p m (unpackFrame p m bytes) d with ⟨hc, h1⟩ | ⟨-, h1⟩ | ⟨-, k, -, -, ⟨-, h1⟩ | ⟨-, -, h1⟩⟩ <;>
    rw [h1] at h <;> cases h
  refine ⟨hc, rfl, rfl, ?_⟩
  rw [(flatMap_subframeSamples p m _ d _).1, samplesPerFrame_eq]

/-- DECODE of a frame has two faults, COLLAB and NUMERIC (R296, R297). -/
theorem decodeFrame_error {p : Params} {m : FrameMode} {bytes : List Byte} {d : DecState} {code : FaultCode}
    (h : decodeFrame p m bytes d = .error code) : code = .collab ∨ code = .numeric := by
  unfold decodeFrame at h
  rcases decodeFields_cases p m (unpackFrame p m bytes) d with ⟨-, h1⟩ | ⟨-, h1⟩ | ⟨-, k, -, -, ⟨-, h1⟩ | ⟨-, -, h1⟩⟩ <;>
    rw [h1] at h <;> cases h
  · exact .inl rfl
  · exact .inl rfl
  · exact .inr rfl

/-- A clamped value keeps its size as an `int16` (R230). -/
theorem toInt_clamped (p : Params) {y : Numeric} (h : y.isNaN = false) :
    (BitVec.ofInt 16 (clamped p y)).toInt = clamped p y := by
  have := clamped_range p h
  rw [BitVec.toInt_ofInt, Int.bmod_eq_of_le (by omega) (by omega)]

/-- Every sample a DECODE writes lies in [-32767, 32767] (R230). -/
theorem decodeFrame_range {p : Params} {m : FrameMode} {bytes : List Byte} {d d' : DecState} {xs : List Sample}
    (h : decodeFrame p m bytes d = .ok (xs, d')) : ∀ x ∈ xs, -32767 ≤ x.toInt ∧ x.toInt ≤ 32767 := by
  obtain ⟨hc, rfl, -, -⟩ := decodeFrame_ok h
  intro x hx
  obtain ⟨k, hk, hx⟩ := List.mem_flatMap.mp hx
  obtain ⟨y, hy, rfl⟩ := List.mem_map.mp hx
  have hn := (hc.2 k (by simpa [List.mem_range'_1] using hk)).2 y hy
  rw [toInt_clamped p hn]
  exact clamped_range p hn

/-! ## What DECODE reads of a frame -/

/-- DECODE reads no spare field (R115, R221). -/
theorem decodeFields_congr {p : Params} {m : FrameMode} {f f' : FieldList} (d : DecState)
    (h : ∀ name, name ≠ .spare → fieldValue f name = fieldValue f' name) :
    decodeFields p m f d = decodeFields p m f' d := by
  have h1 : woeIndices m f = woeIndices m f' := List.map_congr_left fun j _ => h _ (by simp)
  have h2 : lspIndices p m f = lspIndices p m f' := List.map_congr_left fun j _ => h _ (by simp)
  have h3 : ∀ woes j, pairInputs f j woes = pairInputs f' j woes := by
    intro woes
    induction woes with
    | nil => intro j; rfl
    | cons x rest ih => intro j; simp [pairInputs, voicingOf, h, ih]
  simp only [decodeFields, h1, h2, h3]

theorem fieldValue_append {a b : FieldList} {name : FieldName} (h : ∀ f ∈ b, f.1 ≠ name) :
    fieldValue (a ++ b) name = fieldValue a name := by
  have hb : b.lookup name = none := by
    rw [List.lookup_eq_none_iff]
    intro f hf
    simpa using fun e => h f hf e.symm
  simp [fieldValue, List.lookup_append, hb]

/-- The positions that are not spare (R108 to R110). -/
def usedBits : FrameMode → Nat
  | .A => 46
  | .B => 56
  | .C => 47

/-- Buffers with the same bits in every position that is not spare decode alike (R115). -/
theorem decodeFrame_congr {p : Params} {m : FrameMode} {a b : List Byte} (d : DecState)
    (h : ∀ q < usedBits m, getBit a q = getBit b q) : decodeFrame p m a d = decodeFrame p m b d := by
  have hu : totalWidth (headLayout m ++ lspLayout 0 (lspWidths p m)) = usedBits m := by
    rw [totalWidth_append, totalWidth_lspLayout, lspWidths_sum]; cases m <;> rfl
  apply decodeFields_congr
  intro name hne
  have key : ∀ buf : List Byte, fieldValue (unpackFrame p m buf) name =
      fieldValue (unpackFields buf (headLayout m ++ lspLayout 0 (lspWidths p m)) 0) name := by
    intro buf
    rw [unpackFrame, layout, unpackFields_append]
    apply fieldValue_append
    intro f hf
    have : f.1 ∈ (spareLayout m).map Prod.fst := by
      rw [← map_fst_unpackFields buf]; exact List.mem_map_of_mem hf
    intro e
    rw [e] at this
    cases m <;> simp [spareLayout] at this <;> exact hne this
  rw [key, key, unpackFields_congr _ 0 fun q _ hq => h q (by omega)]

end Sys2Proof.Machine
end

