-- ==== Sys2Proof/Laws/Encoder.lean ====
section
/-! SUPPORT. The laws of ENCODE: the field list it builds has the layout's names, the history keeps its length, and what
packing the list can do. -/

namespace Sys2Proof.Machine

theorem length_shiftIn {p : Params} {hist : Hist} {x : List Sample} (h : hist.length = p.nHist)
    (hx : x.length = subframeLength) : (shiftIn hist x).length = p.nHist := by
  have := p.nHist_ge
  simp only [shiftIn, List.length_append, List.length_drop, hx, h, subframeLength]
  omega

theorem length_subframeOf {m : FrameMode} {x : List Sample} {k : Nat} (hx : x.length = samplesPerFrame m)
    (hk : k < subframes m) : (subframeOf x k).length = subframeLength := by
  simp only [subframeOf, List.length_take, List.length_drop, hx]
  cases m <;> simp [samplesPerFrame, subframes, subframeLength] at * <;> omega

/-- One sub-frame shifts its samples into the history. -/
theorem encodeSubframe_hist (p : Params) (m : FrameMode) (x : List Sample) (k : Nat) (e : EncState) :
    (encodeSubframe p m x k e).1.hist = shiftIn e.hist (subframeOf x k) := by
  simp only [encodeSubframe]; split <;> rfl

theorem encodeSubframes_histLength {p : Params} {m : FrameMode} {x : List Sample} (hx : x.length = samplesPerFrame m)
    (ks : List Nat) (hk : ∀ k ∈ ks, k < subframes m) (e : EncState) (h : e.hist.length = p.nHist) :
    (encodeSubframes p m x ks e).1.hist.length = p.nHist := by
  induction ks generalizing e with
  | nil => exact h
  | cons k ks ih =>
    exact ih (fun j hj => hk j (by simp [hj])) (encodeSubframe p m x k e).1
      (by rw [encodeSubframe_hist]; exact length_shiftIn h (length_subframeOf hx (hk k (by simp))))

/-- ENCODE keeps the length of the history (R43, R192). -/
theorem encodeFields_histLength {p : Params} {m : FrameMode} {x : List Sample} (hx : x.length = samplesPerFrame m)
    (e : EncState) (h : e.hist.length = p.nHist) : (encodeFields p m x e).1.hist.length = p.nHist :=
  encodeSubframes_histLength hx _ (fun _ hk => List.mem_range.mp hk) e h

theorem map_fst_lspFields (i : Nat) (vs ws : List Nat) (h : vs.length = ws.length) :
    (lspFields i vs).map Prod.fst = (lspLayout i ws).map Prod.fst := by
  induction vs generalizing i ws with
  | nil => cases ws with
    | nil => rfl
    | cons w ws => cases h
  | cons v vs ih => cases ws with
    | nil => cases h
    | cons w ws => simpa [lspFields, lspLayout] using ih (i + 1) ws (by simpa using h)

theorem length_encodeLsps (p : Params) (m : FrameMode) (lsps : LspVec) :
    (encodeLsps p m lsps).length = (lspWidths p m).length := by
  cases m
  · simp [encodeLsps, lspWidths, p.scalar_length]
  · simp [encodeLsps, lspWidths, p.scalar_length]
  · exact p.encLspVq_length lsps

/-- The field list of ENCODE names the fields of the layout, in order (R173). -/
theorem encodeFields_names (p : Params) (m : FrameMode) (x : List Sample) (e : EncState) :
    (encodeFields p m x e).2.map Prod.fst = (layout p m).map Prod.fst := by
  cases m <;>
    simp [encodeFields, subframes, List.range_succ, encodeSubframes, encodeSubframe, layout, headLayout, spareLayout,
      spareFields, map_fst_lspFields 0 _ _ (length_encodeLsps p _ _)]

/-- A sub-frame of ENCODE writes no spare field. -/
theorem encodeSubframes_ne_spare (p : Params) (m : FrameMode) (x : List Sample) (ks : List Nat) (e : EncState) :
    ∀ f ∈ (encodeSubframes p m x ks e).2, f.1 ≠ .spare := by
  have lsp : ∀ (vs : List Nat) (i : Nat), ∀ f ∈ lspFields i vs, f.1 ≠ .spare := by
    intro vs
    induction vs with
    | nil => intro i f hf; cases hf
    | cons v vs ih => intro i; simpa [lspFields] using fun n w h => ih (i + 1) (n, w) h
  have one : ∀ k e, ∀ f ∈ (encodeSubframe p m x k e).2, f.1 ≠ .spare := by
    intro k e f hf
    simp only [encodeSubframe] at hf
    split at hf
    · simp only [List.mem_append, List.mem_singleton] at hf
      rcases hf with (rfl | rfl) | hf
      · simp
      · simp
      · split at hf
        · exact lsp _ _ f hf
        · cases hf
    · simp only [List.mem_singleton] at hf
      subst hf; simp
  induction ks generalizing e with
  | nil => intro f hf; cases hf
  | cons k ks ih =>
    intro f hf
    rcases List.mem_append.mp hf with hf | hf
    · exact one k e f hf
    · exact ih _ f hf

/-- ENCODE's spare fields are zeros (R197). -/
theorem encodeFields_spare (p : Params) (m : FrameMode) (x : List Sample) (e : EncState) :
    ∀ f ∈ (encodeFields p m x e).2, f.1 = .spare → f.2 = 0 := by
  intro f hf hs
  rcases List.mem_append.mp hf with hf | hf
  · exact absurd hs (encodeSubframes_ne_spare p m x _ e f hf)
  · cases m <;> simp [spareFields] at hf <;> simp [hf]

/-- Everything ENCODE of a frame can do: NBYTES bytes that unpack to the field list, or COLLAB when an index does not fit. -/
theorem encodeFrame_cases (p : Params) (m : FrameMode) (x : List Sample) (e : EncState) :
    (Safety.encodeContract p m x e ∧ ∃ bytes, encodeFrame p m x e = .ok ((encodeFields p m x e).1, bytes) ∧
        bytes.length = bytesPerFrame m ∧ unpackFrame p m bytes = (encodeFields p m x e).2) ∨
      (¬ Safety.encodeContract p m x e ∧ encodeFrame p m x e = .error .collab) := by
  unfold encodeFrame
  rcases packFrame_cases p m (encodeFields p m x e).2 with ⟨h0, buf, h1, h2, h3⟩ | ⟨⟨f, hf, h0⟩, h1⟩
  · refine .inl ⟨h0, buf, by rw [h1], h2, ?_⟩
    rw [h3, map_layout_packedValue (encodeFields_names p m x e), map_spare_zero (encodeFields_spare p m x e)]
  · exact .inr ⟨fun h => absurd (h f hf) (by omega), by rw [h1]⟩

/-- ENCODE of a frame has one fault, COLLAB (R296 check 1). -/
theorem encodeFrame_error {p : Params} {m : FrameMode} {x : List Sample} {e : EncState} {code : FaultCode}
    (h : encodeFrame p m x e = .error code) : code = .collab := by
  rcases encodeFrame_cases p m x e with ⟨-, b, h1, -, -⟩ | ⟨-, h1⟩ <;> rw [h1] at h <;> cases h
  rfl

/-- What an ENCODE that succeeds on a frame of samples gives (R190, R198). -/
theorem encodeFrame_ok {p : Params} {m : FrameMode} {x : List Sample} {e e' : EncState} {bytes : List Byte}
    (h : encodeFrame p m x e = .ok (e', bytes)) :
    e' = (encodeFields p m x e).1 ∧ bytes.length = bytesPerFrame m := by
  rcases encodeFrame_cases p m x e with ⟨-, b, h1, h2, -⟩ | ⟨-, h1⟩ <;> rw [h1] at h <;> cases h
  exact ⟨rfl, h2⟩

end Sys2Proof.Machine
end

