-- ==== Sys2Proof/Laws/Ops.lean ====
section
/-! SUPPORT. What the shared operations can do: raising an error, needing an instance, and the fields of STATUS. -/

namespace Sys2Proof.Machine

open Sys2Proof.Safety

/-- STATUS assembled from its four fields gives each of them back, with the reserved bits 0. -/
theorem statusFields : ∀ (f : Bool) (e m : BitVec 4) (st : BitVec 2),
    let w : Word := (0 : BitVec 19) ++ BitVec.ofBool f ++ e ++ (0 : BitVec 2) ++ m ++ st
    stateField w = st ∧ modeField w = m ∧ errField w = e ∧ faultField w = f ∧
      w.extractLsb' 6 2 = 0 ∧ w.extractLsb' 13 19 = 0 := by decide +kernel

@[simp] theorem stateField_statusWord (s : State) : stateField (statusWord s) = statusState s :=
  (statusFields s.fault s.err.code (statusMode s) (statusState s)).1

@[simp] theorem modeField_statusWord (s : State) : modeField (statusWord s) = statusMode s :=
  (statusFields s.fault s.err.code (statusMode s) (statusState s)).2.1

@[simp] theorem errField_statusWord (s : State) : errField (statusWord s) = s.err.code :=
  (statusFields s.fault s.err.code (statusMode s) (statusState s)).2.2.1

@[simp] theorem faultField_statusWord (s : State) : faultField (statusWord s) = s.fault :=
  (statusFields s.fault s.err.code (statusMode s) (statusState s)).2.2.2.1

theorem statusWord_reserved (s : State) :
    (statusWord s).extractLsb' 6 2 = 0 ∧ (statusWord s).extractLsb' 13 19 = 0 :=
  (statusFields s.fault s.err.code (statusMode s) (statusState s)).2.2.2.2

/-- `fault_err(code)` always ends in a fault: of that code, with the registers of the state in which ERR holds the code and
FAULT is set, and, for a precise fault, that state. -/
theorem faultErr_spec (e : FaultCode) (s : State) :
    ∃ r, faultErr e s = .fault r ∧ faultErrCode r = e.err ∧ faultRegisters r = registersOf (raiseErr e s) ∧
      ∀ left, faultLeaves r = some left → left = raiseErr e s := by
  cases e <;> refine ⟨_, rfl, rfl, rfl, fun left h => ?_⟩ <;> cases h <;> rfl

/-- `fault_err` gives no next state. -/
theorem faultErr_ne_next (e : FaultCode) (s t : State) : faultErr e s ≠ .next t := by
  cases e <;> exact fun h => by cases h

/-- A command that needs an instance and gives a next state had one. -/
theorem withInstance_next {s t : State} {k : Inst → Host.Outcome State Fault Refusal} (h : withInstance s k = .next t) :
    ∃ i, s.inst = some i ∧ k i = .next t := by
  unfold withInstance at h
  cases hi : s.inst with
  | none => rw [hi] at h; exact absurd h (faultErr_ne_next _ _ _)
  | some i => rw [hi] at h; exact ⟨i, rfl, h⟩

/-- With an instance, the command is performed on it. -/
theorem withInstance_some {s : State} {i : Inst} (h : s.inst = some i) (k : Inst → Host.Outcome State Fault Refusal) :
    withInstance s k = k i := by
  simp [withInstance, h]

/-- With none, the command is NO_INSTANCE (R292). -/
theorem withInstance_none {s : State} (h : s.inst = none) (k : Inst → Host.Outcome State Fault Refusal) :
    withInstance s k = faultErr .noInstance s := by
  simp [withInstance, h]

end Sys2Proof.Machine
end

