-- ==== Sys2Proof/Laws/Commands.lean ====
section
/-! SUPPORT. What each command and each host operation can do: one inversion lemma per meaning, which later proofs cite
instead of unfolding it. -/

namespace Sys2Proof.Machine

open Sys2Proof.Safety

/-- The three codes that name a mode (R102). -/
theorem modeOfCode_eq_some {mode : Nat} {m : FrameMode} (h : modeOfCode mode = some m) :
    (mode = 0 ∧ m = .A) ∨ (mode = 1 ∧ m = .B) ∨ (mode = 2 ∧ m = .C) := by
  match mode, h with
  | 0, h => exact .inl ⟨rfl, (Option.some.inj h).symm⟩
  | 1, h => exact .inr (.inl ⟨rfl, (Option.some.inj h).symm⟩)
  | 2, h => exact .inr (.inr ⟨rfl, (Option.some.inj h).symm⟩)

theorem modeOfCode_eq_none {mode : Nat} (h : 2 < mode) : modeOfCode mode = none := by
  match mode, h with
  | n + 3, _ => rfl

/-- CREATE gives a next state in three ways: BAD_MODE, NO_RESOURCE, or an instance at session start. -/
theorem execCreate_next {mode : Nat} {s t : State} (h : execCreate mode s = .next t) :
    s.inst = none ∧
      (t = s.withErr .badMode ∨
        (s.config.createMayFail = true ∧ t = (s.withDraws (s.draws + 1)).withErr .noResource) ∨
        ∃ m, modeOfCode mode = some m ∧
          (t = buildInstance m s ∨ s.config.createMayFail = true ∧ t = buildInstance m (s.withDraws (s.draws + 1)))) := by
  unfold execCreate at h
  cases hi : s.inst with
  | some i => simp only [hi, Option.isSome_some, if_true] at h; exact absurd h (faultErr_ne_next _ _ _)
  | none =>
    simp only [hi, Option.isSome_none, Bool.false_eq_true, if_false] at h
    refine ⟨rfl, ?_⟩
    cases hm : modeOfCode mode with
    | none => rw [hm] at h; exact .inl (by simpa [statusErr, eq_comm] using h)
    | some m =>
      rw [hm] at h
      simp only [createWithDraw] at h
      by_cases hc : s.config.createMayFail = true
      · simp only [hc, if_true] at h
        by_cases hd : s.params.failDraw s.draws = true
        · simp only [hd, if_true, statusErr, Host.Outcome.next.injEq] at h
          exact .inr (.inl ⟨hc, h.symm⟩)
        · simp only [hd] at h
          exact .inr (.inr ⟨m, rfl, .inr ⟨hc, by simpa [eq_comm] using h⟩⟩)
      · simp only [hc] at h
        exact .inr (.inr ⟨m, rfl, .inl (by simpa [eq_comm] using h)⟩)

theorem execDestroy_next {s t : State} (h : execDestroy s = .next t) :
    ∃ i, s.inst = some i ∧ t = (s.withInst none).withErr .ok := by
  obtain ⟨i, hi, hk⟩ := withInstance_next h
  exact ⟨i, hi, by simpa [eq_comm] using hk⟩

theorem execGetbits_next {s t : State} (h : execGetbits s = .next t) :
    ∃ i, s.inst = some i ∧ t = (s.withResult (BitVec.ofNat 32 (bitsPerFrame i.mode))).withErr .ok := by
  obtain ⟨i, hi, hk⟩ := withInstance_next h
  exact ⟨i, hi, by simpa [eq_comm] using hk⟩

theorem execGetsamples_next {s t : State} (h : execGetsamples s = .next t) :
    ∃ i, s.inst = some i ∧ t = (s.withResult (BitVec.ofNat 32 (samplesPerFrame i.mode))).withErr .ok := by
  obtain ⟨i, hi, hk⟩ := withInstance_next h
  exact ⟨i, hi, by simpa [eq_comm] using hk⟩

/-- ENCODE gives a next state in one way: its input was written and the frame packed. -/
theorem execEncode_next {s t : State} (h : execEncode s = .next t) :
    ∃ i x e bytes, s.inst = some i ∧ inputSamples i.mode s = some x ∧
      encodeFrame s.params i.mode x i.cs.enc = .ok (e, bytes) ∧ t = finishEncode i e bytes s := by
  obtain ⟨i, hi, hk⟩ := withInstance_next h
  cases hx : inputSamples i.mode s with
  | none => rw [hx] at hk; exact absurd hk (faultErr_ne_next _ _ _)
  | some x =>
    rw [hx] at hk
    cases hf : encodeFrame s.params i.mode x i.cs.enc with
    | error code => simp only [hf] at hk; exact absurd hk (faultErr_ne_next _ _ _)
    | ok r =>
      obtain ⟨e, bytes⟩ := r
      simp only [hf] at hk
      exact ⟨i, x, e, bytes, hi, hx, hf, by simpa [eq_comm] using hk⟩

/-- ENCODE with its input written and a frame that packs completes. -/
theorem execEncode_ok {s : State} {i : Inst} {x : List Sample} {e : EncState} {bytes : List Byte} (hi : s.inst = some i)
    (hx : inputSamples i.mode s = some x) (hf : encodeFrame s.params i.mode x i.cs.enc = .ok (e, bytes)) :
    execEncode s = .next (finishEncode i e bytes s) := by
  simp [execEncode, withInstance_some hi, hx, hf]

/-- ENCODE with its input written and a frame that does not pack faults with that code. -/
theorem execEncode_error {s : State} {i : Inst} {x : List Sample} {code : FaultCode} (hi : s.inst = some i)
    (hx : inputSamples i.mode s = some x) (hf : encodeFrame s.params i.mode x i.cs.enc = .error code) :
    execEncode s = faultErr code s := by
  simp [execEncode, withInstance_some hi, hx, hf]

/-- DECODE gives a next state in one way: its input was written and the frame decoded. -/
theorem execDecode_next {s t : State} (h : execDecode s = .next t) :
    ∃ i bytes samples d, s.inst = some i ∧ inputBytes i.mode s = some bytes ∧
      decodeFrame s.params i.mode bytes i.cs.dec = .ok (samples, d) ∧ t = finishDecode i samples d s := by
  obtain ⟨i, hi, hk⟩ := withInstance_next h
  cases hx : inputBytes i.mode s with
  | none => rw [hx] at hk; exact absurd hk (faultErr_ne_next _ _ _)
  | some x =>
    rw [hx] at hk
    cases hf : decodeFrame s.params i.mode x i.cs.dec with
    | error code => simp only [hf] at hk; exact absurd hk (faultErr_ne_next _ _ _)
    | ok r =>
      obtain ⟨samples, d⟩ := r
      simp only [hf] at hk
      exact ⟨i, x, samples, d, hi, hx, hf, by simpa [eq_comm] using hk⟩

/-- DECODE with its input written and a frame that decodes completes. -/
theorem execDecode_ok {s : State} {i : Inst} {bytes : List Byte} {samples : List Sample} {d : DecState}
    (hi : s.inst = some i) (hx : inputBytes i.mode s = some bytes)
    (hf : decodeFrame s.params i.mode bytes i.cs.dec = .ok (samples, d)) :
    execDecode s = .next (finishDecode i samples d s) := by
  simp [execDecode, withInstance_some hi, hx, hf]

/-- DECODE with its input written and a frame that does not decode faults with that code. -/
theorem execDecode_error {s : State} {i : Inst} {bytes : List Byte} {code : FaultCode} (hi : s.inst = some i)
    (hx : inputBytes i.mode s = some bytes) (hf : decodeFrame s.params i.mode bytes i.cs.dec = .error code) :
    execDecode s = faultErr code s := by
  simp [execDecode, withInstance_some hi, hx, hf]

/-- A command that does not give a next state raised one faulting error on the state it was performed in, and never BUS, which
only a host access raises (R295). -/
theorem exec_next_or_faultErr (i : Instr) (s : State) :
    (∃ t, exec i s = .next t) ∨ ∃ e, e ≠ .bus ∧ exec i s = faultErr e s := by
  have noInst : ∀ k, s.inst = none → (∃ t, withInstance s k = .next t) ∨ ∃ e, e ≠ .bus ∧ withInstance s k = faultErr e s :=
    fun k hi => .inr ⟨.noInstance, by decide, withInstance_none hi k⟩
  cases i with
  | create mode =>
    simp only [exec, execCreate, createWithDraw, statusErr]
    split
    · exact .inr ⟨.alreadyConfigured, by decide, rfl⟩
    · split
      · exact .inl ⟨_, rfl⟩
      · split
        · split <;> exact .inl ⟨_, rfl⟩
        · exact .inl ⟨_, rfl⟩
  | destroy =>
    cases hi : s.inst with
    | none => exact noInst _ hi
    | some j => exact .inl ⟨_, withInstance_some hi _⟩
  | getbits =>
    cases hi : s.inst with
    | none => exact noInst _ hi
    | some j => exact .inl ⟨_, withInstance_some hi _⟩
  | getsamples =>
    cases hi : s.inst with
    | none => exact noInst _ hi
    | some j => exact .inl ⟨_, withInstance_some hi _⟩
  | encode =>
    cases hi : s.inst with
    | none => exact noInst _ hi
    | some j =>
      cases hx : inputSamples j.mode s with
      | none => exact .inr ⟨.uninit, by decide, by simp [exec, execEncode, withInstance_some hi, hx]⟩
      | some x =>
        cases hf : encodeFrame s.params j.mode x j.cs.enc with
        | error code => exact .inr ⟨code, by rw [encodeFrame_error hf]; decide, execEncode_error hi hx hf⟩
        | ok r => exact .inl ⟨_, execEncode_ok hi hx hf⟩
  | decode =>
    cases hi : s.inst with
    | none => exact noInst _ hi
    | some j =>
      cases hx : inputBytes j.mode s with
      | none => exact .inr ⟨.uninit, by decide, by simp [exec, execDecode, withInstance_some hi, hx]⟩
      | some x =>
        cases hf : decodeFrame s.params j.mode x j.cs.dec with
        | error code =>
          exact .inr ⟨code, by rcases decodeFrame_error hf with rfl | rfl <;> decide, execDecode_error hi hx hf⟩
        | ok r => exact .inl ⟨_, execDecode_ok hi hx hf⟩

/-- No command raises BUS. -/
theorem exec_ne_bus (i : Instr) (s left : State) : exec i s ≠ .fault (.bus left) := by
  intro h
  rcases exec_next_or_faultErr i s with ⟨t, ht⟩ | ⟨e, he, hf⟩
  · rw [ht] at h; cases h
  · rw [hf] at h; cases e <;> first | exact he rfl | cases h

/-! ## The host window -/

/-- The region an address lies in: the map's rows do not overlap (R70). -/
theorem regionAt_eq_some (a : Nat) (r : Region) :
    regionAt a = some r ↔ r ∈ windowMap ∧ r.base ≤ a ∧ a < r.base + r.size := by
  constructor
  · intro h
    have hp := List.find?_some h
    simp only [Bool.and_eq_true, decide_eq_true_eq] at hp
    exact ⟨List.mem_of_find?_eq_some h, hp⟩
  · rintro ⟨hr, hb, hs⟩
    cases hx : regionAt a with
    | none =>
      have := List.find?_eq_none.mp hx r hr
      simp only [Bool.and_eq_true, decide_eq_true_eq, not_and] at this
      exact absurd hs (this hb)
    | some r' =>
      have hp := List.find?_some hx
      simp only [Bool.and_eq_true, decide_eq_true_eq] at hp
      have hr' := List.mem_of_find?_eq_some hx
      simp only [windowMap, List.mem_cons, List.not_mem_nil, or_false] at hr hr'
      rcases hr with rfl | rfl | rfl | rfl | rfl | rfl | rfl <;>
        rcases hr' with rfl | rfl | rfl | rfl | rfl | rfl | rfl <;>
          first
            | rfl
            | (exfalso; simp only at hp hb hs; omega)

/-- The admitted accesses (R71 to R74). -/
theorem admitted_eq_some (isWrite : Bool) (a n : Nat) (r : Region) :
    admitted isWrite a n = some r ↔
      r ∈ windowMap ∧ r.base ≤ a ∧ a < r.base + r.size ∧ n = r.width ∧ a % r.width = 0 ∧
        (isWrite = true → r.writable = true) := by
  unfold admitted
  cases hx : regionAt a with
  | none =>
    simp only [reduceCtorEq, false_iff]
    rintro ⟨h1, h2, h3, -⟩
    rw [(regionAt_eq_some a r).mpr ⟨h1, h2, h3⟩] at hx
    cases hx
  | some r' =>
    have hr' := (regionAt_eq_some a r').mp hx
    simp only [Option.ite_none_right_eq_some, Option.some.injEq]
    constructor
    · rintro ⟨h, rfl⟩
      exact ⟨hr'.1, hr'.2.1, hr'.2.2, h⟩
    · rintro ⟨h1, h2, h3, h4⟩
      have : r' = r := by
        rw [(regionAt_eq_some a r).mpr ⟨h1, h2, h3⟩] at hx
        exact (Option.some.inj hx).symm
      subst this
      exact ⟨h4, rfl⟩

/-- A write of CMD performs the command its word names (R140). -/
theorem hostWrite_cmd (v : Nat) (s : State) : hostWrite 0 4 v s = commandWrite (BitVec.ofNat 32 v) s := by
  have h : admitted true 0 4 = some ⟨0x000, 4, 4, true, .cmd⟩ := by
    rw [admitted_eq_some]; simp [windowMap]
  simp [hostWrite, h]

/-- What a host write can do: BUS, a command, or a store into PCM_IN or BITS_IN. -/
theorem hostWrite_cases (a n v : Nat) (s : State) :
    (admitted true a n = none ∧ hostWrite a n v s = faultErr .bus s) ∨
    (n = 4 ∧ a = 0 ∧ hostWrite a n v s = commandWrite (BitVec.ofNat 32 v) s) ∨
    (n = 2 ∧ 0x100 ≤ a ∧ a < 0x380 ∧ a % 2 = 0 ∧
      hostWrite a n v s = .next (s.withMem (Memory.setSample s.mem a (BitVec.ofNat 16 v)))) ∨
    (n = 1 ∧ 0x800 ≤ a ∧ a < 0x807 ∧
      hostWrite a n v s = .next (s.withMem (Memory.set s.mem a (BitVec.ofNat 8 v)))) := by
  cases hx : admitted true a n with
  | none => exact .inl ⟨rfl, by simp [hostWrite, hx]⟩
  | some r =>
    have h := (admitted_eq_some true a n r).mp hx
    simp only [windowMap, List.mem_cons, List.not_mem_nil, or_false] at h
    obtain ⟨hr, hb, hs, hn, ha, hw⟩ := h
    rcases hr with rfl | rfl | rfl | rfl | rfl | rfl | rfl
    · exact .inr (.inl ⟨hn, by simp only at hb hs hn ha; omega, by simp [hostWrite, hx]⟩)
    · exact absurd (hw trivial) (by decide)
    · exact absurd (hw trivial) (by decide)
    · exact .inr (.inr (.inl ⟨hn, hb, by simpa using hs, ha, by simp [hostWrite, hx]⟩))
    · exact absurd (hw trivial) (by decide)
    · exact .inr (.inr (.inr ⟨hn, hb, by simpa using hs, by simp [hostWrite, hx]⟩))
    · exact absurd (hw trivial) (by decide)

/-- What a host read can do: BUS, UNINIT, or return an element (R75). -/
theorem hostRead_cases (a n : Nat) (s : State) :
    (admitted false a n = none ∧ hostRead a n s = faultErr .bus s) ∨
    (∃ r, admitted false a n = some r ∧ elementAt s r a = none ∧ hostRead a n s = faultErr .uninit s) ∨
    (∃ r v, admitted false a n = some r ∧ elementAt s r a = some v ∧ hostRead a n s = .next (s.withReadData (some v))) := by
  cases hx : admitted false a n with
  | none => exact .inl ⟨rfl, by simp [hostRead, hx]⟩
  | some r =>
    cases he : elementAt s r a with
    | none => exact .inr (.inl ⟨r, rfl, he, by simp [hostRead, hx, he]⟩)
    | some v => exact .inr (.inr ⟨r, v, rfl, he, by simp [hostRead, hx, he]⟩)

/-- What a write of CMD can do: ILLEGAL_CMD, or the command its word names. -/
theorem commandWrite_cases (w : Word) (s : State) :
    ((decodeWord w).toOption = none ∧ commandWrite w s = faultErr .illegalCmd (s.withCmd w)) ∨
    (∃ i, decodeWord w = .ok i ∧ commandWrite w s = exec i (s.withCmd w)) := by
  unfold commandWrite
  cases decodeWord w with
  | error e => exact .inl ⟨rfl, rfl⟩
  | ok i => exact .inr ⟨i, rfl, rfl⟩

/-- The step with an operation queued performs it on the state that no longer lists it. -/
theorem step_cons {s : State} {op : HostOp} {rest : List HostOp} (h : s.hostQueue = op :: rest) :
    step s = performOp op (s.withHostQueue rest) := by
  simp [step, performNext, h]

theorem step_nil {s : State} (h : s.hostQueue = []) : step s = .next s := by
  simp [step, performNext, h]

/-- The step with a write of CMD queued. -/
theorem step_command {s : State} {v : Nat} {rest : List HostOp} (h : s.hostQueue = .write 0x000 4 v :: rest) :
    step s = commandWrite (BitVec.ofNat 32 v) (s.withHostQueue rest) := by
  rw [step_cons h]
  exact hostWrite_cmd v _

/-- Everything a step can do that gives a next state: wait, a read, reset, a store into an input buffer, or a command. -/
theorem step_next_cases {s t : State} (h : step s = .next t) :
    (s.hostQueue = [] ∧ t = s) ∨
    ∃ op rest, s.hostQueue = op :: rest ∧
      ((op = .reset ∧ t = hardwareReset (s.withHostQueue rest)) ∨
      (∃ a n v, op = .read a n ∧ t = (s.withHostQueue rest).withReadData (some v)) ∨
      (∃ a v, op = .write a 2 v ∧ 0x100 ≤ a.toNat ∧ a.toNat < 0x380 ∧ a.toNat % 2 = 0 ∧
        t = (s.withHostQueue rest).withMem (Memory.setSample s.mem a.toNat (BitVec.ofNat 16 v))) ∨
      (∃ a v, op = .write a 1 v ∧ 0x800 ≤ a.toNat ∧ a.toNat < 0x807 ∧
        t = (s.withHostQueue rest).withMem (Memory.set s.mem a.toNat (BitVec.ofNat 8 v))) ∨
      (∃ v i, op = .write 0x000 4 v ∧ decodeWord (BitVec.ofNat 32 v) = .ok i ∧
        exec i ((s.withHostQueue rest).withCmd (BitVec.ofNat 32 v)) = .next t)) := by
  cases hq : s.hostQueue with
  | nil => exact .inl ⟨rfl, by simpa [step_nil hq, eq_comm] using h⟩
  | cons op rest =>
    rw [step_cons hq] at h
    refine .inr ⟨op, rest, rfl, ?_⟩
    cases op with
    | reset => exact .inl ⟨rfl, by simpa [performOp, eq_comm] using h⟩
    | read a n =>
      simp only [performOp] at h
      rcases hostRead_cases a.toNat n (s.withHostQueue rest) with ⟨-, he⟩ | ⟨r, -, -, he⟩ | ⟨r, v, -, -, he⟩
      · rw [he] at h; exact absurd h (faultErr_ne_next _ _ _)
      · rw [he] at h; exact absurd h (faultErr_ne_next _ _ _)
      · rw [he] at h
        exact .inr (.inl ⟨a, n, v, rfl, by simpa [eq_comm] using h⟩)
    | write a n v =>
      simp only [performOp] at h
      rcases hostWrite_cases a.toNat n v (s.withHostQueue rest) with
        ⟨-, he⟩ | ⟨hn, ha, he⟩ | ⟨hn, h1, h2, h3, he⟩ | ⟨hn, h1, h2, he⟩
      · rw [he] at h; exact absurd h (faultErr_ne_next _ _ _)
      · rw [he] at h
        have ha' : a = 0x000 := BitVec.eq_of_toNat_eq (by simpa using ha)
        subst ha' hn
        rcases commandWrite_cases (BitVec.ofNat 32 v) (s.withHostQueue rest) with ⟨-, hc⟩ | ⟨i, hd, hc⟩
        · rw [hc] at h; exact absurd h (faultErr_ne_next _ _ _)
        · rw [hc] at h
          exact .inr (.inr (.inr (.inr ⟨v, i, rfl, hd, h⟩)))
      · rw [he] at h; subst hn
        exact .inr (.inr (.inl ⟨a, v, rfl, h1, h2, h3, by simpa [eq_comm] using h⟩))
      · rw [he] at h; subst hn
        exact .inr (.inr (.inr (.inl ⟨a, v, rfl, h1, h2, by simpa [eq_comm] using h⟩)))

/-- Everything a step can do that does not give a next state: one faulting error, raised on the state that no longer lists
the operation, with CMD written if the operation was an admitted write of CMD. -/
theorem step_fault_cases {s : State} (h : ∀ t, step s ≠ .next t) :
    ∃ op rest e, s.hostQueue = op :: rest ∧
      (step s = faultErr e (s.withHostQueue rest) ∧ (e = .bus ∨ e = .uninit) ∨
       ∃ v, op = .write 0x000 4 v ∧ step s = faultErr e ((s.withHostQueue rest).withCmd (BitVec.ofNat 32 v))) := by
  cases hq : s.hostQueue with
  | nil => exact absurd (step_nil hq) (h s)
  | cons op rest =>
    cases op with
    | reset => exact absurd (step_cons hq) (h _)
    | read a n =>
      have hs := step_cons hq
      simp only [performOp] at hs
      rcases hostRead_cases a.toNat n (s.withHostQueue rest) with ⟨-, he⟩ | ⟨r, -, -, he⟩ | ⟨r, v, -, -, he⟩
      · exact ⟨_, _, .bus, rfl, .inl ⟨hs.trans he, .inl rfl⟩⟩
      · exact ⟨_, _, .uninit, rfl, .inl ⟨hs.trans he, .inr rfl⟩⟩
      · exact absurd (hs.trans he) (h _)
    | write a n v =>
      have hs := step_cons hq
      simp only [performOp] at hs
      rcases hostWrite_cases a.toNat n v (s.withHostQueue rest) with
        ⟨-, he⟩ | ⟨hn, ha, he⟩ | ⟨hn, h1, h2, h3, he⟩ | ⟨hn, h1, h2, he⟩
      · exact ⟨_, _, .bus, rfl, .inl ⟨hs.trans he, .inl rfl⟩⟩
      · have ha' : a = 0x000 := BitVec.eq_of_toNat_eq (by simpa using ha)
        subst ha' hn
        rcases commandWrite_cases (BitVec.ofNat 32 v) (s.withHostQueue rest) with ⟨-, hc⟩ | ⟨i, hd, hc⟩
        · exact ⟨_, _, .illegalCmd, rfl, .inr ⟨v, rfl, (hs.trans he).trans hc⟩⟩
        · rcases exec_next_or_faultErr i ((s.withHostQueue rest).withCmd (BitVec.ofNat 32 v)) with ⟨t, ht⟩ | ⟨e, -, hf⟩
          · exact absurd (((hs.trans he).trans hc).trans ht) (h t)
          · exact ⟨_, _, e, rfl, .inr ⟨v, rfl, ((hs.trans he).trans hc).trans hf⟩⟩
      · exact absurd (hs.trans he) (h _)
      · exact absurd (hs.trans he) (h _)

/-! ## What no command that completes changes -/

/-- A command that gives a next state leaves CMD, FAULT, the host's operations, its last read and the configuration. -/
theorem exec_next_keeps {i : Instr} {s t : State} (h : exec i s = .next t) :
    t.cmd = s.cmd ∧ t.fault = s.fault ∧ t.hostQueue = s.hostQueue ∧ t.readData = s.readData ∧ t.config = s.config := by
  cases i with
  | create m =>
    obtain ⟨-, rfl | ⟨-, rfl⟩ | ⟨m, -, rfl | ⟨-, rfl⟩⟩⟩ := execCreate_next h <;> exact ⟨rfl, rfl, rfl, rfl, rfl⟩
  | destroy => obtain ⟨i, -, rfl⟩ := execDestroy_next h; exact ⟨rfl, rfl, rfl, rfl, rfl⟩
  | getbits => obtain ⟨i, -, rfl⟩ := execGetbits_next h; exact ⟨rfl, rfl, rfl, rfl, rfl⟩
  | getsamples => obtain ⟨i, -, rfl⟩ := execGetsamples_next h; exact ⟨rfl, rfl, rfl, rfl, rfl⟩
  | encode => obtain ⟨i, x, e, b, -, -, -, rfl⟩ := execEncode_next h; exact ⟨rfl, rfl, rfl, rfl, rfl⟩
  | decode => obtain ⟨i, x, e, b, -, -, -, rfl⟩ := execDecode_next h; exact ⟨rfl, rfl, rfl, rfl, rfl⟩

/-! ## Host accesses -/

theorem admitted_eq_none (isWrite : Bool) (a n : Nat) :
    admitted isWrite a n = none ↔
      ¬ ∃ r, r ∈ windowMap ∧ r.base ≤ a ∧ a < r.base + r.size ∧ n = r.width ∧ a % r.width = 0 ∧
        (isWrite = true → r.writable = true) := by
  rw [Option.eq_none_iff_forall_ne_some]
  simp only [ne_eq, admitted_eq_some, not_exists]

/-- A step that is an admitted read of a written element (R75). -/
theorem step_read {s : State} {rest : List HostOp} {a : Addr} {n : Nat} {r : Region} {v : Word}
    (hq : s.hostQueue = .read a n :: rest) (ha : admitted false a.toNat n = some r)
    (he : elementAt (s.withHostQueue rest) r a.toNat = some v) :
    step s = .next ((s.withHostQueue rest).withReadData (some v)) := by
  rw [step_cons hq]
  simp [performOp, hostRead, ha, he]

/-- A step that is an admitted read of an element never written (R298). -/
theorem step_read_unwritten {s : State} {rest : List HostOp} {a : Addr} {n : Nat} {r : Region}
    (hq : s.hostQueue = .read a n :: rest) (ha : admitted false a.toNat n = some r)
    (he : elementAt (s.withHostQueue rest) r a.toNat = none) :
    step s = faultErr .uninit (s.withHostQueue rest) := by
  rw [step_cons hq]
  simp [performOp, hostRead, ha, he]

/-- A run of `n + 1` steps that ends well took a step and then ran `n`. -/
theorem run_succ {M : Host.Core} {n : Nat} {s t : M.State} (h : M.run (n + 1) s = .next t) :
    ∃ u, M.step s = .next u ∧ M.run n u = .next t := by
  rw [Host.Core.run] at h
  split at h
  · exact ⟨_, by assumption, h⟩
  · cases h
  · cases h

end Sys2Proof.Machine
end

