-- ==== Sys2Proof/Laws/Decode.lean ====
section
/-! SUPPORT. The laws of the command decoder: a word is its three fields, and what a word that decodes looks like. -/

namespace Sys2Proof

/-- A word is RSVD, MODE and OP side by side (R100). -/
theorem fields_word (w : Word) : w = fieldRsvd w ++ fieldMode w ++ fieldOp w := by
  unfold fieldRsvd fieldMode fieldOp
  apply BitVec.eq_of_getLsbD_eq
  intro i hi
  simp only [BitVec.getLsbD_append, BitVec.getLsbD_extractLsb']
  by_cases h1 : i < 8
  · simp [h1]
  · by_cases h2 : i - 8 < 4
    · simp [h1, h2, show 8 + (i - 8) = i by omega]
    · simp [h1, h2, show 12 + (i - 8 - 4) = i by omega, show i - 8 - 4 < 20 by omega]

/-- Everything a word that decodes can be. -/
theorem decodeWord_ok {w : Word} {i : Instr} (h : decodeWord w = .ok i) :
    fieldRsvd w = 0 ∧ ((fieldOp w = 1 ∧ i = .create (fieldMode w).toNat) ∨
      (fieldMode w = 0 ∧ ((fieldOp w = 2 ∧ i = .destroy) ∨ (fieldOp w = 3 ∧ i = .getbits) ∨
        (fieldOp w = 4 ∧ i = .getsamples) ∨ (fieldOp w = 5 ∧ i = .encode) ∨ (fieldOp w = 6 ∧ i = .decode)))) := by
  unfold decodeWord decodePlain at h
  split at h
  · cases h
  · rename_i h0
    refine ⟨not_not.mp h0, ?_⟩
    split_ifs at h <;> simp_all

/-- The fields of a word as numbers (R100). -/
theorem fields_toNat (w : Word) :
    (fieldOp w).toNat = w.toNat % 256 ∧ (fieldMode w).toNat = w.toNat / 256 % 16 ∧
      (fieldRsvd w).toNat = w.toNat / 2 ^ 12 := by
  have hw := w.isLt
  refine ⟨?_, ?_, ?_⟩ <;> simp only [fieldOp, fieldMode, fieldRsvd, BitVec.extractLsb'_toNat, Nat.shiftRight_eq_div_pow]
  · simp
  · omega

end Sys2Proof
end

