-- ==== Sys2Proof/Laws/PerInstr.lean ====
section
/-! SUPPORT. One family of statements made per command: the row of the command table. -/

namespace Sys2Proof.Laws.RowMatch

/-- The mask of a command's row (R104): CREATE leaves the MODE field free, every other command fixes all 32 bits. -/
def mask : Instr → Word
  | .create _ => 0xFFFFF0FF
  | .destroy => 0xFFFFFFFF
  | .getbits => 0xFFFFFFFF
  | .getsamples => 0xFFFFFFFF
  | .encode => 0xFFFFFFFF
  | .decode => 0xFFFFFFFF

/-- The match value of a command's row (R104). -/
def row : Instr → Word
  | .create _ => 0x00000001
  | .destroy => 0x00000002
  | .getbits => 0x00000003
  | .getsamples => 0x00000004
  | .encode => 0x00000005
  | .decode => 0x00000006

/-- The word of a well-formed command is selected by its own row. -/
def Statement (i : Instr) : Prop := i.wf = true → encodeWord i &&& mask i = row i

theorem create (mode : Nat) : Statement (.create mode) := by
  intro h
  have hm : mode < 16 := by simpa [Instr.wf] using h
  have key : ∀ m < 16, encodeWord (.create m) &&& mask (.create m) = row (.create m) := by decide
  exact key mode hm

theorem destroy : Statement .destroy := fun _ => by decide
theorem getbits : Statement .getbits := fun _ => by decide
theorem getsamples : Statement .getsamples := fun _ => by decide
theorem encode : Statement .encode := fun _ => by decide
theorem decode : Statement .decode := fun _ => by decide

end Sys2Proof.Laws.RowMatch
end

