-- ==== Sys2Proof/Tests/Slice0.lean ====
section
/-! SUPPORT. Tests: ill-formed terms refused, command words written out from the spec, the spec's own vectors
(95_test_vectors.md) on its stub collaborators, and for every obligation with hypotheses a state that meets them. -/

namespace Sys2Proof.Tests

open Sys2Proof.Machine Sys2Proof.Safety

/-! ## Helpers -/

/-- A block built with a test stub, right after reset. -/
def block (v : StubVariant) : State := { State.reset with config := ⟨false, .stub v⟩ }

/-- Such a block with an instance at session start. -/
def ready (v : StubVariant) (m : FrameMode) : State := { block v with inst := some ⟨m, sessionStart (stubOf v)⟩ }

/-- The cells of samples from address `a` on. -/
def sampleCells (a : Nat) : List Sample → Memory
  | [] => []
  | x :: xs => (a, x.extractLsb' 0 8) :: (a + 1, x.extractLsb' 8 8) :: sampleCells (a + 2) xs

/-- With samples in PCM_IN[0..] and nothing else written. -/
def withPcm (x : List Sample) (s : State) : State := { s with mem := sampleCells 0x100 x }

/-- With bytes in BITS_IN[0..] and nothing else written. -/
def withBits (b : List Byte) (s : State) : State := { s with mem := Memory.writeBytes [] 0x800 b }

/-- With host operations to come. -/
def queued (q : List HostOp) (s : State) : State := { s with hostQueue := q }

/-- The outcome is a next state. -/
def isNext : Host.Outcome State Fault Refusal → Bool
  | .next _ => true
  | .fault _ => false
  | .refused _ => false

/-- The next state of an outcome that has one. -/
def after : Host.Outcome State Fault Refusal → State
  | .next t => t
  | .fault _ => State.reset
  | .refused _ => State.reset

theorem eq_next {o : Host.Outcome State Fault Refusal} (h : isNext o = true) : o = .next (after o) := by
  cases o <;> first | rfl | cases h

/-- The fault of an outcome that is one. -/
def faultOf : Host.Outcome State Fault Refusal → Option Fault
  | .next _ => none
  | .fault r => some r
  | .refused _ => none

/-- The STATUS word after an outcome, of the next state or of the record a fault leaves. -/
def statusAfter : Host.Outcome State Fault Refusal → Word
  | .next t => statusWord t
  | .fault r => (faultRegisters r).status
  | .refused _ => 0

/-- What a host read returned, or the STATUS word of its fault. -/
def readAfter : Host.Outcome State Fault Refusal → Option Word
  | .next t => t.readData
  | .fault _ => none
  | .refused _ => none

def bytesOf (l : List Nat) : List Byte := l.map (BitVec.ofNat 8)

/-! ## Well-formedness: an ill-formed term for each check -/

theorem test_wf_mode_too_wide : (Instr.create 16).wf = false := by decide
theorem test_wf_mode_widest : (Instr.create 15).wf = true := by decide
theorem test_wf_write_too_wide : (HostOp.write 0x100 2 0x10000).wf = false := by decide
theorem test_wf_write_widest : (HostOp.write 0x100 2 0xFFFF).wf = true := by decide

/-! ## Command words, bit by bit from R100 and R101: RSVD (20 bits), MODE (4), OP (8) -/

theorem test_decode_create_a : decodeWord 0b00000000000000000000_0000_00000001 = .ok (.create 0) := by decide
theorem test_decode_create_c : decodeWord 0b00000000000000000000_0010_00000001 = .ok (.create 2) := by decide
theorem test_decode_create_15 : decodeWord 0b00000000000000000000_1111_00000001 = .ok (.create 15) := by decide
theorem test_decode_destroy : decodeWord 0b00000000000000000000_0000_00000010 = .ok .destroy := by decide
theorem test_decode_getbits : decodeWord 0b00000000000000000000_0000_00000011 = .ok .getbits := by decide
theorem test_decode_getsamples : decodeWord 0b00000000000000000000_0000_00000100 = .ok .getsamples := by decide
theorem test_decode_encode : decodeWord 0b00000000000000000000_0000_00000101 = .ok .encode := by decide
theorem test_decode_decode : decodeWord 0b00000000000000000000_0000_00000110 = .ok .decode := by decide
/-- TV-C6 to TV-C11. -/
theorem test_decode_undefined :
    decodeWord 0x00001001 = .error .rsvdNotZero ∧ decodeWord 0x80000001 = .error .rsvdNotZero ∧
    decodeWord 0x00000000 = .error .opUndefined ∧ decodeWord 0x00000007 = .error .opUndefined ∧
    decodeWord 0x000000FF = .error .opUndefined ∧ decodeWord 0x00000105 = .error .modeNotZero := by decide
theorem test_encode_words :
    encodeWord (.create 1) = 0x101 ∧ encodeWord (.create 7) = 0x701 ∧ encodeWord .destroy = 0x002 ∧
    encodeWord .getbits = 0x003 ∧ encodeWord .getsamples = 0x004 ∧ encodeWord .encode = 0x005 ∧
    encodeWord .decode = 0x006 := by decide
/-- The opcode table's numbering: one 32-bit word. -/
theorem test_decode_table_word : decodeTableWord 32 0x201 = some (.create 2) ∧ decodeTableWord 32 0x107 = none := by decide

/-! ## Commands that touch no audio -/

/-- TV-C1 to TV-C5. -/
theorem test_create_status :
    statusAfter (exec (.create 0) (block .plain)) = 0x01 ∧ statusAfter (exec (.create 1) (block .plain)) = 0x05 ∧
    statusAfter (exec (.create 2) (block .plain)) = 0x09 ∧ statusAfter (exec (.create 3) (block .plain)) = 0x13C ∧
    statusAfter (exec (.create 15) (block .plain)) = 0x13C := by decide +kernel
/-- TV-C16, TV-C17. -/
theorem test_create_while_ready :
    statusAfter (exec (.create 0) (ready .plain .B)) = 0x1505 ∧
    statusAfter (exec (.create 3) (ready .plain .B)) = 0x1505 := by decide +kernel
/-- TV-C12, TV-C18. -/
theorem test_destroy_status :
    statusAfter (exec .destroy (ready .plain .C)) = 0x3C ∧ statusAfter (exec .destroy (block .plain)) = 0x133C := by
  decide +kernel
/-- TV-G1, TV-G3, TV-G5, TV-C13. -/
theorem test_getbits :
    (after (exec .getbits (ready .plain .A))).result = 48 ∧ (after (exec .getbits (ready .plain .B))).result = 56 ∧
    (after (exec .getbits (ready .plain .C))).result = 48 ∧ statusAfter (exec .getbits (block .plain)) = 0x133C := by
  decide +kernel
/-- TV-G2, TV-G4, TV-G6. -/
theorem test_getsamples :
    (after (exec .getsamples (ready .plain .A))).result = 160 ∧
    (after (exec .getsamples (ready .plain .B))).result = 320 ∧
    (after (exec .getsamples (ready .plain .C))).result = 320 := by decide +kernel

/-! ## The host window (TV-B) -/

/-- One access on a block right after reset. -/
def access (op : HostOp) : Host.Outcome State Fault Refusal := step (queued [op] (block .plain))

/-- TV-B1 to TV-B3. -/
theorem test_read_registers :
    readAfter (access (.read 0x000 4)) = some 0 ∧ readAfter (access (.read 0x004 4)) = some 0x3C ∧
    readAfter (access (.read 0x008 4)) = some 0 := by decide
/-- TV-B4 to TV-B8, TV-B11, TV-B12, TV-B14, TV-B15, TV-B17, TV-B18, TV-B20, TV-B21. -/
theorem test_bus_errors :
    ∀ op ∈ ([.read 0x004 2, .read 0x002 4, .write 0x004 4 0, .write 0x008 4 0, .read 0x00C 4, .write 0x101 2 1,
      .read 0x100 4, .read 0x380 2, .write 0x400 2 0, .write 0x807 1 0, .write 0x810 1 0, .read 0x817 1,
      .write 0x000 2 1] : List HostOp), statusAfter (access op) = 0x163C := by decide
/-- TV-B9, TV-B19. -/
theorem test_uninit_reads :
    statusAfter (access (.read 0x100 2)) = 0x193C ∧ statusAfter (access (.read 0x816 1)) = 0x193C := by decide
/-- TV-B10, TV-B13, TV-B16. -/
theorem test_write_then_read :
    readAfter (step (after (step (queued [.write 0x100 2 0xFF9C, .read 0x100 2] (block .plain))))) = some 0xFF9C ∧
    readAfter (step (after (step (queued [.write 0x37E 2 7, .read 0x37E 2] (block .plain))))) = some 7 ∧
    readAfter (step (after (step (queued [.write 0x806 1 0xAA, .read 0x806 1] (block .plain))))) = some 0xAA := by decide
/-- TV-X1, TV-X2, TV-C21: the CMD register and the priority of checks. -/
theorem test_command_write :
    statusAfter (step (queued [.write 0x000 2 5] (ready .plain .A))) = 0x1601 ∧
    statusAfter (access (.write 0x000 4 0x1002)) = 0x143C ∧
    (faultOf (access (.write 0x000 4 0x1002))).map (fun r => (faultRegisters r).cmd) = some 0x1002 := by decide +kernel

/-! ## The bit packer (TV-P) -/

def fieldsA (v0 v1 woe : Nat) (lsp : List Nat) (spare : Nat) : FieldList :=
  [(.voicing 0, v0), (.voicing 1, v1), (.woe 1, woe)] ++ lspFields 0 lsp ++ [(.spare, spare)]

def fieldsB (v0 v1 woe1 v2 v3 woe2 : Nat) (lsp : List Nat) : FieldList :=
  [(.voicing 0, v0), (.voicing 1, v1), (.woe 1, woe1), (.voicing 2, v2), (.voicing 3, v3), (.woe 2, woe2)] ++
    lspFields 0 lsp

def packed (m : FrameMode) (f : FieldList) : Option (List Byte) := (packFrame stubParams m f).toOption

/-- TV-P1, TV-P2. -/
theorem test_pack_one : packField (bytesOf [0, 0]) 6 4 0xB = .ok (bytesOf [0x02, 0xC0]) := by decide
theorem test_unpack_one : unpackField (bytesOf [0x02, 0xC0]) 6 4 = 0xB := by decide
/-- TV-P3. -/
theorem test_pack_a : packed .A (fieldsA 1 0 0xA5 [1, 2, 3, 4, 5, 6, 7, 5, 6, 3] 0) =
    some (bytesOf [0xA9, 0x44, 0x8D, 0x15, 0x9E, 0xEC]) := by decide +kernel
/-- TV-P4. -/
theorem test_pack_b : packed .B (fieldsB 0 1 0x3C 1 1 0xFF [15, 15, 15, 15, 15, 15, 15, 7, 7, 3]) =
    some (bytesOf [0x4F, 0x3F, 0xFF, 0xFF, 0xFF, 0xFF, 0xFF]) := by decide +kernel
/-- TV-P5. -/
theorem test_pack_c : packed .C (fieldsB 1 1 0 0 0 0x81 [0x1FF, 0, 0x155] ++ [(.spare, 0)]) =
    some (bytesOf [0xC0, 0x08, 0x1F, 0xF8, 0x02, 0xAA]) := by decide +kernel
/-- TV-P14. -/
theorem test_unpack_c_spare : unpackFrame stubParams .C (bytesOf [0xC0, 0x08, 0x1F, 0xF8, 0x02, 0xAB]) =
    fieldsB 1 1 0 0 0 0x81 [0x1FF, 0, 0x155] ++ [(.spare, 1)] := by decide +kernel
/-- TV-P15. -/
theorem test_unpack_a_ones : unpackFrame stubParams .A (List.replicate 6 0xFF) =
    fieldsA 1 1 255 [15, 15, 15, 15, 15, 15, 15, 7, 7, 3] 3 := by decide +kernel
/-- TV-P14 and TV-P15, repacked: the spare positions come back 0 (R177). -/
theorem test_repack_spare :
    packed .C (unpackFrame stubParams .C (bytesOf [0xC0, 0x08, 0x1F, 0xF8, 0x02, 0xAB])) =
      some (bytesOf [0xC0, 0x08, 0x1F, 0xF8, 0x02, 0xAA]) ∧
    packed .A (unpackFrame stubParams .A (List.replicate 6 0xFF)) =
      some (bytesOf [0xFF, 0xFF, 0xFF, 0xFF, 0xFF, 0xFC]) := by decide +kernel
/-- TV-P16. -/
theorem test_pack_collab :
    packField (List.replicate 6 0) 2 8 256 = .error .collab ∧ packField (List.replicate 6 0) 44 2 4 = .error .collab ∧
    packField (List.replicate 2 0) 0 1 1 = .ok (bytesOf [0x80, 0]) := by decide

/-! ## ENCODE (TV-E) -/

def pcmA : List Sample := List.replicate 80 100 ++ List.replicate 80 (-100)
def pcmC : List Sample := List.replicate 320 100

/-- What ENCODE gives for a frame: the bytes, `pred_enc` and `ana_ctx`. -/
def encoded (m : FrameMode) (x : List Sample) (e : EncState) : Option (List Byte × Nat × Nat) :=
  (encodeFrame stubParams m x e).toOption.map fun r => (r.2, r.1.predEnc.code, r.1.anaCtx.code)

def startEnc : EncState := (sessionStart stubParams).enc

/-- TV-E1, TV-E2 (from the `pred_enc` and `ana_ctx` TV-E1 left), TV-E5. -/
theorem test_encode_vectors :
    encoded .A pcmA startEnc = some (bytesOf [0x80, 0x40, 0x48, 0xC0, 0x49, 0x84], 1, 2) ∧
    encoded .A pcmA ⟨startEnc.hist, ⟨2⟩, ⟨1⟩⟩ = some (bytesOf [0x80, 0x80, 0x48, 0xC0, 0x49, 0x84], 2, 4) ∧
    encoded .C pcmC startEnc = some (bytesOf [0xC0, 0x70, 0x20, 0x28, 0x18, 0x0E], 2, 4) := by decide +kernel
/-- TV-E1 with TV-E7 (PCM_IN[160..319] unwritten), TV-E6, TV-E9, TV-E10. -/
theorem test_encode_step :
    Memory.get (after (exec .encode (withPcm pcmA (ready .plain .A)))).mem 0x810 = some 0x80 ∧
    statusAfter (exec .encode (withPcm (pcmA.take 159) (ready .plain .A))) = 0x1901 ∧
    statusAfter (exec .encode (withPcm pcmA (ready .woeIndexTooLarge .A))) = 0x1701 ∧
    statusAfter (exec .encode (withPcm pcmA (ready .lspIndexTooLarge .A))) = 0x1701 := by decide +kernel

/-! ## Saturation (TV-D1 to TV-D16) -/

theorem test_saturate :
    ([(40000, 32767), (-40000, -32767), (32767, 32767), (65535 / 2, 32767), (-32767, -32767), (-65535 / 2, -32767),
      (-32768, -32767), (129 / 10, 12), (-129 / 10, -12), (1 / 2, 0), (-1 / 2, 0)] : List (Rat × Int)).all
      (fun c => saturate stubParams (.finite c.1) = .ok c.2) = true := by decide +kernel
theorem test_saturate_special :
    saturate stubParams .posInf = .ok 32767 ∧ saturate stubParams .negInf = .ok (-32767) ∧
    saturate stubParams .negZero = .ok 0 ∧ saturate stubParams .nan = .error .numeric := by decide +kernel

/-! ## DECODE (TV-D, TV-X, programs P3 and P5) -/

def bitsB : List Byte := bytesOf [0xC3, 0xD1, 0xF0, 0, 0, 0, 0]

/-- What DECODE gives for a frame: some of its samples, and `pred_dec`, `ola`, and L and voicing of `prev_model`. -/
def decoded (m : FrameMode) (b : List Byte) (d : DecState) (at_ : List Nat) :
    Option (List Int × Nat × Nat × Nat × Bool) :=
  (decodeFrame stubParams m b d).toOption.map fun r =>
    (at_.map fun i => (r.1.getD i 0).toInt, r.2.predDec.code, r.2.ola.code, r.2.prevModel.l, r.2.prevModel.voiced)

def startDec : DecState := (sessionStart stubParams).dec

/-- TV-D17, which is program P3, frame 1; and frame 2, the same bits from the state the spec gives after frame 1. -/
theorem test_decode_vectors :
    decoded .B bitsB startDec [0, 1, 160, 161, 240, 241] =
      some ([32767, -32767, 24000, -24000, 18000, -18000], 2, 4, 12, true) ∧
    decoded .B bitsB ⟨⟨2⟩, ⟨.finite (1 / 4), 12, stubAmps 12, true⟩, stubLsps, .finite 16, ⟨4⟩, ⟨4⟩, ⟨4⟩⟩ [0, 1, 80, 160, 241] =
      some ([24000, -24000, 32767, 24000, -18000], 4, 8, 12, true) := by decide +kernel
/-- TV-D17 at the state; TV-D21, TV-D18, TV-D19, TV-D23, TV-D24, program P5. -/
theorem test_decode_step :
    Memory.get (after (exec .decode (withBits bitsB (ready .plain .B)))).mem 0x400 = some 0xFF ∧
    statusAfter (exec .decode (withBits (bitsB.take 5) (ready .plain .B))) = 0x1905 ∧
    statusAfter (exec .decode (withBits bitsB (ready .woZero .B))) = 0x1705 ∧
    statusAfter (exec .decode (withBits bitsB (ready .energyNegative .B))) = 0x1705 ∧
    statusAfter (exec .decode (withBits bitsB (ready .sampleNaN .B))) = 0x1805 ∧
    statusAfter (exec .decode (withBits bitsB (ready .lspTie .B))) = 0x1705 ∧
    statusAfter (exec .decode (withBits (bytesOf [0xC0, 0x70, 0x20, 0x28, 0x18, 0x0E]) (ready .plain .C))) = 0x1709 := by
  decide +kernel
/-- TV-D20. -/
theorem test_unpack_wrong_mode : unpackFrame stubParams .C (bytesOf [0xA9, 0x44, 0x8D, 0x15, 0x9E, 0xEC]) =
    fieldsB 1 0 165 0 0 72 [418, 359, 374] ++ [(.spare, 0)] := by decide +kernel
/-- TV-I1, TV-I3. -/
theorem test_lerp :
    lerp stubParams stubParams.resetLsp stubLsps (.finite (1 / 4)) = vecOf (fun i => 5 * ((i : Rat) + 1) / 128) ∧
    lerp stubParams stubParams.resetLsp stubLsps (.finite (3 / 4)) = vecOf (fun i => 7 * ((i : Rat) + 1) / 128) := by
  decide +kernel
/-- TV-I7 to TV-I11: Wo at 2π/160, 2π/20, 0.125, π, 3.2 and 0.015625. -/
theorem test_harmonics :
    harmonics stubParams (b32Round (2 * 13176795 / 4194304 / 160)) = .ok 80 ∧
    harmonics stubParams (b32Round (2 * 13176795 / 4194304 / 20)) = .ok 10 ∧
    harmonics stubParams (.finite (1 / 8)) = .ok 25 ∧ harmonics stubParams stubParams.pi = .ok 1 ∧
    harmonics stubParams (b32Round (32 / 10)) = .error .collab ∧
    harmonics stubParams (.finite (1 / 64)) = .error .collab := by decide +kernel

/-! ## How a program comes to run (log 1) -/

/-- The host's write of CMD, as `withFetchWord` queues it, performs the command. -/
theorem test_fetch_word :
    statusAfter (step (State.reset.withFetchWord 32 0x301)) = 0x13C ∧
    statusAfter (step (State.reset.withFetchWord 32 0x002)) = 0x133C := by decide

/-! ## Witnesses: for each obligation with hypotheses, values that meet them together

`witness_X_y` belongs to clause `y` of `Obligations.X`. -/

theorem getSample_sampleCells (a n : Nat) (x : List Sample) :
    Memory.getSample (sampleCells a x) (a + 2 * n) = x[n]? := by
  induction x generalizing a n with
  | nil => rfl
  | cons y ys ih =>
    cases n with
    | zero => simp [sampleCells, Memory.getSample, Memory.get, Memory.joinSample]
    | succ n =>
      have := ih (a + 2) n
      rw [show a + 2 + 2 * n = a + 2 * (n + 1) by omega] at this
      simp only [List.getElem?_cons_succ, ← this, sampleCells]
      apply Memory.getSample_congr <;> simp only [Memory.get] <;> rw [if_neg (by omega), if_neg (by omega)]

theorem witness_ResetInputRestoresAndAloneClearsFault :
    (queued [.reset] (block .plain)).hostQueue = .reset :: [] ∧
    ∃ s t, step s = .next t ∧ s.fault = true ∧ t.fault = false :=
  ⟨rfl, { queued [.reset] (block .plain) with fault := true }, _, rfl, rfl, rfl⟩

theorem witness_UndefinedWordsFaultIllegalCmd :
    ∀ v ∈ [0x1000, 0xFFFFF001, 0x00, 0x07, 0xFF, 0x102, 0xF06], ∃ s : State,
      s.hostQueue = .write 0x000 4 v :: [] ∧ (decodeWord (BitVec.ofNat 32 v)).toOption = none := by
  have h : ∀ v ∈ [0x1000, 0xFFFFF001, 0x00, 0x07, 0xFF, 0x102, 0xF06],
    (decodeWord (BitVec.ofNat 32 v)).toOption = none := by decide
  exact fun v hv => ⟨queued [.write 0x000 4 v] State.reset, rfl, h v hv⟩

theorem witness_StepRunsDecodedCommand :
    (queued [.write 0x000 4 0xF01] State.reset).hostQueue = .write 0x000 4 0xF01 :: [] ∧
    decodeWord (BitVec.ofNat 32 0xF01) = .ok (.create 15) ∧ decodeTableWord 32 0x006 = some .decode := by decide

theorem witness_IdleStepChangesNothing : State.reset.hostQueue = [] := rfl

/-- CMD reads back after a next state and after a fault. -/
theorem witness_CommandWordReadsBack :
    (∃ t, step (queued [.write 0x000 4 0x301] (block .plain)) = .next t) ∧
    ∃ r, step (queued [.write 0x000 4 0xFFFFFFFF] (block .plain)) = .fault r := ⟨⟨_, rfl⟩, ⟨_, rfl⟩⟩

/-- A block whose CREATE takes a draw: draw 0 is true, draw 1 is false. -/
def drawing (n : Nat) : State := { State.reset with config := ⟨true, .stub .plain⟩, draws := n }

theorem witness_CreateStartsSession :
    (block .plain).inst = none ∧ (block .plain).config.createMayFail = false ∧
    (drawing 1).inst = none ∧ (drawing 1).params.failDraw (drawing 1).draws = false := ⟨rfl, rfl, rfl, rfl⟩

theorem witness_CreateUnsupportedModeOnlySetsErr : (block .plain).inst = none ∧ 2 < 3 ∧ 2 < 15 := by decide

theorem witness_CreateFailedDrawOnlySetsErr :
    (drawing 0).inst = none ∧ 0 ≤ 2 ∧ 2 ≤ 2 ∧ (drawing 0).config.createMayFail = true ∧
    (drawing 0).params.failDraw (drawing 0).draws = true := ⟨rfl, by decide, by decide, rfl, rfl⟩

theorem witness_CreateWhileReadyFaults : (ready .plain .A).inst.isSome = true := rfl

theorem witness_CommandsWithoutInstanceFault :
    (block .plain).inst = none ∧ Instr.decode ∈ [Instr.destroy, .getbits, .getsamples, .encode, .decode] := by decide

theorem witness_DestroyEndsInstance : (ready .plain .C).inst.isSome = true := rfl

theorem witness_SessionStartForgetsEarlierSession :
    ∃ u t, (ready .plain .B).inst.isSome = true ∧ (ready .plain .B).config.createMayFail = false ∧ 2 ≤ 2 ∧
      exec .destroy (ready .plain .B) = .next u ∧ exec (.create 2) u = .next t :=
  ⟨_, _, rfl, rfl, le_rfl, rfl, rfl⟩

theorem witness_GetbitsReportsBits :
    ∀ m, (ready .plain m).inst = some ⟨m, sessionStart stubParams⟩ := fun _ => rfl

theorem witness_GetsamplesReportsSamples :
    ∀ m, (ready .plain m).inst = some ⟨m, sessionStart stubParams⟩ := fun _ => rfl

/-- A field ending at the last position; the least value that does not fit and the greatest that does. -/
theorem witness_PackWritesExactlyItsPositions :
    46 + 2 ≤ 8 * (List.replicate 6 (0 : Byte)).length ∧ 2 ^ 2 ≤ 4 ∧ 3 < 2 ^ 2 := by decide

/-- The first and the last position of a frame of mode A; a field of 6 bits, of which two buffers that differ agree. -/
theorem witness_UnpackReadsItsPositions :
    0 < 8 * (List.replicate 6 (0 : Byte)).length ∧ 47 < 8 * (List.replicate 6 (0 : Byte)).length ∧
    0 < 1 ∧ 7 < 8 ∧ 255 < 2 ^ 8 ∧
    ∀ q, 0 ≤ q → q < 0 + 6 → getBit (bytesOf [0xFC]) q = getBit (bytesOf [0xFF]) q := by
  refine ⟨by decide, by decide, by decide, by decide, by decide, fun q _ hq => ?_⟩
  have : ∀ q < 6, getBit (bytesOf [0xFC]) q = getBit (bytesOf [0xFF]) q := by decide
  exact this q (by omega)

/-- The first and the last sub-field of the LSP set, scalar and vector. -/
theorem witness_LayoutPositions :
    stubParams.lspScalarWidths[0]? = some 4 ∧ stubParams.lspScalarWidths[9]? = some 2 ∧
    stubParams.lspVqWidths[0]? = some 9 ∧ stubParams.lspVqWidths[2]? = some 9 := by decide

/-- A list whose spare value is not 0. -/
theorem witness_UnpackOfPackFrame_spare :
    (fieldsA 1 1 255 [15, 15, 15, 15, 15, 15, 15, 7, 7, 3] 3).map Prod.fst = (layout stubParams .A).map Prod.fst ∧
    fieldsFit stubParams .A (fieldsA 1 1 255 [15, 15, 15, 15, 15, 15, 15, 7, 7, 3] 3) := by decide +kernel

/-- Every field at its maximum and the spare field 0 (R173) in modes A (TV-P7), B (TV-P8) and C (TV-P9). -/
theorem witness_UnpackOfPackFrame :
    (∀ f ∈ fieldsA 1 1 255 [15, 15, 15, 15, 15, 15, 15, 7, 7, 3] 0, f.1 = .spare → f.2 = 0) ∧
    (∀ f ∈ fieldsB 1 1 255 1 1 255 [511, 511, 511] ++ [(FieldName.spare, 0)], f.1 = .spare → f.2 = 0) ∧
    ((fieldsA 1 1 255 [15, 15, 15, 15, 15, 15, 15, 7, 7, 3] 0).map Prod.fst = (layout stubParams .A).map Prod.fst ∧
      fieldsFit stubParams .A (fieldsA 1 1 255 [15, 15, 15, 15, 15, 15, 15, 7, 7, 3] 0)) ∧
    ((fieldsB 1 1 255 1 1 255 [15, 15, 15, 15, 15, 15, 15, 7, 7, 3]).map Prod.fst =
        (layout stubParams .B).map Prod.fst ∧
      fieldsFit stubParams .B (fieldsB 1 1 255 1 1 255 [15, 15, 15, 15, 15, 15, 15, 7, 7, 3])) ∧
    ((fieldsB 1 1 255 1 1 255 [511, 511, 511] ++ [(FieldName.spare, 0)]).map Prod.fst = (layout stubParams .C).map Prod.fst ∧
      fieldsFit stubParams .C (fieldsB 1 1 255 1 1 255 [511, 511, 511] ++ [(FieldName.spare, 0)])) := by decide +kernel

theorem witness_PackOfUnpackFrame :
    ∀ m, (List.replicate (bytesPerFrame m) (0xFF : Byte)).length = bytesPerFrame m := fun m => by simp

theorem witness_SubfieldsPackAsOneValue :
    (∀ f ∈ [(4, 15), (3, 0), (2, 3)], f.2 < 2 ^ f.1) ∧
    7 + ([(4, 15), (3, 0), (2, 3)].map Prod.fst).sum ≤ 8 * (bytesOf [0, 0]).length := by decide

theorem witness_HistoryShift :
    startEnc.hist.length = stubParams.nHist ∧ (pcmA.take 80).length = 80 ∧ 239 + 80 < stubParams.nHist ∧ 79 < 80 := by
  decide +kernel

/-- The first and the last sample of mode A's frame missing. -/
theorem witness_EncodeUnwrittenInputFaults :
    (ready .plain .A).inst = some ⟨.A, sessionStart stubParams⟩ ∧
    (0 < samplesPerFrame .A ∧ Memory.getSample (ready .plain .A).mem (0x100 + 2 * 0) = none) ∧
    (159 < samplesPerFrame .A ∧
      Memory.getSample (withPcm (pcmA.take 159) (ready .plain .A)).mem (0x100 + 2 * 159) = none) :=
  ⟨rfl, ⟨by decide, rfl⟩, by decide, by rw [withPcm, getSample_sampleCells]; decide⟩

/-- What `EncodeCompletes` and `EncodeIndexTooLargeFaults` share: an instance and its input. -/
def encodeInput (v : StubVariant) (m : FrameMode) (x : List Sample) : Prop :=
  (withPcm x (ready v m)).inst = some ⟨m, sessionStart (stubOf v)⟩ ∧ x.length = samplesPerFrame m ∧
  ∀ n < samplesPerFrame m, Memory.getSample (withPcm x (ready v m)).mem (0x100 + 2 * n) = x[n]?

theorem encodeInput_of_length (v : StubVariant) (m : FrameMode) (x : List Sample)
    (h : x.length = samplesPerFrame m) : encodeInput v m x :=
  ⟨rfl, h, fun n _ => getSample_sampleCells 0x100 n x⟩

theorem witness_EncodeCompletes_A : encodeInput .plain .A pcmA ∧
    encodeContract (withPcm pcmA (ready .plain .A)).params .A pcmA (sessionStart stubParams).enc :=
  ⟨encodeInput_of_length _ _ _ (by decide +kernel), by decide +kernel⟩

theorem witness_EncodeCompletes_B : encodeInput .plain .B pcmC ∧
    encodeContract (withPcm pcmC (ready .plain .B)).params .B pcmC (sessionStart stubParams).enc :=
  ⟨encodeInput_of_length _ _ _ (by decide +kernel), by decide +kernel⟩

theorem witness_EncodeCompletes_C : encodeInput .plain .C pcmC ∧
    encodeContract (withPcm pcmC (ready .plain .C)).params .C pcmC (sessionStart stubParams).enc :=
  ⟨encodeInput_of_length _ _ _ (by decide +kernel), by decide +kernel⟩

theorem witness_EncodeIndexTooLargeFaults :
    (encodeInput .woeIndexTooLarge .A pcmA ∧
      ¬ encodeContract (stubOf .woeIndexTooLarge) .A pcmA (sessionStart (stubOf .woeIndexTooLarge)).enc) ∧
    (encodeInput .lspIndexTooLarge .A pcmA ∧
      ¬ encodeContract (stubOf .lspIndexTooLarge) .A pcmA (sessionStart (stubOf .lspIndexTooLarge)).enc) :=
  ⟨⟨encodeInput_of_length _ _ _ (by decide +kernel), by decide +kernel⟩,
    encodeInput_of_length _ _ _ (by decide +kernel), by decide +kernel⟩

/-- An ENCODE that gives a next state. -/
def beforeEncode : State := withPcm pcmA (ready .plain .A)

theorem encode_next : exec .encode beforeEncode = .next (after (exec .encode beforeEncode)) :=
  eq_next (by decide +kernel)

theorem witness_EncodeFrameCondition : ∃ t, exec .encode beforeEncode = .next t := ⟨_, encode_next⟩

/-- Two states that differ in CMD, FAULT and BITS_IN. -/
theorem witness_EncodeDependsOnlyOnItsInputs : ∃ s' : State, s' ≠ beforeEncode ∧
    beforeEncode.inst = s'.inst ∧ beforeEncode.params = s'.params ∧
    (∀ n < 160, Memory.getSample beforeEncode.mem (0x100 + 2 * n) = Memory.getSample s'.mem (0x100 + 2 * n)) ∧
    ∃ t, exec .encode beforeEncode = .next t :=
  ⟨{ beforeEncode with cmd := 5, fault := true }, fun h => absurd (congrArg State.fault h) (by decide), rfl, rfl,
    fun _ _ => rfl, _, encode_next⟩

/-- Finite samples at the bounds and beyond them. -/
theorem witness_SaturationRule :
    (Numeric.finite 32767).toRat? = some 32767 ∧ (-32767 : Rat) ≤ 32767 ∧ (32767 : Rat) ≤ 32767 ∧
    (Numeric.finite (65535 / 2)).toRat? = some (65535 / 2) ∧ (32767 : Rat) < 65535 / 2 ∧
    (Numeric.finite (-32768)).toRat? = some (-32768) ∧ (-32768 : Rat) < -32767 ∧
    Numeric.negZero.toRat? = some 0 := by
  refine ⟨rfl, by norm_num, le_rfl, rfl, by norm_num, rfl, by norm_num, rfl⟩

/-- The trajectory of TV-I5. -/
theorem witness_TrajectoryTable :
    harmonics stubParams (.finite (1 / 8)) = .ok 25 ∧ harmonics stubParams (.finite (1 / 4)) = .ok 12 ∧
    (stubParams.interpWo ⟨.finite (1 / 8), 25, false⟩ true ⟨.finite (1 / 8), 25, true⟩
      (.finite (1 / 2))).1.finitePositive = true ∧
    (stubParams.interpE (.finite 1) (.finite 4) (.finite (1 / 2))).finitePositive = true ∧
    (stubParams.interpWo ⟨.finite (1 / 8), 25, true⟩ false ⟨.finite (1 / 4), 12, true⟩
      (.finite (1 / 2))).1.finitePositive = true ∧
    (stubParams.interpWo ⟨.finite (1 / 8), 25, true⟩ false ⟨.finite (1 / 4), 12, true⟩ (.finite (1 / 2))).2 = false ∧
    (stubParams.interpE (.finite 4) (.finite 16) (.finite (1 / 2))).finitePositive = true := by decide +kernel

theorem between_left {a b : Numeric} (ha : a.isNaN = false) (hb : b.isNaN = false) : between a b a = true := by
  cases a <;> cases b <;> simp [Numeric.isNaN, between, Numeric.le, Numeric.rank?] at *
  all_goals exact le_total _ _

theorem not_nan_of_positive {a : Numeric} (h : Numeric.lt (.ofInt 0) a = true) : a.isNaN = false := by
  cases a <;> first | rfl | cases h

/-- Collaborators that have all four properties of R266: each keeps the value of its left neighbour. -/
def holding : Params :=
  { stubParams with interpWo := fun l v _ _ => (l.wo, v), interpE := fun a _ _ => a }

/-- All four properties together; neighbours of finite positive Wo and energy, and neighbours of any Wo. -/
theorem witness_InterpolationKeepsContract :
    interpWoBetween holding ∧ interpEBetween holding ∧ interpESame holding ∧ interpENotLinear holding ∧
    (Numeric.finite (1 / 8)).finitePositive = true ∧ (Numeric.finite (1 / 4)).finitePositive = true ∧
    ∃ r, interpolateWo holding ⟨.finite (1 / 8), 25, true⟩ true ⟨.finite (-1), 25, true⟩ = .ok r := by
  refine ⟨fun l r _ _ => ⟨rfl, between_left⟩, fun a b ha hb => ?_, fun a => ?_, ?_, by decide +kernel, by decide +kernel, ?_⟩
  · exact between_left (not_nan_of_positive ha) (not_nan_of_positive hb)
  · simp [same, holding]
  · exact ⟨.finite 1, .finite 4, by decide +kernel⟩
  · exact ⟨(.finite (1 / 8), true), by decide +kernel⟩

/-- In NUM -0 is no other value than 0, and a NaN differs from nothing (log 14, log 24). -/
theorem test_differ_and_same :
    differ .negZero (.finite 0) = false ∧ differ .nan (.finite 0) = false ∧ differ (.finite 0) (.finite 1) = true ∧
    same .negZero (.finite 0) = true ∧ same .nan .nan = true ∧ same .nan (.finite 0) = false := by
  decide +kernel

/-- The quotients of TV-I7, TV-I10 and TV-I11, and one with no floor. -/
theorem witness_HarmonicsRange :
    ((stubParams.div stubParams.pi (b32Round (2 * 13176795 / 4194304 / 160))).toRat?.map Rat.floor = some 80 ∧
      stubParams.lMax = 80) ∧
    (stubParams.div stubParams.pi stubParams.pi).toRat?.map Rat.floor = some 1 ∧
    (stubParams.div stubParams.pi (b32Round (32 / 10))).toRat?.map Rat.floor = some 0 ∧
    (stubParams.div stubParams.pi (.finite (1 / 64))).toRat?.map Rat.floor = some 201 ∧
    (stubParams.div stubParams.pi (.finite 0)).toRat? = none := by decide +kernel

theorem stubLsps_increasing : strictlyIncreasing stubLsps.toList = true := by decide +kernel

theorem witness_LspOrderCheck :
    (∃ p : Params, lspFixStrict p ∧ bwKeepsOrder p) ∧
    (∃ p raw, correctLsps p raw = .error .collab) ∧
    Numeric.lt (((stubOf .lspTie).bwExpand ((stubOf .lspTie).lspOrderFix stubLsps))[0])
      (((stubOf .lspTie).bwExpand ((stubOf .lspTie).lspOrderFix stubLsps))[1]) = false :=
  ⟨⟨{ stubParams with lspOrderFix := fun _ => stubLsps }, fun _ => stubLsps_increasing, fun _ h => h⟩,
    ⟨stubOf .lspTie, stubLsps, by decide +kernel⟩, by decide +kernel⟩

/-- The first and the last byte of mode B's frame missing. -/
theorem witness_DecodeUnwrittenInputFaults :
    (ready .plain .B).inst = some ⟨.B, sessionStart stubParams⟩ ∧
    (0 < bytesPerFrame .B ∧ Memory.get (ready .plain .B).mem (0x800 + 0) = none) ∧
    (6 < bytesPerFrame .B ∧ Memory.get (withBits (bitsB.take 6) (ready .plain .B)).mem (0x800 + 6) = none) :=
  ⟨rfl, ⟨by decide, rfl⟩, by decide, by decide⟩

/-- What `DecodeCompletes` and `DecodeFaultsInOrder` share: an instance and its input. -/
def decodeInput (v : StubVariant) (m : FrameMode) (b : List Byte) : Prop :=
  (withBits b (ready v m)).inst = some ⟨m, sessionStart (stubOf v)⟩ ∧ b.length = bytesPerFrame m ∧
  ∀ n < bytesPerFrame m, Memory.get (withBits b (ready v m)).mem (0x800 + n) = b[n]?

theorem decodeInput_of_length (v : StubVariant) (m : FrameMode) (b : List Byte) (h : b.length = bytesPerFrame m) :
    decodeInput v m b := by
  refine ⟨rfl, h, fun n hn => ?_⟩
  change Memory.get (Memory.writeBytes [] 0x800 b) _ = _
  rw [Memory.get_writeBytes, if_pos (by omega), show 0x800 + n - 0x800 = n by omega]

/-- A frame of mode A: WoE1 = 15. -/
def bitsA : List Byte := bytesOf [0xC3, 0xC0, 0, 0, 0, 0]

theorem witness_DecodeCompletes_A : decodeInput .plain .A bitsA ∧
    decodeContract stubParams .A (unpackFrame stubParams .A bitsA) (sessionStart stubParams).dec :=
  ⟨decodeInput_of_length _ _ _ (by decide), by decide +kernel⟩

theorem witness_DecodeCompletes_B : decodeInput .plain .B bitsB ∧
    decodeContract stubParams .B (unpackFrame stubParams .B bitsB) (sessionStart stubParams).dec :=
  ⟨decodeInput_of_length _ _ _ (by decide), by decide +kernel⟩

theorem witness_DecodeCompletes_C : decodeInput .plain .C (bitsB.take 6) ∧
    decodeContract stubParams .C (unpackFrame stubParams .C (bitsB.take 6)) (sessionStart stubParams).dec :=
  ⟨decodeInput_of_length _ _ _ (by decide), by decide +kernel⟩

theorem both_ok {ε α β : Type} {x : Except ε α} {f : α → Except ε β}
    (h : (match x with | .ok a => (f a).toOption.isSome | .error _ => false) = true) :
    ∃ a b, x = .ok a ∧ f a = .ok b := by
  cases x with
  | error e => cases h
  | ok a =>
    cases hf : f a with
    | error e => simp [hf, Except.toOption] at h
    | ok b => exact ⟨a, b, rfl, hf⟩

/-- The frames of program P3 and of `bitsA`: WoE indices 15 and 31, v = 1, 1, 0, 1. -/
theorem witness_DecodeCallOrder :
    let u1 := stubParams.decWoe 15 startDec.predDec
    let u2 := stubParams.decWoe 31 u1.2.2
    let start : SynthState := ⟨startDec.prevModel, startDec.phase, startDec.noise, startDec.ola⟩
    ([0, 0, 0] : List Nat).length = stubParams.lspVqWidths.length ∧
    (u1.1.finitePositive = true ∧ u1.2.1.finitePositive = true ∧ u2.1.finitePositive = true ∧
      u2.2.1.finitePositive = true ∧ strictlyIncreasing stubLsps.toList = true) ∧
    (∃ subs r, trajectory stubParams startDec.prevModel.head startDec.prevE [⟨true, true, u1.1, u1.2.1⟩] = .ok subs ∧
      synthesize stubParams ((lspTrajectory stubParams .A startDec.prevLsps stubLsps).zip subs) start = .ok r) ∧
    (∃ subs r, trajectory stubParams startDec.prevModel.head startDec.prevE
        [⟨true, true, u1.1, u1.2.1⟩, ⟨false, true, u2.1, u2.2.1⟩] = .ok subs ∧
      synthesize stubParams ((lspTrajectory stubParams .B startDec.prevLsps stubLsps).zip subs) start = .ok r) ∧
    (∃ subs r, trajectory stubParams startDec.prevModel.head startDec.prevE
        [⟨true, true, u1.1, u1.2.1⟩, ⟨false, true, u2.1, u2.2.1⟩] = .ok subs ∧
      synthesize stubParams ((lspTrajectory stubParams .C startDec.prevLsps stubLsps).zip subs) start = .ok r) :=
  ⟨rfl, by decide +kernel, both_ok (by decide +kernel), both_ok (by decide +kernel), both_ok (by decide +kernel)⟩

/-- A check before synthesis fails (TV-D18). -/
theorem witness_DecodeFaultsInOrder_params : decodeInput .woZero .B bitsB ∧
    ¬ decodeParamsOk (stubOf .woZero) .B (unpackFrame (stubOf .woZero) .B bitsB)
      (sessionStart (stubOf .woZero)).dec :=
  ⟨decodeInput_of_length _ _ _ (by decide), by decide +kernel⟩

/-- The harmonic count of sub-frame 2 is out of range, and nothing before it fails (the INTERP_WO of TV-X6). -/
theorem witness_DecodeFaultsInOrder_harmonics :
    decodeInput .interpWoSmall .B bitsB ∧
    decodeParamsOk (stubOf .interpWoSmall) .B (unpackFrame (stubOf .interpWoSmall) .B bitsB)
      (sessionStart (stubOf .interpWoSmall)).dec ∧ 2 < subframes .B ∧
    (∀ k < 2, decodeSubframeOk (stubOf .interpWoSmall) .B (unpackFrame (stubOf .interpWoSmall) .B bitsB)
      (sessionStart (stubOf .interpWoSmall)).dec k) ∧
    harmonicsInRange (stubOf .interpWoSmall) (subParams (stubOf .interpWoSmall)
      (unpackFrame (stubOf .interpWoSmall) .B bitsB) (sessionStart (stubOf .interpWoSmall)).dec 2).wo = false :=
  ⟨decodeInput_of_length _ _ _ (by decide), by decide +kernel⟩

/-- Sub-frame 1 has a NaN, and nothing before it fails (TV-D23). -/
theorem witness_DecodeFaultsInOrder_nan :
    decodeInput .sampleNaN .B bitsB ∧
    decodeParamsOk (stubOf .sampleNaN) .B (unpackFrame (stubOf .sampleNaN) .B bitsB)
      (sessionStart (stubOf .sampleNaN)).dec ∧ 1 < subframes .B ∧
    (∀ k < 1, decodeSubframeOk (stubOf .sampleNaN) .B (unpackFrame (stubOf .sampleNaN) .B bitsB)
      (sessionStart (stubOf .sampleNaN)).dec k) ∧
    harmonicsInRange (stubOf .sampleNaN) (subParams (stubOf .sampleNaN)
      (unpackFrame (stubOf .sampleNaN) .B bitsB) (sessionStart (stubOf .sampleNaN)).dec 1).wo = true ∧
    ¬ noNaN (stubOf .sampleNaN) .B (unpackFrame (stubOf .sampleNaN) .B bitsB)
      (sessionStart (stubOf .sampleNaN)).dec 1 :=
  ⟨decodeInput_of_length _ _ _ (by decide), by decide +kernel⟩

/-- A DECODE that gives a next state. -/
def beforeDecode : State := withBits bitsA (ready .plain .A)

theorem decode_next : exec .decode beforeDecode = .next (after (exec .decode beforeDecode)) :=
  eq_next (by decide +kernel)

theorem witness_DecodeFrameCondition : ∃ t, exec .decode beforeDecode = .next t := ⟨_, decode_next⟩

theorem witness_DecodeOutputSaturated :
    (∃ t, exec .decode beforeDecode = .next t) ∧ beforeDecode.inst = some ⟨.A, sessionStart stubParams⟩ ∧
    159 < samplesPerFrame .A := ⟨⟨_, decode_next⟩, rfl, by decide⟩

/-- Two inputs that differ in both spare bits of mode A. -/
theorem witness_DecodeDependsOnlyOnItsInputs :
    ∃ s' : State, s'.inst = beforeDecode.inst ∧ s'.params = beforeDecode.params ∧
    (∀ n < bytesPerFrame .A, ∃ b b', Memory.get beforeDecode.mem (0x800 + n) = some b ∧
      Memory.get s'.mem (0x800 + n) = some b' ∧ (n = 5 → b &&& 0xFC = b' &&& 0xFC ∧ b ≠ b') ∧ (n ≠ 5 → b = b')) ∧
    ∃ t, exec .decode beforeDecode = .next t := by
  refine ⟨withBits (bytesOf [0xC3, 0xC0, 0, 0, 0, 3]) beforeDecode, rfl, rfl, ?_, _, decode_next⟩
  have h : ∀ n < 6, ∃ b, (bitsA[n]? = some b ∧
      ∃ b', (bytesOf [0xC3, 0xC0, 0, 0, 0, 3])[n]? = some b' ∧ (n = 5 → b &&& 0xFC = b' &&& 0xFC ∧ b ≠ b') ∧
        (n ≠ 5 → b = b')) := by
    intro n hn
    match n, hn with
    | 0, _ => exact ⟨_, rfl, _, rfl, by decide⟩
    | 1, _ => exact ⟨_, rfl, _, rfl, by decide⟩
    | 2, _ => exact ⟨_, rfl, _, rfl, by decide⟩
    | 3, _ => exact ⟨_, rfl, _, rfl, by decide⟩
    | 4, _ => exact ⟨_, rfl, _, rfl, by decide⟩
    | 5, _ => exact ⟨_, rfl, _, rfl, by decide⟩
  intro n hn
  obtain ⟨b, h1, b', h2, h3⟩ := h n hn
  have hn6 : n < 6 := hn
  refine ⟨b, b', ?_, ?_, h3⟩
  · change Memory.get (Memory.writeBytes [] 0x800 bitsA) _ = _
    rw [Memory.get_writeBytes, if_pos (by have : bitsA.length = 6 := rfl; omega),
      show 0x800 + n - 0x800 = n by omega, h1]
  · change Memory.get (Memory.writeBytes [] 0x800 (bytesOf [0xC3, 0xC0, 0, 0, 0, 3])) _ = _
    rw [Memory.get_writeBytes, if_pos (by have : (bytesOf [0xC3, 0xC0, 0, 0, 0, 3]).length = 6 := rfl; omega),
      show 0x800 + n - 0x800 = n by omega, h2]

/-- Both inputs written: samples for ENCODE, bytes for DECODE. -/
def beforeBoth : State :=
  { ready .plain .A with mem := sampleCells 0x100 pcmA ++ Memory.writeBytes [] 0x800 bitsA }

theorem witness_EncodeDecodeCommute :
    (∃ u t, exec .encode beforeBoth = .next u ∧ exec .decode u = .next t) ∧
    ∃ u t, exec .decode beforeBoth = .next u ∧ exec .encode u = .next t := by
  have he : exec .encode beforeBoth = .next (after (exec .encode beforeBoth)) := eq_next (by decide +kernel)
  have hd : exec .decode beforeBoth = .next (after (exec .decode beforeBoth)) := eq_next (by decide +kernel)
  refine ⟨⟨_, _, he, eq_next (by decide +kernel)⟩, ?_⟩
  obtain ⟨i, x, e, bytes, hi, hx, hf, -⟩ := execEncode_next he
  obtain ⟨j, bs, xs, d, hj, -, hg, ht⟩ := execDecode_next hd
  cases hi.symm.trans hj
  -- the samples DECODE stores lie outside PCM_IN, so ENCODE reads the same input
  obtain ⟨h1, h2⟩ := (Memory.readSamples_eq_some _ _ _ _).mp hx
  have hl : xs.length ≤ 320 := by rw [(decodeFrame_ok hg).2.2.2]; cases i.mode <;> decide
  refine ⟨_, _, hd.trans (congrArg Host.Outcome.next ht), execEncode_ok (i := ⟨i.mode, ⟨i.cs.enc, d⟩⟩) rfl ((Memory.readSamples_eq_some _ _ _ _).mpr ⟨h1, fun k hk => ?_⟩) hf⟩
  rw [← h2 k hk]
  have : k < 320 := lt_of_lt_of_le hk (by cases i.mode <;> decide)
  exact Memory.getSample_writeSamples_outside _ _ (by simp only [pcmInBase, pcmOutBase]; omega)

/-- Reads and writes at the edges of the regions: the last element of each writable one does not fault BUS, the address after
it does, and so does a write of a read-only element. -/
theorem witness_InadmissibleAccessFaultsBus :
    (∀ a n v, (queued [.read a n] (block .plain)).hostQueue = .read a n :: [] ∧
      (queued [.write a n v] (block .plain)).hostQueue = .write a n v :: []) ∧
    (∃ left, step (queued [.read 0x380 2] (block .plain)) = .fault (.bus left)) ∧
    (∃ left, step (queued [.write 0x807 1 0] (block .plain)) = .fault (.bus left)) ∧
    (∃ left, step (queued [.write 0x810 1 0] (block .plain)) = .fault (.bus left)) ∧
    (∃ t, step (queued [.write 0x37E 2 0] (block .plain)) = .next t) ∧
    (∃ t, step (queued [.write 0x806 1 0] (block .plain)) = .next t) ∧
    (∃ left, step (queued [.write 0x000 4 0] (block .plain)) = .fault (.illegalCmd left)) :=
  ⟨fun _ _ _ => ⟨rfl, rfl⟩, ⟨_, rfl⟩, ⟨_, rfl⟩, ⟨_, rfl⟩, ⟨_, rfl⟩, ⟨_, rfl⟩, ⟨_, rfl⟩⟩

/-- The last elements of the four buffers written, as `HostReadReturnsElement` reads them. -/
def lastElements : State :=
  { block .plain with mem := sampleCells 0x37E [7] ++ sampleCells 0x67E [8] ++ [(0x806, 9), (0x816, 10)] }

theorem witness_HostReadReturnsElement :
    (∀ a n, (queued [.read a n] lastElements).hostQueue = .read a n :: []) ∧
    (0x37E = 0x100 + 2 * 319 ∧ Memory.getSample lastElements.mem 0x37E = some 7) ∧
    (0x67E = 0x400 + 2 * 319 ∧ Memory.getSample lastElements.mem 0x67E = some 8) ∧
    (0x806 = 0x800 + 6 ∧ Memory.get lastElements.mem 0x806 = some 9) ∧
    (0x816 = 0x810 + 6 ∧ Memory.get lastElements.mem 0x816 = some 10) :=
  ⟨fun _ _ => rfl, by decide⟩

theorem witness_HostReadOfUnwrittenFaults :
    (∀ a n, (queued [.read a n] (block .plain)).hostQueue = .read a n :: []) ∧
    Memory.getSample (block .plain).mem 0x100 = none ∧ Memory.getSample (block .plain).mem 0x67E = none ∧
    Memory.get (block .plain).mem 0x800 = none ∧ Memory.get (block .plain).mem 0x816 = none :=
  ⟨fun _ _ => rfl, rfl, rfl, rfl, rfl⟩

theorem witness_HostWriteThenReadReturnsValue :
    (∀ a n v, (queued [.write a n v, .read a n] (block .plain)).hostQueue = .write a n v :: .read a n :: []) ∧
    (319 < 320 ∧ (0x37E : Addr).toNat = 0x100 + 2 * 319 ∧ 0xFFFF < 2 ^ 16) ∧
    (6 < 7 ∧ (0x806 : Addr).toNat = 0x800 + 6 ∧ 0xFF < 2 ^ 8) :=
  ⟨fun _ _ _ => rfl, by decide⟩

/-- A precise fault and one that leaves only the registers. -/
theorem witness_FaultsSetErrAndFaultOnly :
    (∃ r left, step (queued [.write 0x000 4 2] (block .plain)) = .fault r ∧ faultLeaves r = some left) ∧
    ∃ r, exec .decode (withBits bitsB (ready .woZero .B)) = .fault r ∧ faultLeaves r = none := by
  refine ⟨⟨_, _, rfl, rfl⟩, ?_⟩
  cases h : exec .decode (withBits bitsB (ready .woZero .B)) with
  | fault r =>
    have h2 : (faultOf (exec .decode (withBits bitsB (ready .woZero .B)))).map (fun r => (faultLeaves r).isNone) =
      some true := by decide +kernel
    rw [h] at h2
    exact ⟨r, rfl, by simpa [faultOf] using h2⟩
  | next t =>
    have h2 : isNext (exec .decode (withBits bitsB (ready .woZero .B))) = false := by decide +kernel
    rw [h] at h2; cases h2
  | refused r =>
    have h2 : (faultOf (exec .decode (withBits bitsB (ready .woZero .B)))).isSome = true := by decide +kernel
    rw [h] at h2; cases h2

theorem witness_ResultWrittenByFourCommandsOnly :
    ∃ t, step (queued [.write 0x000 4 3] (ready .plain .A)) = .next t ∧ t.result ≠ 0 := ⟨_, rfl, by decide⟩

/-- A step that keeps an instance, one that makes one, one that ends one. -/
theorem witness_InstanceModeFixedUntilDestroy :
    (∃ t, step (queued [.write 0x000 4 4] (ready .plain .B)) = .next t ∧ t.inst.isSome = true) ∧
    (∃ t, step (queued [.write 0x000 4 1] (block .plain)) = .next t ∧ t.inst.isSome = true) ∧
    (∃ t, step (queued [.write 0x000 4 2] (ready .plain .B)) = .next t ∧ t.inst = none) :=
  ⟨⟨_, rfl, rfl⟩, ⟨_, rfl, rfl⟩, ⟨_, rfl, rfl⟩⟩

/-- An ENCODE changes the encode fields, a DECODE the decode fields. -/
theorem witness_CodecStateChangedOnlyByItsCommand :
    (after (step (queued [.write 0x000 4 5] beforeEncode))).inst.map (fun j => j.cs.enc.predEnc) =
      some ⟨1⟩ ∧
    (after (step (queued [.write 0x000 4 6] beforeDecode))).inst.map (fun j => j.cs.dec.predDec) =
      some ⟨1⟩ := by decide +kernel

theorem witness_WrittenMarksPersist :
    (∃ t, step (queued [.write 0x000 4 2] beforeDecode) = .next t) ∧
    (queued [.write 0x000 4 2] beforeDecode).hostQueue.head? ≠ some .reset ∧
    (Memory.get (queued [.write 0x000 4 2] beforeDecode).mem 0x805).isSome = true := ⟨⟨_, rfl⟩, by decide, by decide⟩

theorem witness_ConfigurationFixed : ∃ t, step (queued [.reset] (block .plain)) = .next t := ⟨_, rfl⟩

/-- A state with an instance that meets the invariant, and its step. -/
theorem witness_StepKeepsInvariant :
    Safety.Inv (queued [.write 0x000 4 4] (ready .plain .A)) ∧
    ∃ t, step (queued [.write 0x000 4 4] (ready .plain .A)) = .next t := by
  refine ⟨⟨rfl, fun a h => (by cases h), fun _ _ => rfl, fun _ _ => rfl, fun _ _ v h => (by cases h), ?_, ?_, ?_⟩, _, rfl⟩
  · rintro i h; cases h; exact List.length_replicate
  · rintro i h; cases h; exact stubParams.resetLsp_increasing
  · rintro i h; cases h; exact stubParams.resetE_pos

theorem witness_LspsIncreasingAlongEveryRun :
    ∃ (t : State) (i : Inst), Sys2Proof.core.run 1 (queued [.write 0x000 4 1] (block .plain)) = .next t ∧
      t.inst = some i := ⟨_, _, rfl, rfl⟩

end Sys2Proof.Tests
end

/-! SUPPORT. The field tables of the three frame modes with the position of each field (R107 to R112, R175, R178), and the
fixed configuration (R12). -/

namespace Sys2Proof.Proofs.Scope

open Sys2Proof.Machine

/-! ## The position of a field in an unpacked frame -/

/-- UNPACK_FRAME reads a field behind all fields that stand before it in the layout (R175). -/
theorem fieldValue_unpackFrame {p : Params} {m : FrameMode} {a b : List (FieldName × Nat)} {name : FieldName} {w : Nat}
    (h : layout p m = a ++ (name, w) :: b) (buf : List Byte) :
    fieldValue (unpackFrame p m buf) name = unpackField buf (totalWidth a) w := by
  have hnodup := layout_nodup p m
  rw [h, List.map_append, List.map_cons] at hnodup
  have hname : name ∉ a.map Prod.fst := fun hmem => List.disjoint_of_nodup_append hnodup hmem List.mem_cons_self
  rw [unpackFrame, h, fieldValue_unpackFields buf a b name w 0 hname, Nat.zero_add]

/-- A field of the head, before the LSP set, stands behind the head fields before it. -/
theorem fieldValue_unpackFrame_head (p : Params) {m : FrameMode} {off : Nat} {a b : List (FieldName × Nat)}
    {name : FieldName} {w : Nat} (h : headLayout m = a ++ (name, w) :: b) (hoff : totalWidth a = off)
    (buf : List Byte) : fieldValue (unpackFrame p m buf) name = unpackField buf off w := by
  rw [← hoff]
  exact fieldValue_unpackFrame (b := b ++ lspLayout 0 (lspWidths p m) ++ spareLayout m) (by simp [layout, h]) buf

/-- Sub-field `i` of the LSP set stands behind the head and the `i` sub-fields before it (R111, R112). -/
theorem fieldValue_unpackFrame_lsp {p : Params} {m : FrameMode} {i w : Nat} (h : (lspWidths p m)[i]? = some w)
    (buf : List Byte) :
    fieldValue (unpackFrame p m buf) (.lsp i) =
      unpackField buf (totalWidth (headLayout m) + ((lspWidths p m).take i).sum) w := by
  have hsplit : layout p m = (headLayout m ++ lspLayout 0 ((lspWidths p m).take i)) ++
      (.lsp i, w) :: (lspLayout (i + 1) ((lspWidths p m).drop (i + 1)) ++ spareLayout m) := by
    simp [layout, lspLayout_split 0 i w _ h]
  rw [fieldValue_unpackFrame hsplit, totalWidth_append, totalWidth_lspLayout]

/-- The spare field stands behind the head and the whole LSP set (R108, R110). -/
theorem fieldValue_unpackFrame_spare (p : Params) {m : FrameMode} {w : Nat} (h : spareLayout m = [(.spare, w)])
    (buf : List Byte) :
    fieldValue (unpackFrame p m buf) .spare =
      unpackField buf (totalWidth (headLayout m) + (lspWidths p m).sum) w := by
  rw [fieldValue_unpackFrame (by rw [layout, h]), totalWidth_append, totalWidth_lspLayout]

/-! ## The clauses of the statement -/

/-- BITS counts the bits of NBYTES whole bytes (R10). -/
theorem bitsPerFrame_eq (m : FrameMode) : bitsPerFrame m = 8 * bytesPerFrame m := by
  cases m <;> rfl

/-- The widths of a layout add up to BITS (R107). -/
theorem sum_widths_layout (p : Params) (m : FrameMode) : ((layout p m).map Prod.snd).sum = bitsPerFrame m :=
  (totalWidth_layout p m).trans (bitsPerFrame_eq m).symm

/-- The LSP set begins at position 10 in mode A and at position 20 in modes B and C (R108 to R110). -/
theorem totalWidth_headLayout (m : FrameMode) :
    totalWidth (headLayout m) = (match m with | .A => 10 | .B => 20 | .C => 20) := by
  cases m <;> rfl

/-- Every mode's head begins with v0, v1 and WoE1 (R108 to R110). -/
theorem headLayout_eq_first_append (m : FrameMode) :
    ∃ rest, headLayout m = [(.voicing 0, 1), (.voicing 1, 1), (.woe 1, 8)] ++ rest := by
  cases m
  case A => exact ⟨[], rfl⟩
  case B | C => exact ⟨[(.voicing 2, 1), (.voicing 3, 1), (.woe 2, 8)], rfl⟩

/-- In modes B and C, v2, v3 and WoE2 follow (R109, R110). -/
theorem headLayout_of_four_subframes {m : FrameMode} (h : m = .B ∨ m = .C) :
    headLayout m =
      [(.voicing 0, 1), (.voicing 1, 1), (.woe 1, 8), (.voicing 2, 1), (.voicing 3, 1), (.woe 2, 8)] := by
  rcases h with rfl | rfl <;> rfl

/-- v0, v1 and WoE1 stand at positions 0, 1 and 2 in every mode. -/
theorem unpackFrame_first_pair (p : Params) (m : FrameMode) (buf : List Byte) :
    fieldValue (unpackFrame p m buf) (.voicing 0) = unpackField buf 0 1 ∧
      fieldValue (unpackFrame p m buf) (.voicing 1) = unpackField buf 1 1 ∧
      fieldValue (unpackFrame p m buf) (.woe 1) = unpackField buf 2 8 := by
  obtain ⟨rest, hhead⟩ := headLayout_eq_first_append m
  exact ⟨fieldValue_unpackFrame_head p (a := []) hhead rfl buf,
    fieldValue_unpackFrame_head p (a := [_]) hhead rfl buf,
    fieldValue_unpackFrame_head p (a := [_, _]) hhead rfl buf⟩

/-- v2, v3 and WoE2 stand at positions 10, 11 and 12 in modes B and C. -/
theorem unpackFrame_second_pair (p : Params) {m : FrameMode} (h : m = .B ∨ m = .C) (buf : List Byte) :
    fieldValue (unpackFrame p m buf) (.voicing 2) = unpackField buf 10 1 ∧
      fieldValue (unpackFrame p m buf) (.voicing 3) = unpackField buf 11 1 ∧
      fieldValue (unpackFrame p m buf) (.woe 2) = unpackField buf 12 8 := by
  have hhead := headLayout_of_four_subframes h
  exact ⟨fieldValue_unpackFrame_head p (a := [_, _, _]) hhead rfl buf,
    fieldValue_unpackFrame_head p (a := [_, _, _, _]) hhead rfl buf,
    fieldValue_unpackFrame_head p (a := [_, _, _, _, _]) hhead rfl buf⟩

/-- Settles O21: the tables are the layout's three parts, and each field's position is the total width before it. -/
theorem layoutPositions : Obligations.LayoutPositions := by
  intro p
  refine ⟨⟨?tableA, ?tableB, ?tableC⟩,
    ⟨p.scalar_length, p.scalar_sum, p.vq_sum, fun m => ⟨sum_widths_layout p m, bitsPerFrame_eq m⟩⟩, fun buf m =>
    ⟨unpackFrame_first_pair p m buf, fun hm => unpackFrame_second_pair p hm buf, ?lspSet, ?spareA, ?spareC⟩⟩
  case tableA => rw [layout, lspLayout_eq_zipIdx]; rfl
  case tableB => rw [layout, lspLayout_eq_zipIdx]; exact List.append_nil _
  case tableC => rw [layout, lspLayout_eq_zipIdx]; rfl
  case lspSet =>
    intro i w hw
    have hlsp : (lspWidths p m)[i]? = some w := by cases m <;> exact hw
    have hread := fieldValue_unpackFrame_lsp hlsp buf
    rw [totalWidth_headLayout] at hread
    cases m <;> exact hread
  case spareA =>
    rintro rfl
    have hread := fieldValue_unpackFrame_spare p (m := .A) rfl buf
    rwa [totalWidth_headLayout, lspWidths_sum] at hread
  case spareC =>
    rintro rfl
    have hread := fieldValue_unpackFrame_spare p (m := .C) rfl buf
    rwa [totalWidth_headLayout, lspWidths_sum] at hread

/-! ## The configuration -/

/-- Settles O54: of what a step can do, only a command runs other code than a field update, and it keeps the configuration
(`exec_next_keeps`). -/
theorem configurationFixed : Obligations.ConfigurationFixed := by
  intro s t h
  rcases step_next_cases h with
    ⟨-, rfl⟩ | ⟨op, rest, -, ⟨-, rfl⟩ | ⟨a, n, v, -, rfl⟩ | ⟨a, v, -, -, -, -, rfl⟩ | ⟨a, v, -, -, -, rfl⟩ |
      ⟨v, i, -, -, hexec⟩⟩
  case inr.inr.inr.inr.inr =>
    obtain ⟨-, -, -, -, hconfig⟩ := exec_next_keeps hexec
    exact hconfig
  all_goals simp

end Sys2Proof.Proofs.Scope

/-! SUPPORT. What every step keeps (R33 to R43, R53 to R55, R70, R192, R223, R230, R270): the invariant of the machine, and
which operation may change which part of the state. -/

namespace Sys2Proof.Proofs.WholeMachine

open Sys2Proof.Machine Sys2Proof.Safety

/-! ## The invariant of the memory -/

/-- An address at which a PCM element begins (R70). -/
def PcmElement (a : Nat) : Prop := ∃ i < 320, a = 0x100 + 2 * i ∨ a = 0x400 + 2 * i

/-- The address of a byte of BITS_IN or BITS_OUT (R70). -/
def BitsAddress (a : Nat) : Prop := (0x800 ≤ a ∧ a < 0x807) ∨ (0x810 ≤ a ∧ a < 0x817)

/-- The range of a sample that saturation has passed (R230). -/
def Saturated (v : Sample) : Prop := -32767 ≤ v.toInt ∧ v.toInt ≤ 32767

/-- What `Inv` says of the memory, the two PCM buffers taken together (`inv_iff`). -/
structure MemGood (m : Memory) : Prop where
  wf : Memory.wf m = true
  inBuffers : ∀ a, (Memory.get m a).isSome = true → bufferAddress a = true
  whole : ∀ a, PcmElement a → (Memory.get m a).isSome = (Memory.get m (a + 1)).isSome
  saturated : ∀ i < 320, ∀ v, Memory.getSample m (0x400 + 2 * i) = some v → Saturated v

theorem bufferAddress_iff (a : Nat) :
    bufferAddress a = true ↔
      (0x100 ≤ a ∧ a < 0x380) ∨ (0x400 ≤ a ∧ a < 0x680) ∨ (0x800 ≤ a ∧ a < 0x807) ∨ (0x810 ≤ a ∧ a < 0x817) := by
  simp [bufferAddress, or_assoc]

theorem bufferAddress_of_bitsAddress {a : Nat} (h : BitsAddress a) : bufferAddress a = true :=
  (bufferAddress_iff a).mpr (.inr (.inr h))

theorem bufferAddress_of_pcmElement {a : Nat} (h : PcmElement a) :
    bufferAddress a = true ∧ bufferAddress (a + 1) = true := by
  obtain ⟨i, hi, ha⟩ := h
  simp only [bufferAddress_iff]
  omega

/-- A memory in which nothing is written is good. -/
theorem memGood_nil : MemGood [] where
  wf := rfl
  inBuffers := fun _ h => by cases h
  whole := fun _ _ => rfl
  saturated := fun _ _ _ h => by cases h

/-- Storing a byte of a bit buffer touches no PCM element. -/
theorem MemGood.set {m : Memory} {a : Nat} (h : MemGood m) (ha : BitsAddress a) (v : Byte) :
    MemGood (Memory.set m a v) where
  wf := Memory.wf_set m a v h.wf
  inBuffers := by
    intro y hy
    by_cases hya : y = a
    · exact hya ▸ bufferAddress_of_bitsAddress ha
    · exact h.inBuffers y (by rwa [Memory.get_set_other m v hya] at hy)
  whole := by
    rintro y ⟨i, hi, hy⟩
    unfold BitsAddress at ha
    rw [Memory.get_set_other m v (by omega), Memory.get_set_other m v (by omega)]
    exact h.whole y ⟨i, hi, hy⟩
  saturated := by
    intro i hi w hw
    unfold BitsAddress at ha
    rw [Memory.getSample_congr (Memory.get_set_other m v (by omega)) (Memory.get_set_other m v (by omega))] at hw
    exact h.saturated i hi w hw

/-- A PCM element that is not the one stored keeps both its cells: elements do not overlap. -/
theorem get_setSample_other_element {m : Memory} {a y : Nat} (v : Sample) (ha : PcmElement a) (hy : PcmElement y)
    (hne : y ≠ a) :
    Memory.get (Memory.setSample m a v) y = Memory.get m y ∧
      Memory.get (Memory.setSample m a v) (y + 1) = Memory.get m (y + 1) := by
  obtain ⟨i, hi, ha⟩ := ha
  obtain ⟨j, hj, hy⟩ := hy
  simp only [Memory.get_setSample]
  constructor <;> rw [if_neg (by omega), if_neg (by omega)]

/-- Storing a PCM element whole, saturated if it is one of PCM_OUT. -/
theorem MemGood.setSample {m : Memory} {a : Nat} {v : Sample} (h : MemGood m) (ha : PcmElement a)
    (hv : 0x400 ≤ a → Saturated v) : MemGood (Memory.setSample m a v) where
  wf := Memory.wf_setSample m a v h.wf
  inBuffers := by
    intro y hy
    obtain ⟨hlow, hhigh⟩ := bufferAddress_of_pcmElement ha
    rw [Memory.get_setSample] at hy
    split at hy
    case isTrue hya => exact hya ▸ hlow
    case isFalse =>
      split at hy
      case isTrue hya => exact hya ▸ hhigh
      case isFalse => exact h.inBuffers y hy
  whole := by
    intro y hy
    by_cases hya : y = a
    · simp [hya, Memory.get_setSample]
    · obtain ⟨hlow, hhigh⟩ := get_setSample_other_element (m := m) v ha hy hya
      rw [hlow, hhigh]
      exact h.whole y hy
  saturated := by
    intro i hi w hw
    by_cases hia : 0x400 + 2 * i = a
    · rw [hia, Memory.getSample_setSample_same] at hw
      exact Option.some.inj hw ▸ hv (by omega)
    · obtain ⟨hlow, hhigh⟩ := get_setSample_other_element (m := m) v ha ⟨i, hi, .inr rfl⟩ hia
      rw [Memory.getSample_congr hlow hhigh] at hw
      exact h.saturated i hi w hw

/-- ENCODE's store into BITS_OUT, byte by byte. -/
theorem MemGood.writeBytes {m : Memory} {a : Nat} {xs : List Byte} (h : MemGood m)
    (ha : ∀ k < xs.length, BitsAddress (a + k)) : MemGood (Memory.writeBytes m a xs) := by
  induction xs generalizing m a with
  | nil => exact h
  | cons x xs ih =>
    refine ih (h.set (ha 0 (by simp)) x) fun k hk => ?_
    rw [show a + 1 + k = a + (k + 1) by omega]
    exact ha (k + 1) (by simpa using hk)

/-- DECODE's store into PCM_OUT, element by element. -/
theorem MemGood.writeSamples {m : Memory} {a : Nat} {xs : List Sample} (h : MemGood m)
    (ha : ∀ k < xs.length, PcmElement (a + 2 * k)) (hsat : ∀ x ∈ xs, Saturated x) :
    MemGood (Memory.writeSamples m a xs) := by
  induction xs generalizing m a with
  | nil => exact h
  | cons x xs ih =>
    have hfirst : MemGood (Memory.setSample m a x) := h.setSample (ha 0 (by simp)) fun _ => hsat x (by simp)
    refine ih hfirst (fun k hk => ?_) fun y hy => hsat y (by simp [hy])
    rw [show a + 2 + 2 * k = a + 2 * (k + 1) by omega]
    exact ha (k + 1) (by simpa using hk)

/-! ## The invariant of the instance -/

/-- What `Inv` says of an instance: N_HIST samples of history (R43), `prev_lsps` strictly increasing (R270), `prev_e`
positive (R223). -/
structure InstGood (p : Params) (i : Inst) : Prop where
  histLength : i.cs.enc.hist.length = p.nHist
  lspsIncreasing : strictlyIncreasing i.cs.dec.prevLsps.toList = true
  energyPositive : Numeric.lt (.ofInt 0) i.cs.dec.prevE = true

/-- The contract of the configuration makes session start good (R12, R143). -/
theorem instGood_sessionStart (p : Params) (m : FrameMode) : InstGood p ⟨m, sessionStart p⟩ where
  histLength := List.length_replicate
  lspsIncreasing := p.resetLsp_increasing
  energyPositive := p.resetE_pos

/-- ENCODE shifts whole sub-frames through the history (R192). -/
theorem InstGood.encode {p : Params} {i : Inst} {x : List Sample} {e : EncState} {bytes : List Byte}
    (h : InstGood p i) (hx : x.length = samplesPerFrame i.mode)
    (hframe : encodeFrame p i.mode x i.cs.enc = .ok (e, bytes)) : InstGood p ⟨i.mode, ⟨e, i.cs.dec⟩⟩ where
  histLength := by
    obtain ⟨rfl, -⟩ := encodeFrame_ok hframe
    exact encodeFields_histLength hx i.cs.enc h.histLength
  lspsIncreasing := h.lspsIncreasing
  energyPositive := h.energyPositive

/-- DECODE keeps only what has passed the checks of R296: increasing LSPs and positive energies. -/
theorem InstGood.decode {p : Params} {i : Inst} {bits : List Byte} {xs : List Sample} {d : DecState}
    (h : InstGood p i) (hframe : decodeFrame p i.mode bits i.cs.dec = .ok (xs, d)) :
    InstGood p ⟨i.mode, ⟨i.cs.enc, d⟩⟩ := by
  obtain ⟨⟨⟨hwoes, hlsps, -⟩, -⟩, -, rfl, -⟩ := decodeFrame_ok hframe
  have hlast : woeCount i.mode - 1 < woeCount i.mode := by cases i.mode <;> decide
  obtain ⟨-, henergy⟩ := hwoes (woeCount i.mode - 1) hlast
  exact ⟨h.histLength, hlsps, lt_of_finitePositive henergy⟩

/-! ## The invariant of the machine -/

/-- The invariant is a good memory and, where there is one, a good instance. -/
theorem inv_iff (s : State) : Safety.Inv s ↔ MemGood s.mem ∧ ∀ i, s.inst = some i → InstGood s.params i := by
  constructor
  · intro h
    refine ⟨⟨h.memWf, h.memInBuffers, ?_, h.pcmOutSaturated⟩,
      fun i hi => ⟨h.histLength i hi, h.lspsIncreasing i hi, h.energyPositive i hi⟩⟩
    rintro a ⟨i, hi, rfl | rfl⟩
    · exact h.pcmInWhole i hi
    · exact h.pcmOutWhole i hi
  · rintro ⟨hmem, hinst⟩
    exact
      { memWf := hmem.wf
        memInBuffers := hmem.inBuffers
        pcmInWhole := fun i hi => hmem.whole _ ⟨i, hi, .inl rfl⟩
        pcmOutWhole := fun i hi => hmem.whole _ ⟨i, hi, .inr rfl⟩
        pcmOutSaturated := hmem.saturated
        histLength := fun i hi => (hinst i hi).histLength
        lspsIncreasing := fun i hi => (hinst i hi).lspsIncreasing
        energyPositive := fun i hi => (hinst i hi).energyPositive }

/-- The invariant speaks only of the memory, the instance and the configuration. -/
theorem inv_congr {s t : State} (h : Safety.Inv s) (hmem : t.mem = s.mem) (hinst : t.inst = s.inst)
    (hparams : t.params = s.params) : Safety.Inv t := by
  rw [inv_iff] at h ⊢
  rwa [hmem, hinst, hparams]

/-- With no instance, the invariant is that of the memory. -/
theorem inv_of_inst_eq_none {s : State} (hinst : s.inst = none) (h : MemGood s.mem) : Safety.Inv s :=
  (inv_iff s).mpr ⟨h, fun i hi => by rw [hinst] at hi; cases hi⟩

theorem inv_buildInstance (m : FrameMode) {s : State} (h : MemGood s.mem) : Safety.Inv (buildInstance m s) := by
  refine (inv_iff _).mpr ⟨h, fun i hi => ?_⟩
  cases hi
  exact instGood_sessionStart s.params m

theorem inv_finishEncode {s : State} {i : Inst} {x : List Sample} {e : EncState} {bytes : List Byte}
    (h : Safety.Inv s) (hi : s.inst = some i) (hx : inputSamples i.mode s = some x)
    (hframe : encodeFrame s.params i.mode x i.cs.enc = .ok (e, bytes)) : Safety.Inv (finishEncode i e bytes s) := by
  obtain ⟨hmem, hinst⟩ := (inv_iff s).mp h
  obtain ⟨-, hlen⟩ := encodeFrame_ok hframe
  obtain ⟨hxlen, -⟩ := (Memory.readSamples_eq_some _ _ _ _).mp hx
  have hseven : bytesPerFrame i.mode ≤ 7 := by cases i.mode <;> decide
  refine (inv_iff _).mpr ⟨hmem.writeBytes fun k hk => .inr ?_, fun j hj => ?_⟩
  · simp only [bitsOutBase]
    omega
  · cases hj
    exact (hinst i hi).encode hxlen hframe

theorem inv_finishDecode {s : State} {i : Inst} {bits : List Byte} {xs : List Sample} {d : DecState}
    (h : Safety.Inv s) (hi : s.inst = some i) (hframe : decodeFrame s.params i.mode bits i.cs.dec = .ok (xs, d)) :
    Safety.Inv (finishDecode i xs d s) := by
  obtain ⟨hmem, hinst⟩ := (inv_iff s).mp h
  obtain ⟨-, -, -, hlen⟩ := decodeFrame_ok hframe
  have hbuffer : samplesPerFrame i.mode ≤ 320 := by cases i.mode <;> decide
  refine (inv_iff _).mpr
    ⟨hmem.writeSamples (fun k hk => ⟨k, by omega, .inr rfl⟩) (decodeFrame_range hframe), fun j hj => ?_⟩
  cases hj
  exact (hinst i hi).decode hframe

/-- Every command that completes keeps the invariant. -/
theorem exec_keeps_inv {i : Instr} {s t : State} (hs : Safety.Inv s) (h : exec i s = .next t) : Safety.Inv t := by
  have hmem : MemGood s.mem := ((inv_iff s).mp hs).1
  cases i with
  | create mode =>
    obtain ⟨-, rfl | ⟨-, rfl⟩ | ⟨m, -, rfl | ⟨-, rfl⟩⟩⟩ := execCreate_next h
    · exact inv_congr hs rfl rfl rfl
    · exact inv_congr hs rfl rfl rfl
    · exact inv_buildInstance m hmem
    · exact inv_buildInstance m hmem
  | destroy =>
    obtain ⟨i, -, rfl⟩ := execDestroy_next h
    exact inv_of_inst_eq_none rfl hmem
  | getbits =>
    obtain ⟨i, -, rfl⟩ := execGetbits_next h
    exact inv_congr hs rfl rfl rfl
  | getsamples =>
    obtain ⟨i, -, rfl⟩ := execGetsamples_next h
    exact inv_congr hs rfl rfl rfl
  | encode =>
    obtain ⟨i, x, e, bytes, hi, hx, hframe, rfl⟩ := execEncode_next h
    exact inv_finishEncode hs hi hx hframe
  | decode =>
    obtain ⟨i, bits, xs, d, hi, -, hframe, rfl⟩ := execDecode_next h
    exact inv_finishDecode hs hi hframe

/-- Replacing the memory by a good one keeps the invariant. -/
theorem inv_withMem {s : State} {m : Memory} (hs : Safety.Inv s) (hm : MemGood m) : Safety.Inv (s.withMem m) :=
  (inv_iff _).mpr ⟨hm, ((inv_iff s).mp hs).2⟩

/-- Settles O56: a step waits, reads, resets, stores one element of an input buffer or runs a command, and each keeps a good
memory and a good instance. -/
theorem stepKeepsInvariant : Obligations.StepKeepsInvariant := by
  intro s t hs h
  have hmem : MemGood s.mem := ((inv_iff s).mp hs).1
  have hqueue : ∀ rest, Safety.Inv (s.withHostQueue rest) := fun rest => inv_congr hs rfl rfl rfl
  rcases step_next_cases h with
    ⟨-, rfl⟩ | ⟨op, rest, -, ⟨-, rfl⟩ | ⟨a, n, v, -, rfl⟩ | ⟨a, v, -, hlo, hhi, heven, rfl⟩ |
      ⟨a, v, -, hlo, hhi, rfl⟩ | ⟨v, i, -, -, hexec⟩⟩
  case inl => exact hs
  case inr.inl => exact inv_of_inst_eq_none rfl memGood_nil
  case inr.inr.inl => exact inv_congr hs rfl rfl rfl
  case inr.inr.inr.inl =>
    have helement : PcmElement a.toNat := ⟨(a.toNat - 0x100) / 2, by omega, .inl (by omega)⟩
    exact inv_withMem (hqueue rest) (hmem.setSample helement fun hout => by omega)
  case inr.inr.inr.inr.inl => exact inv_withMem (hqueue rest) (hmem.set (.inl ⟨hlo, hhi⟩) _)
  case inr.inr.inr.inr.inr =>
    have hcmd : Safety.Inv ((s.withHostQueue rest).withCmd (BitVec.ofNat 32 v)) := inv_congr hs rfl rfl rfl
    exact exec_keeps_inv hcmd hexec

/-- Settles O55: at reset nothing is written and there is no instance, whatever the fields `Inv` does not speak of. -/
theorem resetSatisfiesInvariant : Obligations.ResetSatisfiesInvariant :=
  ⟨inv_of_inst_eq_none rfl memGood_nil, fun _ _ _ => inv_of_inst_eq_none rfl memGood_nil⟩

/-! ## The registers -/

/-- The state in which a write of CMD performs its command (R34, log 1). -/
theorem cmdWritten_eq (s : State) (rest : List HostOp) (w : Word) :
    (s.withHostQueue rest).withCmd w = { s with hostQueue := rest, cmd := w } := rfl

/-- The write of a word that decodes runs its command with CMD written (R140). -/
theorem commandWrite_of_decodeWord {w : Word} {i : Instr} (h : decodeWord w = .ok i) (s : State) :
    commandWrite w s = exec i (s.withCmd w) := by
  simp [commandWrite, h]

/-- Settles O7: the write of CMD is taken off the list, stored and performed; `withFetchWord` is such a write. -/
theorem stepRunsDecodedCommand : Obligations.StepRunsDecodedCommand := by
  refine ⟨fun s rest v i hq hdec => ?_, fun s nbits w i hdec => ?_⟩
  · rw [step_command hq, commandWrite_of_decodeWord hdec, cmdWritten_eq]
  · have hword : decodeWord (tableWord nbits w) = .ok i := by
      unfold decodeTableWord at hdec
      cases hw : decodeWord (tableWord nbits w) with
      | error e => rw [hw] at hdec; cases hdec
      | ok j => rw [hw] at hdec; exact congrArg Except.ok (Option.some.inj hdec)
    have hq : (s.withFetchWord nbits w).hostQueue = .write 0x000 4 (tableWord nbits w).toNat :: s.hostQueue := rfl
    rw [step_command hq, BitVec.ofNat_toNat, BitVec.setWidth_eq, commandWrite_of_decodeWord hword]
    rfl

/-- A faulting error leaves CMD, whatever else it leaves (R34, R290). -/
theorem cmd_of_faultErr {e : FaultCode} {s : State} {r : Fault} (h : faultErr e s = .fault r) :
    (faultRegisters r).cmd = s.cmd := by
  obtain ⟨r', hr', -, hregs, -⟩ := faultErr_spec e s
  cases h.symm.trans hr'
  rw [hregs]
  rfl

/-- Settles O9: the word is stored before the command runs, no command that completes writes CMD, and no fault does. -/
theorem commandWordReadsBack : Obligations.CommandWordReadsBack := by
  intro s rest v hq
  rw [step_command hq]
  rcases commandWrite_cases (BitVec.ofNat 32 v) (s.withHostQueue rest) with ⟨-, hc⟩ | ⟨i, -, hc⟩
  · rw [hc]
    exact ⟨fun t ht => absurd ht (faultErr_ne_next _ _ _), fun r hr => cmd_of_faultErr hr⟩
  · rw [hc]
    refine ⟨fun t ht => ?_, fun r hr => ?_⟩
    · obtain ⟨hcmd, -⟩ := exec_next_keeps ht
      exact hcmd
    rcases exec_next_or_faultErr i ((s.withHostQueue rest).withCmd (BitVec.ofNat 32 v)) with ⟨t, ht⟩ | ⟨e, -, he⟩
    · rw [ht] at hr
      cases hr
    · exact cmd_of_faultErr (he.symm.trans hr)

theorem modeCode_le (m : FrameMode) : modeCode m ≤ 2 := by cases m <;> decide

theorem errCode_le (e : ErrCode) : e.code ≤ 9 := by cases e <;> decide

/-- Settles O48: STATE and MODE are computed from the instance, the other fields are the state's own. -/
theorem statusFieldsLegal : Obligations.StatusFieldsLegal := by
  intro s
  obtain ⟨hlow, hhigh⟩ := statusWord_reserved s
  refine ⟨?_, ?_, errField_statusWord s, faultField_statusWord s, hlow, hhigh⟩
  · rw [stateField_statusWord, modeField_statusWord]
    cases hi : s.inst with
    | none => exact .inr ⟨by simp [statusState, hi], by simp [statusMode, hi], rfl⟩
    | some i => exact .inl ⟨by simp [statusState, hi], by simpa [statusMode, hi] using modeCode_le i.mode, rfl⟩
  · rw [errField_statusWord]
    exact errCode_le s.err

/-- Settles O1: the registers are closed terms at reset and the list of written bytes is empty (R59). -/
theorem resetValues : Obligations.ResetValues :=
  ⟨by decide, rfl, fun a => Memory.get_nil a⟩

/-! ## Which operation changes what -/

/-- A step is the reset input, or it touches neither RESULT nor the instance and clears no written mark, or it is a write of
CMD that performs a command on a state with the same RESULT, instance and memory. -/
theorem step_reset_or_access_or_command {s t : State} (h : step s = .next t) :
    (s.hostQueue.head? = some .reset ∧ t.inst = none) ∨
    (t.result = s.result ∧ t.inst = s.inst ∧
      ∀ a, (Memory.get s.mem a).isSome = true → (Memory.get t.mem a).isSome = true) ∨
    ∃ v i s', s.hostQueue.head? = some (.write 0x000 4 v) ∧ decodeWord (BitVec.ofNat 32 v) = .ok i ∧
      s'.result = s.result ∧ s'.inst = s.inst ∧ s'.mem = s.mem ∧ exec i s' = .next t := by
  rcases step_next_cases h with
    ⟨-, rfl⟩ | ⟨op, rest, hq, ⟨rfl, rfl⟩ | ⟨a, n, v, -, rfl⟩ | ⟨a, v, -, -, -, -, rfl⟩ | ⟨a, v, -, -, -, rfl⟩ |
      ⟨v, i, rfl, hdec, hexec⟩⟩
  case inl => exact .inr (.inl ⟨rfl, rfl, fun _ ha => ha⟩)
  case inr.inl => exact .inl ⟨by rw [hq]; rfl, rfl⟩
  case inr.inr.inl => exact .inr (.inl ⟨rfl, rfl, fun _ ha => ha⟩)
  case inr.inr.inr.inl => exact .inr (.inl ⟨rfl, rfl, fun y hy => Memory.isSome_setSample _ _ y _ hy⟩)
  case inr.inr.inr.inr.inl => exact .inr (.inl ⟨rfl, rfl, fun y hy => Memory.isSome_set _ _ y _ hy⟩)
  case inr.inr.inr.inr.inr =>
    have hhead : s.hostQueue.head? = some (.write 0x000 4 v) := by rw [hq]; rfl
    exact .inr (.inr ⟨v, i, (s.withHostQueue rest).withCmd (BitVec.ofNat 32 v), hhead, hdec, rfl, rfl, rfl, hexec⟩)

/-- CREATE and DESTROY leave RESULT (R40). -/
theorem exec_next_result {i : Instr} {s t : State} (h : exec i s = .next t) :
    t.result = s.result ∨ i ∈ [Instr.getbits, .getsamples, .encode, .decode] := by
  cases i with
  | create mode =>
    obtain ⟨-, rfl | ⟨-, rfl⟩ | ⟨m, -, rfl | ⟨-, rfl⟩⟩⟩ := execCreate_next h <;> exact .inl rfl
  | destroy =>
    obtain ⟨i, -, rfl⟩ := execDestroy_next h
    exact .inl rfl
  | getbits | getsamples | encode | decode => exact .inr (by decide)

/-- What a command that completes does with the instance: keeps it, makes it (CREATE), ends it (DESTROY), or replaces its
encode fields (ENCODE) or its decode fields (DECODE) alone (R42, R53, R145). -/
theorem exec_next_inst {i : Instr} {s t : State} (h : exec i s = .next t) :
    t.inst = s.inst ∨
    (∃ mode, i = .create mode ∧ s.inst = none) ∨
    (i = .destroy ∧ t.inst = none) ∨
    (i = .encode ∧ ∃ j e, s.inst = some j ∧ t.inst = some ⟨j.mode, ⟨e, j.cs.dec⟩⟩) ∨
    (i = .decode ∧ ∃ j d, s.inst = some j ∧ t.inst = some ⟨j.mode, ⟨j.cs.enc, d⟩⟩) := by
  cases i with
  | create mode =>
    obtain ⟨hnone, -⟩ := execCreate_next h
    exact .inr (.inl ⟨mode, rfl, hnone⟩)
  | destroy =>
    obtain ⟨j, -, rfl⟩ := execDestroy_next h
    exact .inr (.inr (.inl ⟨rfl, rfl⟩))
  | getbits =>
    obtain ⟨j, -, rfl⟩ := execGetbits_next h
    exact .inl rfl
  | getsamples =>
    obtain ⟨j, -, rfl⟩ := execGetsamples_next h
    exact .inl rfl
  | encode =>
    obtain ⟨j, x, e, bytes, hj, -, -, rfl⟩ := execEncode_next h
    exact .inr (.inr (.inr (.inl ⟨rfl, j, e, hj, rfl⟩)))
  | decode =>
    obtain ⟨j, bits, xs, d, hj, -, -, rfl⟩ := execDecode_next h
    exact .inr (.inr (.inr (.inr ⟨rfl, j, d, hj, rfl⟩)))

/-- No command clears a written mark (R55). -/
theorem exec_next_marks {i : Instr} {s t : State} (h : exec i s = .next t) {a : Nat}
    (ha : (Memory.get s.mem a).isSome = true) : (Memory.get t.mem a).isSome = true := by
  cases i with
  | create mode =>
    obtain ⟨-, rfl | ⟨-, rfl⟩ | ⟨m, -, rfl | ⟨-, rfl⟩⟩⟩ := execCreate_next h <;> exact ha
  | destroy =>
    obtain ⟨j, -, rfl⟩ := execDestroy_next h
    exact ha
  | getbits =>
    obtain ⟨j, -, rfl⟩ := execGetbits_next h
    exact ha
  | getsamples =>
    obtain ⟨j, -, rfl⟩ := execGetsamples_next h
    exact ha
  | encode =>
    obtain ⟨j, x, e, bytes, -, -, -, rfl⟩ := execEncode_next h
    exact Memory.isSome_writeBytes _ _ _ _ ha
  | decode =>
    obtain ⟨j, bits, xs, d, -, -, -, rfl⟩ := execDecode_next h
    exact Memory.isSome_writeSamples _ _ _ _ ha

/-- Settles O50: a host access keeps RESULT, and of the commands only the four of R40 do not. -/
theorem resultWrittenByFourCommandsOnly : Obligations.ResultWrittenByFourCommandsOnly := by
  intro s t h hne
  rcases step_reset_or_access_or_command h with
    ⟨hreset, -⟩ | ⟨hresult, -, -⟩ | ⟨v, i, s', hhead, hdec, hresult, -, -, hexec⟩
  · exact .inl hreset
  · exact absurd hresult hne
  · refine .inr ⟨v, i, hhead, hdec, ?_⟩
    rcases exec_next_result hexec with hkept | hi
    · exact absurd (hkept.trans hresult) hne
    · exact hi

/-- What a step does with the instance: `exec_next_inst`, with the write of CMD named. -/
theorem step_next_inst {s t : State} (h : step s = .next t) :
    t.inst = s.inst ∨
    (s.hostQueue.head? = some .reset ∧ t.inst = none) ∨
    ∃ v i, s.hostQueue.head? = some (.write 0x000 4 v) ∧ decodeWord (BitVec.ofNat 32 v) = .ok i ∧
      ((∃ mode, i = .create mode ∧ s.inst = none) ∨
        (i = .destroy ∧ t.inst = none) ∨
        (i = .encode ∧ ∃ j e, s.inst = some j ∧ t.inst = some ⟨j.mode, ⟨e, j.cs.dec⟩⟩) ∨
        (i = .decode ∧ ∃ j d, s.inst = some j ∧ t.inst = some ⟨j.mode, ⟨j.cs.enc, d⟩⟩)) := by
  rcases step_reset_or_access_or_command h with
    hreset | ⟨-, hinst, -⟩ | ⟨v, i, s', hhead, hdec, -, hinst, -, hexec⟩
  · exact .inr (.inl hreset)
  · exact .inl hinst
  · have hcases := exec_next_inst hexec
    rw [hinst] at hcases
    exact hcases.imp_right fun hchanged => .inr ⟨v, i, hhead, hdec, hchanged⟩

/-- Settles O51: only CREATE starts from no instance, only DESTROY and reset end in none, ENCODE and DECODE keep the mode. -/
theorem instanceModeFixedUntilDestroy : Obligations.InstanceModeFixedUntilDestroy := by
  intro s t h
  rcases step_next_inst h with
    hkept | ⟨hreset, hnone⟩ | ⟨v, i, hhead, hdec, ⟨mode, rfl, hnone⟩ | ⟨rfl, hnone⟩ |
      ⟨rfl, j, e, hs, ht⟩ | ⟨rfl, j, d, hs, ht⟩⟩
  case inl => rw [hkept]; cases s.inst <;> simp
  case inr.inl => rw [hnone]; simp [hreset]
  case inr.inr.inl => rw [hnone]; simp [hhead, hdec]
  case inr.inr.inr.inl => rw [hnone]; simp [hhead, hdec]
  case inr.inr.inr.inr.inl => rw [hs, ht]; simp
  case inr.inr.inr.inr.inr => rw [hs, ht]; simp

/-- Settles O52: ENCODE keeps the decode fields, DECODE the encode fields, and every other step that leaves an instance both. -/
theorem codecStateChangedOnlyByItsCommand : Obligations.CodecStateChangedOnlyByItsCommand := by
  intro s t i j h hi hj
  rcases step_next_inst h with
    hkept | ⟨-, hnone⟩ | ⟨v, c, hhead, hdec, ⟨mode, rfl, hnone⟩ | ⟨rfl, hnone⟩ |
      ⟨rfl, k, e, hs, ht⟩ | ⟨rfl, k, d, hs, ht⟩⟩
  case inl =>
    obtain rfl : i = j := by simpa [hi, hj, eq_comm] using hkept
    exact ⟨fun hne => absurd rfl hne, fun hne => absurd rfl hne⟩
  case inr.inl | inr.inr.inr.inl => rw [hnone] at hj; cases hj
  case inr.inr.inl => rw [hnone] at hi; cases hi
  case inr.inr.inr.inr.inl =>
    cases hi.symm.trans hs
    cases hj.symm.trans ht
    exact ⟨fun _ => ⟨v, hhead, hdec⟩, fun hne => absurd rfl hne⟩
  case inr.inr.inr.inr.inr =>
    cases hi.symm.trans hs
    cases hj.symm.trans ht
    exact ⟨fun hne => absurd rfl hne, fun _ => ⟨v, hhead, hdec⟩⟩

/-- Settles O53: neither a host access nor a command clears a mark. -/
theorem writtenMarksPersist : Obligations.WrittenMarksPersist := by
  intro s t a h hreset ha
  rcases step_reset_or_access_or_command h with ⟨hhead, -⟩ | ⟨-, -, hmarks⟩ | ⟨v, i, s', -, -, -, -, hmem, hexec⟩
  · exact absurd hhead hreset
  · exact hmarks a ha
  · exact exec_next_marks hexec (hmem ▸ ha)

/-! ## ENCODE and DECODE in either order (R53, R329) -/

/-- The frame an ENCODE and the frame a DECODE make of one state: neither reads what the other writes, so both orders are
made of these. -/
structure BothFrames (s : State) (i : Inst) (e : EncState) (bytes : List Byte) (xs : List Sample) (d : DecState) : Prop where
  inst : s.inst = some i
  encode : ∃ x, inputSamples i.mode s = some x ∧ encodeFrame s.params i.mode x i.cs.enc = .ok (e, bytes)
  decode : ∃ bits, inputBytes i.mode s = some bits ∧ decodeFrame s.params i.mode bits i.cs.dec = .ok (xs, d)

/-- Reading PCM elements depends on nothing but them. -/
theorem readSamples_congr {m m' : Memory} {a n : Nat}
    (h : ∀ k < n, Memory.getSample m' (a + 2 * k) = Memory.getSample m (a + 2 * k)) :
    Memory.readSamples m' a n = Memory.readSamples m a n := by
  ext1 xs
  rw [Memory.readSamples_eq_some, Memory.readSamples_eq_some]
  exact and_congr_right fun _ => forall₂_congr fun k hk => by rw [h k hk]

/-- Reading bytes depends on nothing but them. -/
theorem readBytes_congr {m m' : Memory} {a n : Nat} (h : ∀ k < n, Memory.get m' (a + k) = Memory.get m (a + k)) :
    Memory.readBytes m' a n = Memory.readBytes m a n := by
  ext1 xs
  rw [Memory.readBytes_eq_some, Memory.readBytes_eq_some]
  exact and_congr_right fun _ => forall₂_congr fun k hk => by rw [h k hk]

/-- DECODE stores into PCM_OUT, which ENCODE does not read (R70). -/
theorem inputSamples_finishDecode (m : FrameMode) (i : Inst) (xs : List Sample) (d : DecState) (s : State) :
    inputSamples m (finishDecode i xs d s) = inputSamples m s := by
  have hbuffer : samplesPerFrame m ≤ 320 := by cases m <;> decide
  refine readSamples_congr fun k hk => ?_
  exact Memory.getSample_writeSamples_outside _ _ (by simp only [pcmInBase, pcmOutBase]; omega)

/-- ENCODE stores into BITS_OUT, which DECODE does not read (R70). -/
theorem inputBytes_finishEncode (m : FrameMode) (i : Inst) (e : EncState) (bytes : List Byte) (s : State) :
    inputBytes m (finishEncode i e bytes s) = inputBytes m s := by
  have hbuffer : bytesPerFrame m ≤ 7 := by cases m <;> decide
  refine readBytes_congr fun k hk => ?_
  exact Memory.get_writeBytes_outside _ _ (by simp only [bitsInBase, bitsOutBase]; omega)

/-- The states an ENCODE and then a DECODE go through. -/
theorem encode_decode_iff (s u t : State) :
    (exec .encode s = .next u ∧ exec .decode u = .next t) ↔
      ∃ i e bytes xs d, BothFrames s i e bytes xs d ∧ u = finishEncode i e bytes s ∧
        t = finishDecode ⟨i.mode, ⟨e, i.cs.dec⟩⟩ xs d u := by
  constructor
  · rintro ⟨hu, ht⟩
    obtain ⟨i, x, e, bytes, hi, hx, henc, rfl⟩ := execEncode_next hu
    obtain ⟨j, bits, xs, d, hj, hbits, hdec, rfl⟩ := execDecode_next ht
    cases hj
    rw [inputBytes_finishEncode] at hbits
    exact ⟨i, e, bytes, xs, d, ⟨hi, ⟨x, hx, henc⟩, ⟨bits, hbits, hdec⟩⟩, rfl, rfl⟩
  · rintro ⟨i, e, bytes, xs, d, ⟨hi, ⟨x, hx, henc⟩, ⟨bits, hbits, hdec⟩⟩, rfl, rfl⟩
    refine ⟨execEncode_ok hi hx henc, execDecode_ok rfl ?_ hdec⟩
    rw [inputBytes_finishEncode]
    exact hbits

/-- The states a DECODE and then an ENCODE go through. -/
theorem decode_encode_iff (s u t : State) :
    (exec .decode s = .next u ∧ exec .encode u = .next t) ↔
      ∃ i e bytes xs d, BothFrames s i e bytes xs d ∧ u = finishDecode i xs d s ∧
        t = finishEncode ⟨i.mode, ⟨i.cs.enc, d⟩⟩ e bytes u := by
  constructor
  · rintro ⟨hu, ht⟩
    obtain ⟨i, bits, xs, d, hi, hbits, hdec, rfl⟩ := execDecode_next hu
    obtain ⟨j, x, e, bytes, hj, hx, henc, rfl⟩ := execEncode_next ht
    cases hj
    rw [inputSamples_finishDecode] at hx
    exact ⟨i, e, bytes, xs, d, ⟨hi, ⟨x, hx, henc⟩, ⟨bits, hbits, hdec⟩⟩, rfl, rfl⟩
  · rintro ⟨i, e, bytes, xs, d, ⟨hi, ⟨x, hx, henc⟩, ⟨bits, hbits, hdec⟩⟩, rfl, rfl⟩
    refine ⟨execDecode_ok hi hbits hdec, execEncode_ok rfl ?_ henc⟩
    rw [inputSamples_finishDecode]
    exact hx

/-- PCM_OUT ends below BITS_OUT, so the two stores commute byte by byte (R70). -/
theorem get_writeSamples_writeBytes {xs : List Sample} (hxs : xs.length ≤ 320) (m : Memory) (bytes : List Byte) (a : Nat) :
    Memory.get (Memory.writeSamples (Memory.writeBytes m bitsOutBase bytes) pcmOutBase xs) a =
      Memory.get (Memory.writeBytes (Memory.writeSamples m pcmOutBase xs) bitsOutBase bytes) a := by
  by_cases hin : pcmOutBase ≤ a ∧ a < pcmOutBase + 2 * xs.length
  · have hbelow : ¬(bitsOutBase ≤ a ∧ a < bitsOutBase + bytes.length) := by
      simp only [pcmOutBase, bitsOutBase] at hin ⊢
      omega
    rw [Memory.get_writeBytes_outside _ _ hbelow]
    exact Memory.get_writeSamples_inside _ _ _ hin
  · rw [Memory.get_writeSamples_outside _ _ hin, Memory.get_writeBytes, Memory.get_writeBytes,
      Memory.get_writeSamples_outside _ _ hin]

/-- The two stores of one pair of frames leave the same bytes in either order. -/
theorem BothFrames.get_stores {s : State} {i : Inst} {e : EncState} {bytes : List Byte} {xs : List Sample} {d : DecState}
    (h : BothFrames s i e bytes xs d) (a : Nat) :
    Memory.get (Memory.writeSamples (Memory.writeBytes s.mem bitsOutBase bytes) pcmOutBase xs) a =
      Memory.get (Memory.writeBytes (Memory.writeSamples s.mem pcmOutBase xs) bitsOutBase bytes) a := by
  obtain ⟨bits, -, hdec⟩ := h.decode
  obtain ⟨-, -, -, hlen⟩ := decodeFrame_ok hdec
  have hbuffer : samplesPerFrame i.mode ≤ 320 := by cases i.mode <;> decide
  exact get_writeSamples_writeBytes (by omega) s.mem bytes a

/-- Settles O43: both orders are made of the same two frames; they leave the same bytes, and RESULT is the last command's. -/
theorem encodeDecodeCommute : Obligations.EncodeDecodeCommute := by
  refine ⟨fun s u t hu ht => ?_, fun s u t hu ht => ?_⟩
  · obtain ⟨i, e, bytes, xs, d, hframes, rfl, rfl⟩ := (encode_decode_iff s u t).mp ⟨hu, ht⟩
    obtain ⟨hu', ht'⟩ := (decode_encode_iff s _ _).mpr ⟨i, e, bytes, xs, d, hframes, rfl, rfl⟩
    exact ⟨_, _, hu', ht', rfl, fun a => (hframes.get_stores a).symm, rfl, rfl⟩
  · obtain ⟨i, e, bytes, xs, d, hframes, rfl, rfl⟩ := (decode_encode_iff s u t).mp ⟨hu, ht⟩
    obtain ⟨hu', ht'⟩ := (encode_decode_iff s _ _).mpr ⟨i, e, bytes, xs, d, hframes, rfl, rfl⟩
    exact ⟨_, _, hu', ht', rfl, fun a => hframes.get_stores a, rfl, rfl⟩

end Sys2Proof.Proofs.WholeMachine

/-! SUPPORT. The host window's element accesses (R70, R75, R76): which region a PCM element and a bit-buffer byte are
admitted to, the step that reads one, and the step that writes one of an input buffer. -/

namespace Sys2Proof.Proofs.WindowAccess

open Sys2Proof.Machine
open Sys2Proof.Proofs.WholeMachine (PcmElement BitsAddress)

/-! ## Admission and the element behind it -/

/-- The registers' addresses and their regions (R70, R72). -/
theorem admitted_registers :
    admitted false 0x000 4 = some ⟨0x000, 4, 4, true, .cmd⟩ ∧
      admitted false 0x004 4 = some ⟨0x004, 4, 4, false, .status⟩ ∧
      admitted false 0x008 4 = some ⟨0x008, 4, 4, false, .result⟩ := by decide

theorem admitted_pcmIn (isWrite : Bool) {a : Nat} (hlo : 0x100 ≤ a) (hhi : a < 0x380) (heven : a % 2 = 0) :
    admitted isWrite a 2 = some ⟨0x100, 640, 2, true, .pcmIn⟩ :=
  (admitted_eq_some _ _ _ _).mpr ⟨by simp [windowMap], hlo, hhi, rfl, heven, fun _ => rfl⟩

theorem admitted_bitsIn (isWrite : Bool) {a : Nat} (hlo : 0x800 ≤ a) (hhi : a < 0x807) :
    admitted isWrite a 1 = some ⟨0x800, 7, 1, true, .bitsIn⟩ :=
  (admitted_eq_some _ _ _ _).mpr ⟨by simp [windowMap], hlo, hhi, rfl, Nat.mod_one a, fun _ => rfl⟩

/-- A 2-byte read at a PCM element's address is admitted, in PCM_IN and PCM_OUT alike, and its element is the sample there. -/
theorem admitted_read_pcm {a : Nat} (h : PcmElement a) :
    ∃ r, admitted false a 2 = some r ∧
      ∀ s, elementAt s r a = (Memory.getSample s.mem a).map (BitVec.setWidth 32) := by
  obtain ⟨i, hi, rfl | rfl⟩ := h
  · exact ⟨_, admitted_pcmIn false (by omega) (by omega) (by omega), fun _ => rfl⟩
  · refine ⟨⟨0x400, 640, 2, false, .pcmOut⟩, (admitted_eq_some _ _ _ _).mpr ⟨by simp [windowMap], ?_⟩, fun _ => rfl⟩
    simp only [Bool.false_eq_true, false_implies, and_true, true_and]
    omega

/-- A 1-byte read of a bit-buffer byte is admitted, in BITS_IN and BITS_OUT alike, and its element is the byte there. -/
theorem admitted_read_bits {a : Nat} (h : BitsAddress a) :
    ∃ r, admitted false a 1 = some r ∧ ∀ s, elementAt s r a = (Memory.get s.mem a).map (BitVec.setWidth 32) := by
  rcases h with ⟨hlo, hhi⟩ | ⟨hlo, hhi⟩
  · exact ⟨_, admitted_bitsIn false hlo hhi, fun _ => rfl⟩
  · exact ⟨⟨0x810, 7, 1, false, .bitsOut⟩, (admitted_eq_some _ _ _ _).mpr
      ⟨by simp [windowMap], hlo, hhi, rfl, Nat.mod_one a, nofun⟩, fun _ => rfl⟩

/-! ## The step that accesses an element -/

/-- A read of a written PCM element (R75). -/
theorem step_read_pcm {s : State} {rest : List HostOp} {a : Addr} {v : Sample} (hq : s.hostQueue = .read a 2 :: rest)
    (ha : PcmElement a.toNat) (hv : Memory.getSample s.mem a.toNat = some v) :
    step s = .next { s with hostQueue := rest, readData := some (v.setWidth 32) } := by
  obtain ⟨r, hadm, helement⟩ := admitted_read_pcm ha
  exact step_read hq hadm (by rw [helement, State.withHostQueue_mem, hv, Option.map_some])

/-- A read of a written bit-buffer byte (R75). -/
theorem step_read_bits {s : State} {rest : List HostOp} {a : Addr} {v : Byte} (hq : s.hostQueue = .read a 1 :: rest)
    (ha : BitsAddress a.toNat) (hv : Memory.get s.mem a.toNat = some v) :
    step s = .next { s with hostQueue := rest, readData := some (v.setWidth 32) } := by
  obtain ⟨r, hadm, helement⟩ := admitted_read_bits ha
  exact step_read hq hadm (by rw [helement, State.withHostQueue_mem, hv, Option.map_some])

/-- A write of a PCM_IN element (R75). -/
theorem step_write_pcmIn {s : State} {rest : List HostOp} {a : Addr} {v : Nat} (hq : s.hostQueue = .write a 2 v :: rest)
    (hlo : 0x100 ≤ a.toNat) (hhi : a.toNat < 0x380) (heven : a.toNat % 2 = 0) :
    step s =
      .next { s with hostQueue := rest, mem := Memory.setSample s.mem a.toNat (BitVec.ofNat 16 v) } := by
  rw [step_cons hq, performOp, hostWrite, admitted_pcmIn true hlo hhi heven]
  rfl

/-- A write of a BITS_IN byte (R75). -/
theorem step_write_bitsIn {s : State} {rest : List HostOp} {a : Addr} {v : Nat} (hq : s.hostQueue = .write a 1 v :: rest)
    (hlo : 0x800 ≤ a.toNat) (hhi : a.toNat < 0x807) :
    step s = .next { s with hostQueue := rest, mem := Memory.set s.mem a.toNat (BitVec.ofNat 8 v) } := by
  rw [step_cons hq, performOp, hostWrite, admitted_bitsIn true hlo hhi]
  rfl

/-! ## The statements -/

/-- Settles O45: each address is admitted to its one region, whose element is the register or the buffer's cell. -/
theorem hostReadReturnsElement : Obligations.HostReadReturnsElement := by
  intro s rest a n hq
  obtain ⟨hcmd, hstatus, hresult⟩ := admitted_registers
  refine ⟨?cmd, ?status, ?result, ?pcm, ?bits⟩
  case cmd => rintro rfl rfl; exact step_read hq hcmd rfl
  case status => rintro rfl rfl; exact step_read hq hstatus rfl
  case result => rintro rfl rfl; exact step_read hq hresult rfl
  case pcm =>
    rintro i hi v rfl ha hv
    exact step_read_pcm hq ⟨i, hi, ha⟩ hv
  case bits =>
    rintro i hi v rfl ha hv
    exact step_read_bits hq (by unfold BitsAddress; omega) hv

/-- Settles O47: the write stores its element, which the read that follows finds there; the cells of other addresses are not
touched. -/
theorem hostWriteThenReadReturnsValue : Obligations.HostWriteThenReadReturnsValue := by
  rintro s rest a n v i hq (⟨rfl, hi, ha, hv⟩ | ⟨rfl, hi, ha, hv⟩)
  case inl =>
    have hwrite := step_write_pcmIn hq (by omega) (by omega) (by omega)
    have hread := Memory.getSample_setSample_same s.mem a.toNat (BitVec.ofNat 16 v)
    refine ⟨_, _, hwrite, step_read_pcm rfl ⟨i, hi, .inl ha⟩ hread, ?_, rfl, fun x hx => ?_⟩
    · exact congrArg some (BitVec.setWidth_ofNat_of_le_of_lt (by decide) hv)
    · rw [Memory.get_setSample, if_neg (by omega), if_neg (by omega)]
  case inr =>
    have hwrite := step_write_bitsIn hq (by omega) (by omega)
    have hread := Memory.get_set_same s.mem a.toNat (BitVec.ofNat 8 v)
    refine ⟨_, _, hwrite, step_read_bits rfl (.inl (by omega)) hread, ?_, rfl, fun x hx => ?_⟩
    · exact congrArg some (BitVec.setWidth_ofNat_of_le_of_lt (by decide) hv)
    · exact Memory.get_set_other s.mem _ (by omega)

end Sys2Proof.Proofs.WindowAccess

/-! SUPPORT. The command words (R100 to R105, R118, R294): decoder and encoder agree, which words select each command, and
which are undefined; and sub-fields packed in order (R113). -/

namespace Sys2Proof.Proofs.Encoding

open Sys2Proof.Machine

/-! ## A word and its fields -/

/-- Two words are equal when their three fields are (R100). -/
theorem word_eq_iff (a b : Word) :
    a = b ↔ fieldRsvd a = fieldRsvd b ∧ fieldMode a = fieldMode b ∧ fieldOp a = fieldOp b := by
  refine ⟨by rintro rfl; exact ⟨rfl, rfl, rfl⟩, fun ⟨hrsvd, hmode, hop⟩ => ?_⟩
  rw [fields_word a, fields_word b, hrsvd, hmode, hop]

@[simp] theorem fieldOp_assembleWord (op : BitVec 8) (mode : Nat) : fieldOp (assembleWord op mode) = op := by
  rw [fieldOp, assembleWord]
  exact BitVec.extractLsb'_append_eq_right

@[simp] theorem fieldMode_assembleWord (op : BitVec 8) (mode : Nat) :
    fieldMode (assembleWord op mode) = BitVec.ofNat 4 mode := by
  rw [fieldMode, assembleWord, BitVec.extractLsb'_append_eq_of_le (by decide)]
  exact BitVec.extractLsb'_append_eq_right

@[simp] theorem fieldRsvd_assembleWord (op : BitVec 8) (mode : Nat) : fieldRsvd (assembleWord op mode) = 0 := by
  rw [fieldRsvd, assembleWord, BitVec.extractLsb'_append_eq_of_le (by decide)]
  exact BitVec.extractLsb'_append_eq_left

/-- Which word `assembleWord` builds, by the word's fields. -/
theorem assembleWord_eq_iff (op : BitVec 8) (mode : Nat) (w : Word) :
    assembleWord op mode = w ↔ fieldRsvd w = 0 ∧ fieldMode w = BitVec.ofNat 4 mode ∧ fieldOp w = op := by
  rw [eq_comm, word_eq_iff]
  simp

/-- Which word `assembleWord` builds, as numbers (R105). -/
theorem assembleWord_eq_iff_toNat (op : BitVec 8) (mode : Nat) (w : Word) :
    assembleWord op mode = w ↔
      w.toNat / 2 ^ 12 = 0 ∧ w.toNat / 256 % 16 = mode % 16 ∧ w.toNat % 256 = op.toNat := by
  obtain ⟨hop, hmode, hrsvd⟩ := fields_toNat w
  rw [assembleWord_eq_iff, ← BitVec.toNat_inj, ← BitVec.toNat_inj, ← BitVec.toNat_inj, hop, hmode, hrsvd]
  simp

/-! ## Decoding inverts encoding -/

theorem decodeWord_encodeWord {i : Instr} (h : i.wf = true) : decodeWord (encodeWord i) = .ok i := by
  cases i with
  | create mode =>
    have hmode : mode < 16 := by simpa [Instr.wf] using h
    simp [decodeWord, encodeWord, Nat.mod_eq_of_lt hmode]
  | destroy => rfl
  | getbits => rfl
  | getsamples => rfl
  | encode => rfl
  | decode => rfl

theorem wf_of_decodeWord {w : Word} {i : Instr} (h : decodeWord w = .ok i) : i.wf = true := by
  obtain ⟨-, ⟨-, rfl⟩ | ⟨-, ⟨-, rfl⟩ | ⟨-, rfl⟩ | ⟨-, rfl⟩ | ⟨-, rfl⟩ | ⟨-, rfl⟩⟩⟩ := decodeWord_ok h
  · exact decide_eq_true (fieldMode w).isLt
  all_goals rfl

theorem encodeWord_of_decodeWord {w : Word} {i : Instr} (h : decodeWord w = .ok i) : encodeWord i = w := by
  obtain ⟨hrsvd, ⟨hop, rfl⟩ | ⟨hmode, ⟨hop, rfl⟩ | ⟨hop, rfl⟩ | ⟨hop, rfl⟩ | ⟨hop, rfl⟩ | ⟨hop, rfl⟩⟩⟩ := decodeWord_ok h
  · exact (assembleWord_eq_iff _ _ w).mpr ⟨hrsvd, by simp, hop⟩
  all_goals exact (assembleWord_eq_iff _ _ w).mpr ⟨hrsvd, hmode, hop⟩

/-- A word decodes to a command exactly when the command is well formed and the word is its word. -/
theorem decodeWord_eq_ok_iff (w : Word) (i : Instr) : decodeWord w = .ok i ↔ i.wf = true ∧ encodeWord i = w :=
  ⟨fun h => ⟨wf_of_decodeWord h, encodeWord_of_decodeWord h⟩, fun ⟨hwf, hw⟩ => hw ▸ decodeWord_encodeWord hwf⟩

/-- Settles O4: the fields of an assembled word are the ones it was assembled from, and a word is its fields. -/
theorem decodeAndEncodeAgree : Obligations.DecodeAndEncodeAgree :=
  ⟨fun _ hwf => decodeWord_encodeWord hwf, fun w i h => (decodeWord_eq_ok_iff w i).mp h⟩

/-- Settles O3: each word is the word of its command. -/
theorem sampleWordsDecode : Obligations.SampleWordsDecode :=
  ⟨decodeWord_encodeWord (i := .create 0) rfl, decodeWord_encodeWord (i := .create 1) rfl,
    decodeWord_encodeWord (i := .create 2) rfl, decodeWord_encodeWord (i := .create 15) rfl,
    decodeWord_encodeWord (i := .destroy) rfl, decodeWord_encodeWord (i := .getbits) rfl,
    decodeWord_encodeWord (i := .getsamples) rfl, decodeWord_encodeWord (i := .encode) rfl,
    decodeWord_encodeWord (i := .decode) rfl⟩

/-! ## Match and mask (R104) -/

/-- CREATE's mask keeps RSVD and OP and clears MODE. -/
theorem and_createMask_eq_iff (w : Word) : w &&& 0xFFFFF0FF = 0x00000001 ↔ fieldRsvd w = 0 ∧ fieldOp w = 1 := by
  have hrsvd : fieldRsvd (w &&& 0xFFFFF0FF) = fieldRsvd w := by
    rw [fieldRsvd, BitVec.extractLsb'_and]
    exact BitVec.and_allOnes
  have hmode : fieldMode (w &&& 0xFFFFF0FF) = 0 := by
    rw [fieldMode, BitVec.extractLsb'_and]
    exact BitVec.and_zero
  have hop : fieldOp (w &&& 0xFFFFF0FF) = fieldOp w := by
    rw [fieldOp, BitVec.extractLsb'_and]
    exact BitVec.and_allOnes
  rw [word_eq_iff, hrsvd, hmode, hop]
  exact ⟨fun ⟨h1, _, h2⟩ => ⟨h1, h2⟩, fun ⟨h1, h2⟩ => ⟨h1, rfl, h2⟩⟩

theorem decodeWord_create_iff (w : Word) (mode : Nat) :
    decodeWord w = .ok (.create mode) ↔ w &&& 0xFFFFF0FF = 0x00000001 ∧ mode = (fieldMode w).toNat := by
  rw [decodeWord_eq_ok_iff, and_createMask_eq_iff, encodeWord, assembleWord_eq_iff]
  constructor
  · rintro ⟨hwf, hrsvd, hmode, hop⟩
    have hlt : mode < 16 := by simpa [Instr.wf] using hwf
    exact ⟨⟨hrsvd, hop⟩, by rw [hmode, BitVec.toNat_ofNat, Nat.mod_eq_of_lt hlt]⟩
  · rintro ⟨⟨hrsvd, hop⟩, rfl⟩
    exact ⟨decide_eq_true (fieldMode w).isLt, hrsvd, by simp, hop⟩

/-- The mask of all ones selects one word, the command's own. -/
theorem decodeWord_iff_fullMask (w : Word) {i : Instr} (hwf : i.wf = true) :
    decodeWord w = .ok i ↔ w &&& 0xFFFFFFFF = encodeWord i := by
  have hmask : w &&& 0xFFFFFFFF = w := BitVec.and_allOnes
  rw [decodeWord_eq_ok_iff, hmask, eq_comm (a := w)]
  exact and_iff_right hwf

/-- Settles O5: CREATE's mask clears MODE and keeps the other fields, the other five masks keep the whole word. -/
theorem matchMaskTable : Obligations.MatchMaskTable := fun w =>
  ⟨decodeWord_create_iff w, decodeWord_iff_fullMask w (i := .destroy) rfl, decodeWord_iff_fullMask w (i := .getbits) rfl,
    decodeWord_iff_fullMask w (i := .getsamples) rfl, decodeWord_iff_fullMask w (i := .encode) rfl,
    decodeWord_iff_fullMask w (i := .decode) rfl⟩

/-! ## Undefined words (R105, R294) -/

theorem decodeWord_toOption_eq_none_iff (w : Word) :
    (decodeWord w).toOption = none ↔ ∀ i, decodeWord w ≠ .ok i := by
  cases decodeWord w <;> simp [Except.toOption]

/-- Which words decode, by their fields as numbers. -/
theorem exists_decodeWord_iff (w : Word) :
    (∃ i, decodeWord w = .ok i) ↔ w.toNat / 2 ^ 12 = 0 ∧
      (w.toNat % 256 = 1 ∨ 2 ≤ w.toNat % 256 ∧ w.toNat % 256 ≤ 6 ∧ w.toNat / 256 % 16 = 0) := by
  simp only [decodeWord_eq_ok_iff]
  constructor
  · rintro ⟨i, -, hw⟩
    cases i
    all_goals
      obtain ⟨hrsvd, hmode, hop⟩ := (assembleWord_eq_iff_toNat _ _ w).mp hw
      simp only [BitVec.reduceToNat] at hop
      omega
  · rintro ⟨hrsvd, hop | ⟨hlo, hhi, hmode⟩⟩
    · exact ⟨.create (w.toNat / 256 % 16), decide_eq_true (Nat.mod_lt _ (by decide)),
        (assembleWord_eq_iff_toNat _ _ w).mpr ⟨hrsvd, by omega, hop⟩⟩
    · have word (op : BitVec 8) (hop : w.toNat % 256 = op.toNat) : assembleWord op 0 = w :=
        (assembleWord_eq_iff_toNat op 0 w).mpr ⟨hrsvd, hmode, hop⟩
      have hop : w.toNat % 256 = 2 ∨ w.toNat % 256 = 3 ∨ w.toNat % 256 = 4 ∨ w.toNat % 256 = 5 ∨ w.toNat % 256 = 6 := by
        omega
      rcases hop with hop | hop | hop | hop | hop
      · exact ⟨.destroy, rfl, word _ hop⟩
      · exact ⟨.getbits, rfl, word _ hop⟩
      · exact ⟨.getsamples, rfl, word _ hop⟩
      · exact ⟨.encode, rfl, word _ hop⟩
      · exact ⟨.decode, rfl, word _ hop⟩

/-- The write of an undefined word to CMD (R294). -/
theorem step_undefined {s : State} {rest : List HostOp} {v : Nat} (hq : s.hostQueue = .write 0x000 4 v :: rest)
    (hw : (decodeWord (BitVec.ofNat 32 v)).toOption = none) :
    step s = faultErr .illegalCmd ((s.withHostQueue rest).withCmd (BitVec.ofNat 32 v)) := by
  rw [step_command hq]
  rcases commandWrite_cases (BitVec.ofNat 32 v) (s.withHostQueue rest) with ⟨-, hc⟩ | ⟨i, hi, -⟩
  · exact hc
  · exact absurd hi ((decodeWord_toOption_eq_none_iff _).mp hw i)

/-- Settles O6: a word is undefined when it is no command's word, and writing one raises ILLEGAL_CMD with CMD written. -/
theorem undefinedWordsFaultIllegalCmd : Obligations.UndefinedWordsFaultIllegalCmd := by
  refine ⟨fun w => ?_, fun s rest v hq hw => ⟨_, step_undefined hq hw, ?_, ?_⟩⟩
  · rw [decodeWord_toOption_eq_none_iff, ← not_exists, exists_decodeWord_iff]
    omega
  · rw [errField_statusWord]; rfl
  · rw [faultField_statusWord]; rfl

/-! ## Sub-fields (R113) -/

/-- Two fields packed side by side are one field: the first value above the second. -/
theorem packBits_packBits (buf : List Byte) (off w w' v v' : Nat) (hv' : v' < 2 ^ w')
    (h : off + (w + w') ≤ 8 * buf.length) :
    packBits (packBits buf off w v) (off + w) w' v' = packBits buf off (w + w') (v * 2 ^ w' + v') := by
  refine buffer_ext (by simp) fun q => ?_
  rw [getBit_packBits _ _ _ _ (by simp; omega), getBit_packBits _ _ _ _ (by omega), getBit_packBits _ _ _ _ h,
    mul_comm v, Nat.testBit_two_pow_mul_add v hv']
  by_cases hsecond : off + w ≤ q ∧ q < off + w + w'
  · rw [if_pos hsecond, if_pos (by omega), if_pos (by omega)]
    congr 1
    omega
  · rw [if_neg hsecond]
    by_cases hfirst : off ≤ q ∧ q < off + w
    · rw [if_pos hfirst, if_pos (by omega), if_neg (by omega)]
      congr 1
      omega
    · rw [if_neg hfirst, if_neg (by omega)]

/-- Sub-fields packed behind a field extend it: `w` and `v` are the width and the value packed so far. -/
theorem foldl_packBits_eq (subs : List (Nat × Nat)) (buf : List Byte) (off w v : Nat) (hfit : ∀ f ∈ subs, f.2 < 2 ^ f.1)
    (hlen : off + (w + (subs.map Prod.fst).sum) ≤ 8 * buf.length) :
    (subs.foldl (fun (a : List Byte × Nat) f => (packBits a.1 a.2 f.1 f.2, a.2 + f.1)) (packBits buf off w v, off + w)).1 =
      packBits buf off (w + (subs.map Prod.fst).sum) (subs.foldl (fun v f => v * 2 ^ f.1 + f.2) v) := by
  induction subs generalizing w v with
  | nil => rfl
  | cons f rest ih =>
    obtain ⟨hf, hrest⟩ := List.forall_mem_cons.mp hfit
    rw [List.map_cons, List.sum_cons, ← Nat.add_assoc w] at hlen ⊢
    rw [List.foldl_cons, List.foldl_cons, packBits_packBits buf off w f.1 v f.2 hf (by omega), Nat.add_assoc off]
    exact ih (w + f.1) _ hrest hlen

/-- Settles O24: an empty field is packed before the first sub-field. -/
theorem subfieldsPackAsOneValue : Obligations.SubfieldsPackAsOneValue := by
  intro subs buf off hfit hlen
  have h := foldl_packBits_eq subs buf off 0 0 hfit (by rwa [Nat.zero_add])
  rwa [Nat.zero_add] at h

end Sys2Proof.Proofs.Encoding

/-! SUPPORT. The FrameCodec (40_framecodec.md): CREATE case by case, what a session starts with (R42, R143), and the three
other commands that touch no audio. -/

namespace Sys2Proof.Proofs.FrameCodec

open Sys2Proof.Machine

/-! ## Mode codes (R102) -/

theorem modeOfCode_eq_some_iff (mode : Nat) (m : FrameMode) :
    modeOfCode mode = some m ↔ mode = 0 ∧ m = .A ∨ mode = 1 ∧ m = .B ∨ mode = 2 ∧ m = .C := by
  refine ⟨modeOfCode_eq_some, ?_⟩
  rintro (⟨rfl, rfl⟩ | ⟨rfl, rfl⟩ | ⟨rfl, rfl⟩) <;> rfl

theorem exists_modeOfCode {mode : Nat} (h : mode ≤ 2) : ∃ m, modeOfCode mode = some m := by
  interval_cases mode
  · exact ⟨.A, rfl⟩
  · exact ⟨.B, rfl⟩
  · exact ⟨.C, rfl⟩

/-- STATUS.MODE of an instance is the code CREATE named (R142). -/
theorem modeCode_of_modeOfCode {mode : Nat} {m : FrameMode} (h : modeOfCode mode = some m) :
    modeCode m = BitVec.ofNat 4 mode := by
  obtain ⟨rfl, rfl⟩ | ⟨rfl, rfl⟩ | ⟨rfl, rfl⟩ := modeOfCode_eq_some h <;> rfl

/-! ## CREATE with no instance (R142, R146, R147) -/

theorem execCreate_unsupported {s : State} {mode : Nat} (hi : s.inst = none) (hm : modeOfCode mode = none) :
    execCreate mode s = .next (s.withErr .badMode) := by
  simp [execCreate, hi, hm, statusErr]

theorem execCreate_supported {s : State} {mode : Nat} {m : FrameMode} (hi : s.inst = none)
    (hm : modeOfCode mode = some m) : execCreate mode s = createWithDraw m s := by
  simp [execCreate, hi, hm]

theorem createWithDraw_true {s : State} (m : FrameMode) (hc : s.config.createMayFail = true)
    (hd : s.params.failDraw s.draws = true) :
    createWithDraw m s = .next ((s.withDraws (s.draws + 1)).withErr .noResource) := by
  simp [createWithDraw, hc, hd, statusErr]

/-- With no true draw the instance is built; a draw is counted only where one is taken (log 8). -/
theorem createWithDraw_not_true {s : State} (m : FrameMode)
    (hd : s.config.createMayFail = true → s.params.failDraw s.draws = false) :
    createWithDraw m s =
      .next (buildInstance m (s.withDraws (if s.config.createMayFail then s.draws + 1 else s.draws))) := by
  cases hc : s.config.createMayFail with
  | true => simp [createWithDraw, hc, hd hc]
  | false => simp [createWithDraw, hc, State.withDraws]

/-- Where CREATE_MAY_FAIL is false, a CREATE of a supported mode always completes. -/
theorem execCreate_of_not_mayFail {s : State} {mode : Nat} {m : FrameMode} (hi : s.inst = none)
    (hm : modeOfCode mode = some m) (hc : s.config.createMayFail = false) :
    execCreate mode s = .next (buildInstance m s) := by
  rw [execCreate_supported hi hm, createWithDraw_not_true m (by simp [hc])]
  simp [hc, State.withDraws]

/-! ## Session start (R42, R143) -/

/-- Where `π/RESET_WO` has a floor that is a count, the session starts with that many harmonics. -/
theorem resetHarmonics_of_floor {p : Params} {n : Nat} (h : (p.div p.pi p.resetWo).floor? = some (n : Int)) :
    resetHarmonics p = n := by
  simp [resetHarmonics, harmonicQuotient, h]

/-- The instance CREATE builds depends on the state through the configuration alone. -/
theorem buildInstance_inst_of_config_eq {s s' : State} (m : FrameMode) (h : s.config = s'.config) :
    (buildInstance m s).inst = (buildInstance m s').inst := by
  simp [State.params, h]

/-! ## DESTROY, GETBITS and GETSAMPLES with an instance (R150 to R153) -/

theorem execDestroy_some {s : State} {i : Inst} (hi : s.inst = some i) :
    execDestroy s = .next ((s.withInst none).withErr .ok) := withInstance_some hi _

theorem execGetbits_some {s : State} {i : Inst} (hi : s.inst = some i) :
    execGetbits s = .next ((s.withResult (BitVec.ofNat 32 (bitsPerFrame i.mode))).withErr .ok) :=
  withInstance_some hi _

theorem execGetsamples_some {s : State} {i : Inst} (hi : s.inst = some i) :
    execGetsamples s = .next ((s.withResult (BitVec.ofNat 32 (samplesPerFrame i.mode))).withErr .ok) :=
  withInstance_some hi _

/-! ## The statements -/

/-- Settles O10: the checks pass and no draw is true, so the instance is built, and its session is `sessionStart`, which holds
the values of R42's table; only the harmonic count is computed (`resetHarmonics_of_floor`). -/
theorem createStartsSession : Obligations.CreateStartsSession := by
  intro s mode m hi hmode hd
  have hm : modeOfCode mode = some m := (modeOfCode_eq_some_iff mode m).mpr hmode
  have hexec := (execCreate_supported hi hm).trans (createWithDraw_not_true m hd)
  refine ⟨_, sessionStart s.params, hexec, rfl, ?state, ?mode, ?err,
    rfl, rfl, rfl, rfl, rfl, rfl, fun _ => resetHarmonics_of_floor, rfl, rfl, rfl, rfl, rfl⟩
  case state => simp [statusState]
  case mode => simpa [statusMode] using modeCode_of_modeOfCode hm
  case err => simp [ErrCode.code]

/-- Settles O11: a code above 2 names no mode. -/
theorem createUnsupportedModeOnlySetsErr : Obligations.CreateUnsupportedModeOnlySetsErr :=
  fun _ _ hi hmode => execCreate_unsupported hi (modeOfCode_eq_none hmode)

/-- Settles O12: the checks before the draw pass, and the draw is true. -/
theorem createFailedDrawOnlySetsErr : Obligations.CreateFailedDrawOnlySetsErr := by
  intro s mode hi hmode hc hd
  obtain ⟨m, hm⟩ := exists_modeOfCode hmode
  exact (execCreate_supported hi hm).trans (createWithDraw_true m hc hd)

/-- Settles O15: STATUS.STATE and STATUS.MODE follow from the instance being gone. -/
theorem destroyEndsInstance : Obligations.DestroyEndsInstance := by
  intro s hs
  obtain ⟨i, hi⟩ := Option.isSome_iff_exists.mp hs
  refine ⟨_, execDestroy_some hi, rfl, ?state, ?mode, ?err⟩
  case state => simp [statusState]
  case mode => simp [statusMode]
  case err => simp [ErrCode.code]

/-- Settles O16: both CREATEs build the instance that the configuration fixes, and DESTROY keeps the configuration. -/
theorem sessionStartForgetsEarlierSession : Obligations.SessionStartForgetsEarlierSession := by
  intro s u t mode hs hc hmode hdestroy hcreate
  obtain ⟨m, hm⟩ := exists_modeOfCode hmode
  obtain ⟨i, -, rfl⟩ := execDestroy_next hdestroy
  have hbuilt := execCreate_of_not_mayFail (s := (s.withInst none).withErr .ok) rfl hm hc
  obtain rfl := Host.Outcome.next.inj (hbuilt.symm.trans hcreate)
  exact ⟨_, execCreate_of_not_mayFail rfl hm hc, buildInstance_inst_of_config_eq m rfl⟩

/-- Settles O17: BITS of each of the three modes (R10). -/
theorem getbitsReportsBits : Obligations.GetbitsReportsBits := by
  intro s ⟨m, cs⟩ hi
  have hexec := execGetbits_some hi
  cases m <;> exact hexec

/-- Settles O18: SAMPLES of each of the three modes (R10). -/
theorem getsamplesReportsSamples : Obligations.GetsamplesReportsSamples := by
  intro s ⟨m, cs⟩ hi
  have hexec := execGetsamples_some hi
  cases m <;> exact hexec

end Sys2Proof.Proofs.FrameCodec

/-! SUPPORT. The bit packer (41_bitpacker.md): the positions PACK writes and UNPACK reads (R170 to R172), and the two round
trips of a frame (R176, R177). -/

namespace Sys2Proof.Proofs.BitPacker

open Sys2Proof.Machine

/-! ## PACK and UNPACK of one field (R170 to R172) -/

/-- Settles O19: PACK is its loop on a value that fits, and the loop writes the field's positions. -/
theorem packWritesExactlyItsPositions : Obligations.PackWritesExactlyItsPositions := by
  intro buf off w v hin
  rcases packField_cases buf off w v with ⟨hfits, hpack⟩ | ⟨hwide, hpack⟩
  · exact ⟨fun hwide => absurd hfits hwide.not_gt,
      fun _ => ⟨_, hpack, length_packBits buf off w v, getBit_packBits buf off w v hin⟩⟩
  · exact ⟨fun _ => hpack, fun hfits => absurd hfits hwide.not_gt⟩

/-- Position `p` as a digit of the number its byte is (R170). -/
theorem toNat_getBit {buf : List Byte} {p : Nat} (h : p / 8 < buf.length) :
    (getBit buf p).toNat = buf[p / 8].toNat / 2 ^ (7 - p % 8) % 2 := by
  rw [← Nat.toNat_testBit, BitVec.testBit_toNat]
  simp only [getBit, List.getElem?_eq_getElem h]

/-- Every value of `w` bits comes out of a buffer that PACK wrote it to (R172). -/
theorem exists_unpackField_eq (off : Nat) {w v : Nat} (hv : v < 2 ^ w) :
    ∃ buf : List Byte, off + w ≤ 8 * buf.length ∧ unpackField buf off w = v := by
  have hlen : off + w ≤ 8 * (List.replicate (off + w) (0 : Byte)).length := by
    rw [List.length_replicate]
    omega
  refine ⟨packBits (List.replicate (off + w) 0) off w v, ?_, unpackField_packBits _ off w v hv hlen⟩
  rwa [length_packBits]

/-- Settles O20: the loop of UNPACK builds the value digit by digit, and a value packed comes out again. -/
theorem unpackReadsItsPositions : Obligations.UnpackReadsItsPositions :=
  ⟨fun _ _ _ => toNat_getBit _,
    fun buf off w => ⟨unpackField_lt buf off w, testBit_unpackField buf off w⟩,
    fun _ _ _ _ => unpackField_congr,
    fun off _ _ => exists_unpackField_eq off⟩

/-! ## Unpacking a packed frame (R176) -/

/-- Settles O22: values that fit are all packed, and the packed values are the list's own but for the spare field. -/
theorem unpackOfPackFrame : Obligations.UnpackOfPackFrame := by
  intro p m fields hnames hfit
  rcases packFrame_cases p m fields with ⟨-, buf, hpack, hlen, hunpack⟩ | ⟨⟨f, hf, hwide⟩, -⟩
  · rw [map_layout_packedValue hnames] at hunpack
    exact ⟨buf, hpack, hlen, fun hspare => hunpack.trans (map_spare_zero hspare), hunpack⟩
  · exact absurd (hfit f hf) hwide.not_gt

/-! ## Packing an unpacked frame (R177) -/

/-- The fields of a layout that carry the frame's content: all but the spare one. -/
def codedLayout (p : Params) (m : FrameMode) : List (FieldName × Nat) :=
  headLayout m ++ lspLayout 0 (lspWidths p m)

theorem layout_eq_codedLayout_append (p : Params) (m : FrameMode) : layout p m = codedLayout p m ++ spareLayout m := rfl

theorem totalWidth_codedLayout (p : Params) (m : FrameMode) : totalWidth (codedLayout p m) = usedBits m := by
  rw [codedLayout, totalWidth_append, totalWidth_lspLayout, lspWidths_sum]
  cases m <;> rfl

theorem usedBits_add_totalWidth_spareLayout (m : FrameMode) :
    usedBits m + totalWidth (spareLayout m) = 8 * bytesPerFrame m := by
  cases m <;> rfl

theorem spare_notMem_codedLayout (p : Params) (m : FrameMode) : .spare ∉ (codedLayout p m).map Prod.fst := by
  rw [codedLayout, List.map_append, List.mem_append, not_or]
  refine ⟨by cases m <;> decide, fun hmem => ?_⟩
  obtain ⟨f, hf, hspare⟩ := List.mem_map.mp hmem
  obtain ⟨j, -, hlsp⟩ := mem_lspLayout hf
  cases hspare.symm.trans hlsp

/-- A frame unpacks to its coded fields, and the spare field behind them. -/
theorem unpackFrame_eq_append (p : Params) (m : FrameMode) (buf : List Byte) :
    unpackFrame p m buf = unpackFields buf (codedLayout p m) 0 ++ unpackFields buf (spareLayout m) (usedBits m) := by
  rw [unpackFrame, layout_eq_codedLayout_append, unpackFields_append, Nat.zero_add, totalWidth_codedLayout]

/-- What UNPACK_FRAME gives can always be packed: each value is one of its field's width. -/
theorem fieldsFit_unpackFrame (p : Params) (m : FrameMode) (buf : List Byte) :
    Safety.fieldsFit p m (unpackFrame p m buf) := by
  rintro ⟨name, w⟩ hf
  obtain ⟨a, b, hsplit⟩ := List.append_of_mem hf
  rw [packedValue, Scope.fieldValue_unpackFrame hsplit]
  split
  · exact Nat.two_pow_pos w
  · exact unpackField_lt buf _ w

theorem length_unpackFields (buf : List Byte) (l : List (FieldName × Nat)) (off : Nat) :
    (unpackFields buf l off).length = l.length := by
  simpa using congrArg List.length (map_fst_unpackFields buf l off)

theorem unpackFields_zeros (n : Nat) (l : List (FieldName × Nat)) (off : Nat) :
    unpackFields (List.replicate n 0) l off = l.map fun f => (f.1, 0) := by
  induction l generalizing off with
  | nil => rfl
  | cons f rest ih =>
    have hzero : unpackField (List.replicate n 0) off f.2 = 0 :=
      unpackField_eq _ off f.2 0 (Nat.two_pow_pos f.2) fun j _ => by rw [getBit_zeros, Nat.zero_testBit]
    rw [unpackFields, hzero, ih, List.map_cons]

/-- A field list with the value 0 in its spare field: what packing it packs (R173). -/
def zeroSpare (fields : FieldList) : FieldList := fields.map fun f => if f.1 = .spare then (f.1, 0) else f

theorem zeroSpare_append (a b : FieldList) : zeroSpare (a ++ b) = zeroSpare a ++ zeroSpare b := List.map_append

/-- Setting the spare values of a list to 0 leaves the coded fields of a frame as they are. -/
theorem zeroSpare_unpackFields_codedLayout (p : Params) (m : FrameMode) (buf : List Byte) :
    zeroSpare (unpackFields buf (codedLayout p m) 0) = unpackFields buf (codedLayout p m) 0 := by
  refine map_spare_zero fun f hf hspare => absurd ?_ (spare_notMem_codedLayout p m)
  rw [← hspare, ← map_fst_unpackFields buf _ 0]
  exact List.mem_map_of_mem hf

/-- Setting the spare values of a list to 0 does so to all there is behind the coded fields. -/
theorem zeroSpare_unpackFields_spareLayout (m : FrameMode) (buf : List Byte) (off : Nat) :
    zeroSpare (unpackFields buf (spareLayout m) off) = (spareLayout m).map fun f => (f.1, 0) := by
  cases m <;> rfl

/-- The fields of a frame packed again: the coded ones are as they were, the spare one is 0. -/
theorem unpackFields_of_repacked {p : Params} {m : FrameMode} {buf buf' : List Byte}
    (h : unpackFrame p m buf' = zeroSpare (unpackFrame p m buf)) :
    unpackFields buf' (codedLayout p m) 0 = unpackFields buf (codedLayout p m) 0 ∧
      unpackFields buf' (spareLayout m) (usedBits m) = (spareLayout m).map fun f => (f.1, 0) := by
  rw [unpackFrame_eq_append, unpackFrame_eq_append, zeroSpare_append,
    zeroSpare_unpackFields_codedLayout, zeroSpare_unpackFields_spareLayout] at h
  exact List.append_inj h (by rw [length_unpackFields, length_unpackFields])

/-- The bits of a frame packed again: those before the spare positions are as they were, the spare ones are 0. -/
theorem getBit_of_repacked {p : Params} {m : FrameMode} {buf buf' : List Byte}
    (h : unpackFrame p m buf' = zeroSpare (unpackFrame p m buf)) {q : Nat} (hq : q < 8 * bytesPerFrame m) :
    getBit buf' q = if usedBits m ≤ q then false else getBit buf q := by
  obtain ⟨hcoded, hspare⟩ := unpackFields_of_repacked h
  split
  case isTrue hused =>
    rw [← getBit_zeros (bytesPerFrame m) q]
    rw [← usedBits_add_totalWidth_spareLayout] at hq
    exact getBit_eq_of_unpackFields _ _ (hspare.trans (unpackFields_zeros _ _ _).symm) q ⟨hused, hq⟩
  case isFalse hused =>
    refine getBit_eq_of_unpackFields _ _ hcoded q ⟨Nat.zero_le q, ?_⟩
    rw [totalWidth_codedLayout]
    omega

/-- The spare positions: 46 and 47 in mode A, 47 in mode C (R108 to R110). -/
theorem usedBits_le_iff {m : FrameMode} {q : Nat} (hq : q < 8 * bytesPerFrame m) :
    usedBits m ≤ q ↔ (m = .A ∧ (q = 46 ∨ q = 47)) ∨ (m = .C ∧ q = 47) := by
  cases m <;> simp [usedBits, bytesPerFrame, bitsPerFrame] at hq ⊢ <;> omega

/-- Settles O23: unpacking both buffers gives the same coded fields, and the fields of a layout determine its bits. -/
theorem packOfUnpackFrame : Obligations.PackOfUnpackFrame := by
  intro p m buf hlen
  obtain ⟨buf', hpack, hlen', -, hunpack⟩ :=
    unpackOfPackFrame p m (unpackFrame p m buf) (map_fst_unpackFields buf _ 0) (fieldsFit_unpackFrame p m buf)
  refine ⟨buf', hpack, hlen'.trans hlen.symm, fun q => ?_⟩
  by_cases hq : q < 8 * bytesPerFrame m
  · simp only [getBit_of_repacked hunpack hq, usedBits_le_iff hq]
  · rw [getBit_outside buf' q (by omega), getBit_outside buf q (by omega), ite_self]

end Sys2Proof.Proofs.BitPacker

/-! SUPPORT. ENCODE (42_encoder.md): the history update (R192), the collaborator calls of a sub-frame in their order
(R199), and the command as a whole: what it reads, what it stores, and what it answers (R190, R191, R198, R201). -/

namespace Sys2Proof.Proofs.Encoder

open Sys2Proof.Machine
open Sys2Proof.Proofs.WholeMachine (readSamples_congr)

/-! ## The history update (R192) -/

theorem shiftIn_getElem?_old {hist : Hist} {i : Nat} (x : List Sample) (h : i + 80 < hist.length) :
    (shiftIn hist x)[i]? = hist[i + 80]? := by
  have hkept : i < (hist.drop 80).length := by rw [List.length_drop]; omega
  rw [shiftIn, subframeLength, List.getElem?_append_left hkept, List.getElem?_drop, Nat.add_comm]

theorem shiftIn_getElem?_new (hist : Hist) (x : List Sample) (i : Nat) :
    (shiftIn hist x)[hist.length - 80 + i]? = x[i]? := by
  rw [shiftIn, subframeLength, ← List.length_drop, List.getElem?_append_right (Nat.le_add_right _ _),
    Nat.add_sub_cancel_left]

/-- Settles O25: `shift_in` keeps the last N_HIST - 80 elements and puts the sub-frame behind them. -/
theorem historyShift : Obligations.HistoryShift := by
  intro p hist x hhist hx
  refine ⟨length_shiftIn hhist hx, fun i hi => ?_, fun i _ => ?_⟩
  · exact shiftIn_getElem?_old x (hhist ▸ hi)
  · rw [← hhist]
    exact shiftIn_getElem?_new hist x i

/-! ## The calls of one sub-frame (R192 to R196)

Each lemma takes the sub-frame's history as `hist`, so that a chain of sub-frames names each history once. -/

section Subframe

variable {p : Params} {m : FrameMode} {x : List Sample} {k : Nat} {e : EncState} {hist : Hist}

/-- An even sub-frame calls ANALYZE alone, and leaves `pred_enc` as it was. -/
theorem encodeSubframe_even (hk : k % 2 = 0) (hhist : shiftIn e.hist (subframeOf x k) = hist) :
    encodeSubframe p m x k e =
      (⟨hist, (p.analyze hist e.anaCtx).2, e.predEnc⟩,
        [(.voicing k, (p.analyze hist e.anaCtx).1.voiced.toNat)]) := by
  simp [encodeSubframe, hk, hhist]

/-- An odd sub-frame calls ANALYZE, ENVELOPE and ENC_WOE, and the last of the frame the LSP quantizer too. -/
theorem encodeSubframe_odd (hk : k % 2 = 1) (hhist : shiftIn e.hist (subframeOf x k) = hist) :
    encodeSubframe p m x k e =
      (⟨hist, (p.analyze hist e.anaCtx).2,
          (p.encWoe (p.analyze hist e.anaCtx).1 (p.envelope hist).1 e.predEnc).2⟩,
        [(.voicing k, (p.analyze hist e.anaCtx).1.voiced.toNat),
          (.woe ((k + 1) / 2), (p.encWoe (p.analyze hist e.anaCtx).1 (p.envelope hist).1 e.predEnc).1)] ++
        if k + 1 = subframes m then lspFields 0 (encodeLsps p m (p.envelope hist).2) else []) := by
  simp [encodeSubframe, hk, hhist]

theorem encodeSubframes_nil : encodeSubframes p m x [] e = (e, []) := rfl

/-- The sub-frames after the first start from the encode fields the first left. -/
theorem encodeSubframes_cons {ks : List Nat} {e' e'' : EncState} {fields more : FieldList}
    (hfirst : encodeSubframe p m x k e = (e', fields)) (hrest : encodeSubframes p m x ks e' = (e'', more)) :
    encodeSubframes p m x (k :: ks) e = (e'', fields ++ more) := by
  simp [encodeSubframes, hfirst, hrest]

/-- A frame is its sub-frames in order, with the spare fields behind them (R190, R197). -/
theorem encodeFields_of_encodeSubframes {ks : List Nat} {e' : EncState} {fields : FieldList}
    (hks : List.range (subframes m) = ks) (h : encodeSubframes p m x ks e = (e', fields)) :
    encodeFields p m x e = (e', fields ++ spareFields m) := by
  simp [encodeFields, hks, h]

end Subframe

/-- Settles O26: the equations of a sub-frame name its calls, and a frame is the chain of its sub-frames. In every mode
the first two make the same calls; the last of the frame adds the LSP set. -/
theorem encodeCallOrder : Obligations.EncodeCallOrder := by
  intro p x e h0 a0 h1 a1 v1 w1 h2 a2 h3 a3 v3 w3 first second
  have subframe0 (m : FrameMode) : encodeSubframe p m x 0 e =
      (⟨h0, a0.2, e.predEnc⟩, [(.voicing 0, a0.1.voiced.toNat)]) := encodeSubframe_even rfl rfl
  have subframe1 (m : FrameMode) : encodeSubframe p m x 1 ⟨h0, a0.2, e.predEnc⟩ =
      (⟨h1, a1.2, w1.2⟩, [(.voicing 1, a1.1.voiced.toNat), (.woe 1, w1.1)] ++
        if 2 = subframes m then lspFields 0 (encodeLsps p m v1.2) else []) := encodeSubframe_odd rfl rfl
  have subframe2 (m : FrameMode) : encodeSubframe p m x 2 ⟨h1, a1.2, w1.2⟩ =
      (⟨h2, a2.2, w1.2⟩, [(.voicing 2, a2.1.voiced.toNat)]) := encodeSubframe_even rfl rfl
  have subframe3 (m : FrameMode) : encodeSubframe p m x 3 ⟨h2, a2.2, w1.2⟩ =
      (⟨h3, a3.2, w3.2⟩, [(.voicing 3, a3.1.voiced.toNat), (.woe 2, w3.1)] ++
        if 4 = subframes m then lspFields 0 (encodeLsps p m v3.2) else []) := encodeSubframe_odd rfl rfl
  have twoSubframes := encodeSubframes_cons (subframe0 .A) (encodeSubframes_cons (subframe1 .A) encodeSubframes_nil)
  have fourSubframes (m : FrameMode) := encodeSubframes_cons (subframe0 m) (encodeSubframes_cons (subframe1 m)
    (encodeSubframes_cons (subframe2 m) (encodeSubframes_cons (subframe3 m) encodeSubframes_nil)))
  refine ⟨?modeA, ?modeB, ?modeC⟩
  case modeA =>
    rw [encodeFields_of_encodeSubframes rfl twoSubframes]
    simp [first, subframes, encodeLsps, spareFields]
  case modeB =>
    rw [encodeFields_of_encodeSubframes rfl (fourSubframes .B)]
    simp [first, second, subframes, encodeLsps, spareFields]
  case modeC =>
    rw [encodeFields_of_encodeSubframes rfl (fourSubframes .C)]
    simp [first, second, subframes, encodeLsps, spareFields]

/-! ## What ENCODE reads (R191) -/

/-- The input is read when every sample of the frame was written. -/
theorem inputSamples_eq_some {m : FrameMode} {s : State} {x : List Sample} (hlen : x.length = samplesPerFrame m)
    (hread : ∀ n < samplesPerFrame m, Memory.getSample s.mem (0x100 + 2 * n) = x[n]?) :
    inputSamples m s = some x :=
  (Memory.readSamples_eq_some _ _ _ _).mpr ⟨hlen, hread⟩

/-- The input cannot be read when one sample of the frame was never written. -/
theorem inputSamples_eq_none {m : FrameMode} {s : State} {n : Nat} (hn : n < samplesPerFrame m)
    (hread : Memory.getSample s.mem (0x100 + 2 * n) = none) : inputSamples m s = none :=
  (Memory.readSamples_eq_none _ _ _).mpr ⟨n, hn, hread⟩

/-- ENCODE whose input was not all written is UNINIT (R191, R298). -/
theorem execEncode_unwritten {s : State} {i : Inst} (hi : s.inst = some i) (hx : inputSamples i.mode s = none) :
    execEncode s = faultErr .uninit s := by
  simp [execEncode, withInstance_some hi, hx]

/-- Settles O27: the read of the input fails before anything else is done. -/
theorem encodeUnwrittenInputFaults : Obligations.EncodeUnwrittenInputFaults :=
  fun _ _ _ hi hn hread => execEncode_unwritten hi (inputSamples_eq_none hn hread)

/-! ## What ENCODE stores (R79, R198) -/

section Stored

variable (i : Inst) (e : EncState) (bytes : List Byte) (s : State)

/-- The state ENCODE completes in differs from the one before in these four fields at most. -/
theorem finishEncode_eq :
    finishEncode i e bytes s =
      { s with
        inst := some ⟨i.mode, e, i.cs.dec⟩, mem := (finishEncode i e bytes s).mem
        result := BitVec.ofNat 32 (bytesPerFrame i.mode), err := .ok } := rfl

theorem get_finishEncode_bitsOut {n : Nat} (hn : n < bytes.length) :
    Memory.get (finishEncode i e bytes s).mem (0x810 + n) = bytes[n]? := by
  rw [finishEncode_mem, bitsOutBase, Memory.get_writeBytes, if_pos (by omega), Nat.add_sub_cancel_left]

theorem get_finishEncode_outside {a : Nat} (ha : ¬(0x810 ≤ a ∧ a < 0x810 + bytes.length)) :
    Memory.get (finishEncode i e bytes s).mem a = Memory.get s.mem a :=
  Memory.get_writeBytes_outside s.mem bytes ha

end Stored

/-- An ENCODE whose collaborators keep their contract packs its frame (R176, R198). -/
theorem encodeFrame_of_encodeContract {p : Params} {m : FrameMode} {x : List Sample} {e : EncState}
    (h : Safety.encodeContract p m x e) :
    ∃ bytes, encodeFrame p m x e = .ok ((encodeFields p m x e).1, bytes) ∧ bytes.length = bytesPerFrame m ∧
      unpackFrame p m bytes = (encodeFields p m x e).2 := by
  obtain ⟨-, hpacked⟩ | ⟨hbroken, -⟩ := encodeFrame_cases p m x e
  · exact hpacked
  · exact absurd h hbroken

/-- Settles O28: the input is read and the frame packs, so ENCODE ends in `finishEncode`. -/
theorem encodeCompletes : Obligations.EncodeCompletes := by
  intro s i x hi hlen hread hfit
  obtain ⟨bytes, hframe, hbytes, hunpack⟩ := encodeFrame_of_encodeContract hfit
  refine ⟨_, bytes, execEncode_ok hi (inputSamples_eq_some hlen hread) hframe, ?state, ?count,
    fun _ => get_finishEncode_bitsOut i _ bytes s, fun _ => get_finishEncode_outside i _ bytes s, hunpack⟩
  case state =>
    rw [finishEncode_eq]
    cases i.mode <;> rfl
  case count =>
    rw [hbytes]
    cases i.mode <;> rfl

/-- Settles O30: the only next state of ENCODE is `finishEncode`, which stores NBYTES bytes at BITS_OUT. -/
theorem encodeFrameCondition : Obligations.EncodeFrameCondition := by
  intro s t h
  obtain ⟨i, x, e, bytes, hi, -, hframe, rfl⟩ := execEncode_next h
  obtain ⟨-, hbytes⟩ := encodeFrame_ok hframe
  exact ⟨i, e, hi, finishEncode_eq i e bytes s, fun a ha => get_finishEncode_outside i e bytes s (hbytes ▸ ha)⟩

/-- Settles O31: equal inputs are one frame of samples, which gives the same bytes and encode fields in both states. -/
theorem encodeDependsOnlyOnItsInputs : Obligations.EncodeDependsOnlyOnItsInputs := by
  intro s s' t i i' hi hi' hparams hmode henc hinput h
  obtain ⟨j, x, e, bytes, hj, hx, hframe, rfl⟩ := execEncode_next h
  obtain rfl : i = j := Option.some.inj (hi.symm.trans hj)
  obtain ⟨-, hbytes⟩ := encodeFrame_ok hframe
  have hx' : inputSamples i'.mode s' = some x := by
    rw [← hmode, ← hx]
    exact readSamples_congr fun n hn => (hinput n hn).symm
  have hframe' : encodeFrame s'.params i'.mode x i'.cs.enc = .ok (e, bytes) := by
    rw [← hparams, ← hmode, ← henc, hframe]
  refine ⟨_, execEncode_ok hi' hx' hframe', ?fields, fun n hn => ?stored⟩
  case fields => simp [hmode]
  case stored =>
    rw [← hbytes] at hn
    rw [get_finishEncode_bitsOut i' e bytes s' hn, get_finishEncode_bitsOut i e bytes s hn]

end Sys2Proof.Proofs.Encoder

/-! SUPPORT. DECODE (43_decoder.md): saturation value by value (R230, R231), the collaborator calls before synthesis in
their order (R220 to R226), and the command as a whole: what it reads, what it stores, and what it answers (R220, R221, R230,
R232, R237). -/

namespace Sys2Proof.Proofs.Decoder

open Sys2Proof.Machine Sys2Proof.Safety

/-! ## Saturation (R230, R231) -/

section Saturation

variable {p : Params} {y : Numeric} {q : Rat}

/-- NaN is in no order, so a value that is less than another is not NaN (R296). -/
theorem isNaN_of_lt {x : Numeric} (h : Numeric.lt y x = true) : y.isNaN = false := by
  cases y with
  | nan => cases h
  | posInf | negInf | negZero | finite => rfl

/-- Nor is a value that another is less than. -/
theorem isNaN_of_gt {x : Numeric} (h : Numeric.lt x y = true) : y.isNaN = false := by
  cases y with
  | nan => cases x <;> cases h
  | posInf | negInf | negZero | finite => rfl

/-- A value above the upper bound, +∞ among them, goes to it. -/
theorem saturate_above (h : Numeric.lt (.ofInt 32767) y = true) : saturate p y = .ok 32767 := by
  rw [saturate_ok p (isNaN_of_gt h), clamped, if_pos h]

/-- A value below the lower bound, -∞ among them, goes to it. -/
theorem saturate_below (habove : Numeric.lt (.ofInt 32767) y = false) (h : Numeric.lt y (.ofInt (-32767)) = true) :
    saturate p y = .ok (-32767) := by
  rw [saturate_ok p (isNaN_of_lt h), clamped, if_neg (by simp [habove]), if_pos h]

/-- A value between the bounds goes through TO_INT. -/
theorem saturate_between (hnum : y.isNaN = false) (habove : Numeric.lt (.ofInt 32767) y = false)
    (hbelow : Numeric.lt y (.ofInt (-32767)) = false) : saturate p y = .ok (p.toInt y) := by
  rw [saturate_ok p hnum, clamped, if_neg (by simp [habove]), if_neg (by simp [hbelow])]

/-- The finite values, -0 among them, are ordered among the integers as their rationals are. -/
theorem lt_ofInt_of_toRat? (h : y.toRat? = some q) (n : Int) :
    Numeric.lt (.ofInt n) y = decide ((n : Rat) < q) ∧ Numeric.lt y (.ofInt n) = decide (q < (n : Rat)) := by
  cases y with
  | nan | posInf | negInf => cases h
  | negZero | finite => cases h; simp [Numeric.lt, Numeric.rank?, Numeric.ofInt]

theorem isNaN_of_toRat? (h : y.toRat? = some q) : y.isNaN = false := by
  cases y with
  | nan => cases h
  | posInf | negInf | negZero | finite => rfl

end Saturation

/-- Settles O32: the infinities lie beyond the bounds, and a finite value lies where its rational does. -/
theorem saturationRule : Obligations.SaturationRule := by
  intro p y
  refine ⟨?nan, ?posInf, ?negInf, fun q hq => ?finite⟩
  case nan => rintro rfl; exact saturate_nan p rfl
  case posInf => rintro rfl; exact saturate_above rfl
  case negInf => rintro rfl; exact saturate_below rfl rfl
  case finite =>
    obtain ⟨habove, -⟩ := lt_ofInt_of_toRat? hq 32767
    obtain ⟨-, hbelow⟩ := lt_ofInt_of_toRat? hq (-32767)
    push_cast at habove hbelow
    refine ⟨fun h => ?_, fun h => ?_, fun hlo hhi => ?_⟩
    · exact saturate_above (by simpa [habove] using h)
    · exact saturate_below (by rw [habove]; exact decide_eq_false (by linarith)) (by simpa [hbelow] using h)
    · exact ⟨_, saturate_between (isNaN_of_toRat? hq) (by simpa [habove] using hhi) (by simpa [hbelow] using hlo), rfl,
        p.toInt_near y q hq hlo hhi⟩

/-! ## What DECODE reads (R221) -/

/-- The input is read when every byte of the frame was written. -/
theorem inputBytes_eq_some {m : FrameMode} {s : State} {bytes : List Byte} (hlen : bytes.length = bytesPerFrame m)
    (hread : ∀ n < bytesPerFrame m, Memory.get s.mem (0x800 + n) = bytes[n]?) : inputBytes m s = some bytes :=
  (Memory.readBytes_eq_some _ _ _ _).mpr ⟨hlen, hread⟩

/-- The input cannot be read when one byte of the frame was never written. -/
theorem inputBytes_eq_none {m : FrameMode} {s : State} {n : Nat} (hn : n < bytesPerFrame m)
    (hread : Memory.get s.mem (0x800 + n) = none) : inputBytes m s = none :=
  (Memory.readBytes_eq_none _ _ _).mpr ⟨n, hn, hread⟩

/-- DECODE whose input was not all written is UNINIT (R221, R298). -/
theorem execDecode_unwritten {s : State} {i : Inst} (hi : s.inst = some i) (hbytes : inputBytes i.mode s = none) :
    execDecode s = faultErr .uninit s := by
  simp [execDecode, withInstance_some hi, hbytes]

/-- Settles O37: the read of the input fails before anything else is done. -/
theorem decodeUnwrittenInputFaults : Obligations.DecodeUnwrittenInputFaults :=
  fun _ _ _ hi hn hread => execDecode_unwritten hi (inputBytes_eq_none hn hread)

/-! ## What DECODE stores (R79, R220, R232) -/

section Stored

variable (i : Inst) (samples : List Sample) (d : DecState) (s : State)

/-- The state DECODE completes in differs from the one before in these four fields at most. -/
theorem finishDecode_eq :
    finishDecode i samples d s =
      { s with
        inst := some ⟨i.mode, i.cs.enc, d⟩, mem := (finishDecode i samples d s).mem
        result := BitVec.ofNat 32 (samplesPerFrame i.mode), err := .ok } := rfl

theorem getSample_finishDecode_pcmOut {n : Nat} (hn : n < samples.length) :
    Memory.getSample (finishDecode i samples d s).mem (0x400 + 2 * n) = samples[n]? :=
  Memory.getSample_writeSamples s.mem 0x400 n samples hn

theorem get_finishDecode_outside {a : Nat} (ha : ¬(0x400 ≤ a ∧ a < 0x400 + 2 * samples.length)) :
    Memory.get (finishDecode i samples d s).mem a = Memory.get s.mem a :=
  Memory.get_writeSamples_outside s.mem samples ha

end Stored

/-- Settles O40: the only next state of DECODE is `finishDecode`, which stores SAMPLES samples at PCM_OUT. -/
theorem decodeFrameCondition : Obligations.DecodeFrameCondition := by
  intro s t h
  obtain ⟨i, bytes, samples, d, hi, -, hframe, rfl⟩ := execDecode_next h
  obtain ⟨-, -, -, hlen⟩ := decodeFrame_ok hframe
  exact ⟨i, d, hi, finishDecode_eq i samples d s, fun a ha => get_finishDecode_outside i samples d s (hlen ▸ ha)⟩

/-- Settles O41: element `n` of PCM_OUT is sample `n` of the frame, and every sample of a decoded frame is saturated. -/
theorem decodeOutputSaturated : Obligations.DecodeOutputSaturated := by
  intro s t i h hi n hn
  obtain ⟨j, bytes, samples, d, hj, -, hframe, rfl⟩ := execDecode_next h
  obtain rfl : i = j := Option.some.inj (hi.symm.trans hj)
  obtain ⟨-, -, -, hlen⟩ := decodeFrame_ok hframe
  have hn : n < samples.length := hlen ▸ hn
  refine ⟨samples[n], ?stored, decodeFrame_range hframe _ (List.getElem_mem hn)⟩
  case stored => rw [getSample_finishDecode_pcmOut i samples d s hn, List.getElem?_eq_getElem hn]

/-! ## A frame whose collaborators keep their contract (R220, R222, R224, R232) -/

/-- A frame on which no check fails is decoded to the saturated sub-frames and the decode fields of R232. -/
theorem decodeFrame_of_decodeContract {p : Params} {m : FrameMode} {bytes : List Byte} {d : DecState}
    (h : decodeContract p m (unpackFrame p m bytes) d) :
    decodeFrame p m bytes d =
      .ok ((List.range' 0 (subframes m)).flatMap (subframeSamples p m (unpackFrame p m bytes) d),
        nextDecState p m (unpackFrame p m bytes) d) := by
  obtain ⟨-, hok⟩ | ⟨hparams, -⟩ | ⟨-, k, hk, -, ⟨hharmonics, -⟩ | ⟨-, hnan, -⟩⟩ :=
    decodeFields_cases p m (unpackFrame p m bytes) d
  · exact hok
  · exact absurd h.1 hparams
  · exact absurd ((h.2 k hk).1.symm.trans hharmonics) (by decide)
  · exact absurd (h.2 k hk).2 hnan

/-- Sub-field `i` stands at place `i` of the index set. -/
theorem getElem?_lspIndices {p : Params} {m : FrameMode} (f : FieldList) {i : Nat} (hi : i < (lspWidths p m).length) :
    (lspIndices p m f)[i]? = some (fieldValue f (.lsp i)) := by
  simp [lspIndices, hi]

/-- DEC_LSP_SCALAR is given lsp0 to lsp9 in modes A and B, DEC_LSP_VQ the N_VQ indices in mode C (R224). -/
theorem newLsps_eq (p : Params) (m : FrameMode) (f : FieldList) :
    newLsps p m f = p.bwExpand (p.lspOrderFix (match m with
      | .A => p.decLspScalar (Vector.ofFn fun k => fieldValue f (.lsp k))
      | .B => p.decLspScalar (Vector.ofFn fun k => fieldValue f (.lsp k))
      | .C => p.decLspVq ((List.range p.lspVqWidths.length).map fun k => fieldValue f (.lsp k)))) := by
  have hscalar (m : FrameMode) (hm : lspWidths p m = p.lspScalarWidths) (k : Fin 10) :
      (lspIndices p m f).getD k 0 = fieldValue f (.lsp k) := by
    have hk : k.val < (lspWidths p m).length := by rw [hm, p.scalar_length]; exact k.isLt
    rw [List.getD_eq_getElem?_getD, getElem?_lspIndices f hk, Option.getD_some]
  cases m with
  | A => simp only [newLsps, decodeLsps, hscalar .A rfl]
  | B => simp only [newLsps, decodeLsps, hscalar .B rfl]
  | C => rfl

/-- An odd sub-frame has its transmitted voicing, an even one what INTERP_WO makes of it (R222, R263). -/
theorem voiced_subParams (p : Params) (f : FieldList) (d : DecState) (k : Nat) :
    (subParams p f d k).voiced =
      if k % 2 = 1 then voicingOf f k
      else (p.interpWo (leftHead p f d (k / 2)) (voicingOf f k) (sentHead p f d (k / 2)) halfWeight).2 := by
  by_cases hk : k % 2 = 1
  · rw [subParams, if_pos hk, if_pos hk]
  · rw [subParams, if_neg hk, if_neg hk, midWo, show 2 * (k / 2) = k by omega]

/-- Settles O38: the input is read and no check fails, so DECODE ends in `finishDecode` of the frame's samples. -/
theorem decodeCompletes : Obligations.DecodeCompletes := by
  intro s i bytes hi hlen hread f hcontract
  have hframe := decodeFrame_of_decodeContract hcontract
  obtain ⟨-, -, -, hsamples⟩ := decodeFrame_ok hframe
  refine ⟨⟨_, execDecode_ok hi (inputBytes_eq_some hlen hread) hframe, ?state, fun k hk n hn => ?sample,
    fun a ha => get_finishDecode_outside i _ _ s (hsamples ▸ ha)⟩, newLsps_eq s.params i.mode f,
    voiced_subParams s.params f i.cs.dec⟩
  case state =>
    rw [finishDecode_eq]
    congr 1
    cases i.mode <;> rfl
  case sample =>
    have hplace : 80 * k + n < samplesPerFrame i.mode := by rw [samplesPerFrame_eq]; omega
    rw [getSample_finishDecode_pcmOut i _ _ s (hsamples ▸ hplace)]
    exact (flatMap_subframeSamples s.params i.mode f i.cs.dec (subframes i.mode)).2 k hk n hn

/-! ## What the frame depends on (R115, R237) -/

/-- The bits of the frame's byte 5 that are not spare (R108 to R110). -/
def usedMask : FrameMode → Byte
  | .A => 0xFC
  | .B => 0xFF
  | .C => 0xFE

/-- The mask keeps every position of byte 5 that the frame uses. -/
theorem getLsbD_usedMask {m : FrameMode} {q : Nat} (hq : q < usedBits m) (hbyte : q / 8 = 5) :
    (usedMask m).getLsbD (7 - q % 8) = true := by
  revert q
  cases m <;> decide

/-- Bytes that agree under a mask agree in each of its bits. -/
theorem getLsbD_eq_of_and_eq {b b' mask : Byte} (h : b &&& mask = b' &&& mask) {k : Nat} (hk : mask.getLsbD k = true) :
    b.getLsbD k = b'.getLsbD k := by
  simpa [BitVec.getLsbD_and, hk] using congrArg (BitVec.getLsbD · k) h

/-- Two frames that agree byte by byte, but for the spare bits of byte 5. -/
def AgreeButSpare (m : FrameMode) (bytes bytes' : List Byte) : Prop :=
  ∀ n < bytesPerFrame m, ∃ b b', bytes[n]? = some b ∧ bytes'[n]? = some b' ∧
    (n = 5 → b &&& usedMask m = b' &&& usedMask m) ∧ (n ≠ 5 → b = b')

/-- Such frames hold the same bit in every position that is not spare. -/
theorem AgreeButSpare.getBit_eq {m : FrameMode} {bytes bytes' : List Byte} (h : AgreeButSpare m bytes bytes') {q : Nat}
    (hq : q < usedBits m) : getBit bytes q = getBit bytes' q := by
  have hbyte : q / 8 < bytesPerFrame m := by
    have : usedBits m ≤ 8 * bytesPerFrame m := by cases m <;> decide
    omega
  obtain ⟨b, b', hb, hb', hfive, hother⟩ := h (q / 8) hbyte
  simp only [getBit, hb, hb']
  by_cases h5 : q / 8 = 5
  · exact getLsbD_eq_of_and_eq (hfive h5) (getLsbD_usedMask hq h5)
  · rw [hother h5]

/-- A memory that holds the same written bytes but for the spare bits gives a frame that agrees but for them. -/
theorem inputBytes_agreeButSpare {m : FrameMode} {s s' : State} {bytes : List Byte} (hbytes : inputBytes m s = some bytes)
    (h : ∀ n < bytesPerFrame m, ∃ b b', Memory.get s.mem (0x800 + n) = some b ∧ Memory.get s'.mem (0x800 + n) = some b' ∧
      (n = 5 → b &&& usedMask m = b' &&& usedMask m) ∧ (n ≠ 5 → b = b')) :
    ∃ bytes', inputBytes m s' = some bytes' ∧ AgreeButSpare m bytes bytes' := by
  cases hbytes' : inputBytes m s' with
  | none =>
    obtain ⟨n, hn, hnone⟩ := (Memory.readBytes_eq_none _ _ _).mp hbytes'
    obtain ⟨b, b', -, hb', -, -⟩ := h n hn
    exact absurd (hb'.symm.trans hnone) (by simp)
  | some bytes' =>
    obtain ⟨-, hread⟩ := (Memory.readBytes_eq_some _ _ _ _).mp hbytes
    obtain ⟨-, hread'⟩ := (Memory.readBytes_eq_some _ _ _ _).mp hbytes'
    refine ⟨bytes', rfl, fun n hn => ?_⟩
    obtain ⟨b, b', hb, hb', hagree⟩ := h n hn
    exact ⟨b, b', (hread n hn).symm.trans hb, (hread' n hn).symm.trans hb', hagree⟩

/-- Settles O42: equal inputs are frames that differ in spare bits alone, which decode to the same samples and decode fields
in both states. -/
theorem decodeDependsOnlyOnItsInputs : Obligations.DecodeDependsOnlyOnItsInputs := by
  intro s s' t i i' hi hi' hparams hmode hdec hinput h
  obtain ⟨j, bytes, samples, d, hj, hbytes, hframe, rfl⟩ := execDecode_next h
  obtain rfl : i = j := Option.some.inj (hi.symm.trans hj)
  obtain ⟨-, -, -, hlen⟩ := decodeFrame_ok hframe
  obtain ⟨bytes', hbytes', hagree⟩ := inputBytes_agreeButSpare (s' := s') hbytes fun n hn => by
    obtain ⟨b, b', hb, hb', hfive, hother⟩ := hinput n hn
    refine ⟨b, b', hb, hb', fun h5 => ?_, hother⟩
    obtain ⟨hA, hB, hC⟩ := hfive h5
    cases hm : i.mode with
    | A => exact hA hm
    | B => rw [hB hm]
    | C => exact hC hm
  have hframe' : decodeFrame s'.params i'.mode bytes' i'.cs.dec = .ok (samples, d) := by
    rw [← hparams, ← hmode, ← hdec, ← hframe]
    exact (decodeFrame_congr i.cs.dec fun q hq => hagree.getBit_eq hq).symm
  refine ⟨_, execDecode_ok hi' (hmode ▸ hbytes') hframe', ?fields, fun n hn => ?stored⟩
  case fields => simp [hmode]
  case stored =>
    rw [← hlen] at hn
    rw [getSample_finishDecode_pcmOut i' samples d s' hn, getSample_finishDecode_pcmOut i samples d s hn]

/-! ## The calls before synthesis (R220 to R226) -/

section Calls

variable {p : Params} {m : FrameMode} {f : FieldList} {d : DecState} {pred pred' : PredState}

/-- A DEC_WOE call whose checks pass hands its Wo and energy on, and its memory to the calls after it (R223). -/
theorem decodeWoes_cons {index : Nat} {rest : List Nat} {more : List (Numeric × Numeric)}
    (hwo : (p.decWoe index pred).1.finitePositive = true) (henergy : (p.decWoe index pred).2.1.finitePositive = true)
    (hrest : decodeWoes p rest (p.decWoe index pred).2.2 = .ok (more, pred')) :
    decodeWoes p (index :: rest) pred =
      .ok (((p.decWoe index pred).1, (p.decWoe index pred).2.1) :: more, pred') := by
  simp [decodeWoes, decodeWoe, hwo, henergy, hrest]

/-- A strictly increasing vector passes the check of R268. -/
theorem correctLsps_ok {raw : LspVec} (h : strictlyIncreasing (p.bwExpand (p.lspOrderFix raw)).toList = true) :
    correctLsps p raw = .ok (p.bwExpand (p.lspOrderFix raw)) :=
  if_pos h

/-- DECODE of a frame is its four stages in order, each on what those before it answered (R220). -/
theorem decodeFields_of_stages {woes : List (Numeric × Numeric)} {lspNew : LspVec} {subs : List SubParams}
    {samples : List Sample} {z : SynthState}
    (hwoes : decodeWoes p (woeIndices m f) d.predDec = .ok (woes, pred))
    (hlsps : correctLsps p (decodeLsps p m (lspIndices p m f)) = .ok lspNew)
    (htrajectory : trajectory p d.prevModel.head d.prevE (pairInputs f 0 woes) = .ok subs)
    (hsynthesis : synthesize p ((lspTrajectory p m d.prevLsps lspNew).zip subs) ⟨d.prevModel, d.phase, d.noise, d.ola⟩ =
      .ok (samples, z)) :
    decodeFields p m f d =
      .ok (samples, ⟨pred, z.last, lspNew, lastEnergy d.prevE woes, z.phase, z.noise, z.ola⟩) := by
  simp [decodeFields, hwoes, hlsps, htrajectory, hsynthesis]

end Calls

/-- The LSP sub-fields as their values with their numbers (R111, R112). -/
theorem lspFields_eq_zipIdx (i : Nat) (values : List Nat) :
    lspFields i values = (values.zipIdx i).map fun v => (.lsp v.2, v.1) := by
  induction values generalizing i with
  | nil => rfl
  | cons v vs ih => simp [lspFields, List.zipIdx_cons, ih]

/-- Sub-field `i + n` of a set numbered from `i` is entry `n` of the set. -/
theorem lookup_lspFields (i : Nat) {values : List Nat} {n : Nat} (hn : n < values.length) :
    (lspFields i values).lookup (.lsp (i + n)) = some values[n] := by
  induction values generalizing i n with
  | nil => cases hn
  | cons v vs ih =>
    cases n with
    | zero => simp [lspFields]
    | succ n =>
      have hrest := ih (i + 1) (n := n) (by simpa using hn)
      rw [show i + 1 + n = i + (n + 1) by omega] at hrest
      have hother : (FieldName.lsp (i + (n + 1)) == .lsp i) = false := by simp
      rw [lspFields, List.lookup, hother]
      exact hrest

section LspStage

variable {p : Params} {m : FrameMode} {f before behind : FieldList} {values : List Nat}

/-- The LSP sub-fields of a frame are its set's values, whatever other fields stand before and behind the set (R224). -/
theorem lspIndices_of_lspFields (hf : f = before ++ lspFields 0 values ++ behind)
    (hbefore : ∀ g ∈ before, ∀ i, g.1 ≠ .lsp i) (hlen : values.length = (lspWidths p m).length) :
    lspIndices p m f = values := by
  refine List.ext_getElem (by simp [lspIndices, hlen]) fun i _ hi => ?_
  have hnone : before.lookup (.lsp i) = none := by
    rw [List.lookup_eq_none_iff]
    exact fun g hg => by simpa using (hbefore g hg i).symm
  have hset := lookup_lspFields 0 hi
  rw [Nat.zero_add] at hset
  simp [lspIndices, fieldValue, hf, List.lookup_append, hnone, hset]

/-- The LSP stage of DECODE on such a frame: the mode's quantizer on the set's values, then the corrections (R224, R225). -/
theorem correctLsps_of_lspFields {raw : LspVec} (hf : f = before ++ lspFields 0 values ++ behind)
    (hbefore : ∀ g ∈ before, ∀ i, g.1 ≠ .lsp i) (hlen : values.length = (lspWidths p m).length)
    (hraw : decodeLsps p m values = raw) (h : strictlyIncreasing (p.bwExpand (p.lspOrderFix raw)).toList = true) :
    correctLsps p (decodeLsps p m (lspIndices p m f)) = .ok (p.bwExpand (p.lspOrderFix raw)) := by
  rw [lspIndices_of_lspFields hf hbefore hlen, hraw]
  exact correctLsps_ok h

/-- DEC_LSP_SCALAR is called on the ten indices themselves in modes A and B. -/
theorem decodeLsps_scalar (hm : m = .A ∨ m = .B) (ix : Vector Nat 10) : decodeLsps p m ix.toList = p.decLspScalar ix := by
  have hargs : (Vector.ofFn fun i : Fin 10 => ix.toList.getD i.val 0) = ix := by ext i; simp
  rcases hm with rfl | rfl <;> rw [decodeLsps, hargs]

end LspStage

/-- Settles O58: each stage of DECODE is computed on the frame's fields, mode by mode; the indices and voicings in front of
the LSP set are the literal fields of the frame. -/
theorem decodeCallOrder : Obligations.DecodeCallOrder := by
  intro p d v0 v1 v2 v3 w1 w2 spare ix vq hvq lspSet first second u1 u2 pair1 pair2 scalar vector decodes hwo1 henergy1
  have hset (values : List Nat) : lspSet values = lspFields 0 values := (lspFields_eq_zipIdx 0 values).symm
  have hix : ix.toList.length = p.lspScalarWidths.length := by simp [p.scalar_length]
  have hfirst : ∀ g ∈ first, ∀ i, g.1 ≠ .lsp i := by simp [first]
  have hboth : ∀ g ∈ first ++ second, ∀ i, g.1 ≠ .lsp i := by simp [first, second]
  refine ⟨fun hlsps subs samples z htrajectory hsynthesis => ?modeA, fun hwo2 henergy2 => ?modesBC⟩
  case modeA =>
    have hwoes : decodeWoes p [w1] d.predDec = .ok ([(u1.1, u1.2.1)], u1.2.2) := decodeWoes_cons hwo1 henergy1 rfl
    have hfields : first ++ lspSet ix.toList ++ [(.spare, spare)] =
        first ++ lspFields 0 ix.toList ++ [(.spare, spare)] := by rw [hset]
    have hlspNew := correctLsps_of_lspFields (m := .A) hfields hfirst hix (decodeLsps_scalar (.inl rfl) ix) hlsps
    exact decodeFields_of_stages hwoes hlspNew htrajectory hsynthesis
  case modesBC =>
    have hwoes : decodeWoes p [w1, w2] d.predDec = .ok ([(u1.1, u1.2.1), (u2.1, u2.2.1)], u2.2.2) :=
      decodeWoes_cons hwo1 henergy1 (decodeWoes_cons hwo2 henergy2 rfl)
    refine ⟨fun hlsps subs samples z htrajectory hsynthesis => ?modeB,
      fun hlsps subs samples z htrajectory hsynthesis => ?modeC⟩
    case modeB =>
      have hfields : first ++ second ++ lspSet ix.toList = first ++ second ++ lspFields 0 ix.toList ++ [] := by
        rw [hset, List.append_nil]
      have hlspNew := correctLsps_of_lspFields (m := .B) hfields hboth hix (decodeLsps_scalar (.inr rfl) ix) hlsps
      exact decodeFields_of_stages hwoes hlspNew htrajectory hsynthesis
    case modeC =>
      have hfields : first ++ second ++ lspSet vq ++ [(.spare, spare)] =
          first ++ second ++ lspFields 0 vq ++ [(.spare, spare)] := by rw [hset]
      have hlspNew := correctLsps_of_lspFields (m := .C) hfields hboth hvq rfl hlsps
      exact decodeFields_of_stages hwoes hlspNew htrajectory hsynthesis

end Sys2Proof.Proofs.Decoder

/-! SUPPORT. The parameter interpolator (44_interpolator.md): the LSP trajectory (R261, R262), the harmonic count (R265), the
checks of R263 and R264 under the properties R266 names, the trajectory of a frame with two pairs (R260), the strict-order
check (R268, R269) and what it gives along a run (R270). -/

namespace Sys2Proof.Proofs.Interpolator

open Sys2Proof.Machine Sys2Proof.Safety

/-! ## The LSP trajectory (R261, R262) -/

/-- Before the last sub-frame the weight is `(k+1)/K`. -/
theorem lspOfSubframe_of_lt (p : Params) {m : FrameMode} (a b : LspVec) {k : Nat} {w : Rat} (hk : k + 1 < subframes m)
    (hw : ((k : Rat) + 1) / (subframes m : Rat) = w) : lspOfSubframe p m a b k = lerp p a b (.finite w) := by
  rw [lspOfSubframe, if_pos hk, lspWeight, hw]

/-- At the last sub-frame the vector is the decoded one itself. -/
theorem lspOfSubframe_last (p : Params) {m : FrameMode} (a b : LspVec) {k : Nat} (hk : k + 1 = subframes m) :
    lspOfSubframe p m a b k = b := by
  rw [lspOfSubframe, if_neg (by omega)]

/-- A mode of two sub-frames passes the halfway vector. -/
theorem lspTrajectory_two (p : Params) {m : FrameMode} (a b : LspVec) (hm : subframes m = 2) :
    lspTrajectory p m a b = [lerp p a b (.finite (1 / 2)), b] := by
  have h0 := lspOfSubframe_of_lt p (m := m) a b (k := 0) (w := 1 / 2) (by omega) (by rw [hm]; norm_num)
  have h1 := lspOfSubframe_last p (m := m) a b (k := 1) (by omega)
  rw [lspTrajectory, hm]
  simp only [List.range_succ, List.range_zero, List.nil_append, List.cons_append, List.map_cons, List.map_nil, h0, h1]

/-- A mode of four sub-frames passes the three quarter points. -/
theorem lspTrajectory_four (p : Params) {m : FrameMode} (a b : LspVec) (hm : subframes m = 4) :
    lspTrajectory p m a b =
      [lerp p a b (.finite (1 / 4)), lerp p a b (.finite (1 / 2)), lerp p a b (.finite (3 / 4)), b] := by
  have h0 := lspOfSubframe_of_lt p (m := m) a b (k := 0) (w := 1 / 4) (by omega) (by rw [hm]; norm_num)
  have h1 := lspOfSubframe_of_lt p (m := m) a b (k := 1) (w := 1 / 2) (by omega) (by rw [hm]; norm_num)
  have h2 := lspOfSubframe_of_lt p (m := m) a b (k := 2) (w := 3 / 4) (by omega) (by rw [hm]; norm_num)
  have h3 := lspOfSubframe_last p (m := m) a b (k := 3) (by omega)
  rw [lspTrajectory, hm]
  simp only [List.range_succ, List.range_zero, List.nil_append, List.cons_append, List.map_cons, List.map_nil, h0, h1, h2,
    h3]

/-- Settles O33: `lerp` works element by element, and the trajectory is that of two or of four sub-frames. -/
theorem lspTrajectoryWeights : Obligations.LspTrajectoryWeights := by
  intro p a b
  refine ⟨fun w i h => ?element, lspTrajectory_two p a b rfl, ?modesBC⟩
  case element => exact Vector.getElem_zipWith h
  case modesBC => rintro m (rfl | rfl) <;> exact lspTrajectory_four p a b rfl

/-! ## The harmonic count (R265) -/

section Harmonics

variable {p : Params} {wo : Numeric}

/-- Where the quotient has a floor, the check is on that floor. -/
theorem harmonics_of_toRat? {q : Rat} (h : (p.div p.pi wo).toRat? = some q) :
    harmonics p wo = if 1 ≤ ⌊q⌋ ∧ ⌊q⌋ ≤ (p.lMax : Int) then .ok ⌊q⌋.toNat else .error .collab := by
  have hfloor : (harmonicQuotient p wo).floor? = some ⌊q⌋ := by rw [Numeric.floor?, harmonicQuotient, h]; rfl
  rw [harmonics, hfloor]

/-- A quotient that is an infinity or NaN fails the check (log 12). -/
theorem harmonics_of_toRat?_none (h : (p.div p.pi wo).toRat? = none) : harmonics p wo = .error .collab := by
  have hfloor : (harmonicQuotient p wo).floor? = none := by rw [Numeric.floor?, harmonicQuotient, h]; rfl
  rw [harmonics, hfloor]

end Harmonics

/-- Settles O35: the two branches of the range check, and the quotient that has no floor. -/
theorem harmonicsRange : Obligations.HarmonicsRange := by
  intro p wo
  refine ⟨fun q hq => ⟨fun hlo hhi => ?inside, fun hout => ?outside⟩, harmonics_of_toRat?_none⟩
  case inside =>
    exact ⟨⌊q⌋.toNat, Int.toNat_of_nonneg (by omega), by rw [harmonics_of_toRat? hq, if_pos ⟨hlo, hhi⟩]⟩
  case outside => rw [harmonics_of_toRat? hq, if_neg (by omega)]

/-! ## The checks on INTERP_WO and INTERP_E (R263, R264) -/

section Checks

variable {p : Params}

/-- A value given only when it passes a check. -/
theorem ite_ok_error_eq_ok_iff {α : Type} {check : α → Bool} {a b : α} {code : FaultCode} :
    (if check a = true then Except.ok a else .error code) = .ok b ↔ a = b ∧ check b = true := by
  split
  case isTrue hok => exact ⟨fun h => by cases h; exact ⟨rfl, hok⟩, fun h => by rw [h.1]⟩
  case isFalse hbad => exact ⟨fun h => (by cases h), fun ⟨heq, hok⟩ => absurd (heq ▸ hok) hbad⟩

/-- The checked INTERP_WO answers what INTERP_WO does, where that is a finite positive Wo and sets no voicing (R263). -/
theorem interpolateWo_eq_ok_iff {left right : ModelHead} {voiced : Bool} {r : Numeric × Bool} :
    interpolateWo p left voiced right = .ok r ↔
      p.interpWo left voiced right halfWeight = r ∧ r.1.finitePositive = true ∧ (r.2 = true → voiced = true) := by
  have hvoicing : (!r.2 || voiced) = true ↔ (r.2 = true → voiced = true) := by cases r.2 <;> simp
  rw [← hvoicing, ← Bool.and_eq_true]
  exact ite_ok_error_eq_ok_iff (check := fun r : Numeric × Bool => r.1.finitePositive && (!r.2 || voiced))

/-- The checked INTERP_E answers what INTERP_E does, where that is finite and positive (R264). -/
theorem interpolateE_eq_ok_iff {left right e : Numeric} :
    interpolateE p left right = .ok e ↔ p.interpE left right halfWeight = e ∧ e.finitePositive = true :=
  ite_ok_error_eq_ok_iff

end Checks

/-! ## The order of NUM on finite positive values (R266) -/

section Positive

variable {a b x : Numeric}

theorem finitePositive_iff : x.finitePositive = true ↔ ∃ q : Rat, x = .finite q ∧ 0 < q := by
  cases x with
  | nan | posInf | negInf => simp [Numeric.finitePositive, Numeric.isFinite, Numeric.toRat?]
  | negZero | finite =>
    simp [Numeric.finitePositive, Numeric.isFinite, Numeric.toRat?, Numeric.lt, Numeric.rank?, Numeric.ofInt]

theorem isNaN_of_finitePositive (h : x.finitePositive = true) : x.isNaN = false := by
  obtain ⟨q, rfl, -⟩ := finitePositive_iff.mp h
  rfl

/-- A value that is neither below one finite positive value nor above another is finite and positive. -/
theorem finitePositive_of_le_of_le (ha : a.finitePositive = true) (hb : b.finitePositive = true)
    (hlo : Numeric.le a x = true) (hhi : Numeric.le x b = true) : x.finitePositive = true := by
  obtain ⟨q, rfl, hq⟩ := finitePositive_iff.mp ha
  obtain ⟨r, rfl, hr⟩ := finitePositive_iff.mp hb
  cases x with
  | nan | posInf | negInf => simp [Numeric.le, Numeric.rank?] at hlo hhi
  | negZero =>
    have hneg : q ≤ 0 := by simpa [Numeric.le, Numeric.rank?] using hlo
    exact absurd hq hneg.not_gt
  | finite s =>
    have hqs : q ≤ s := by simpa [Numeric.le, Numeric.rank?] using hlo
    exact finitePositive_iff.mpr ⟨s, rfl, hq.trans_le hqs⟩

theorem finitePositive_of_between (ha : a.finitePositive = true) (hb : b.finitePositive = true)
    (h : between a b x = true) : x.finitePositive = true := by
  simp only [between, Bool.or_eq_true, Bool.and_eq_true] at h
  obtain ⟨hax, hxb⟩ | ⟨hbx, hxa⟩ := h
  · exact finitePositive_of_le_of_le ha hb hax hxb
  · exact finitePositive_of_le_of_le hb ha hbx hxa

/-- Only zero has two representations, so a value that is the same number as a positive one is that value (log 14). -/
theorem eq_of_same (ha : a.finitePositive = true) (h : same x a = true) : x = a := by
  simp only [same, Bool.or_eq_true, Bool.and_eq_true, decide_eq_true_eq] at h
  obtain rfl | ⟨hxa, hax⟩ := h
  · rfl
  · obtain ⟨r, rfl, -⟩ := finitePositive_iff.mp (finitePositive_of_le_of_le ha ha hax hxa)
    obtain ⟨q, rfl, -⟩ := finitePositive_iff.mp ha
    have hrq : r ≤ q := by simpa [Numeric.le, Numeric.rank?] using hxa
    have hqr : q ≤ r := by simpa [Numeric.le, Numeric.rank?] using hax
    rw [le_antisymm hrq hqr]

end Positive

/-! ## Interpolation under the properties of R266 -/

section Contract

variable {p : Params}

/-- INTERP_WO_BETWEEN, read off an answer that passed the checks. -/
theorem interpolateWo_voiced_between (h : interpWoBetween p) {left right : ModelHead} (hl : left.voiced = true)
    (hr : right.voiced = true) {r : Numeric × Bool} (hok : interpolateWo p left true right = .ok r) :
    r.2 = true ∧ (left.wo.isNaN = false → right.wo.isNaN = false → between left.wo right.wo r.1 = true) := by
  obtain ⟨rfl, -, -⟩ := interpolateWo_eq_ok_iff.mp hok
  exact h left right hl hr

/-- Between voiced neighbours of finite positive Wo the checks pass. -/
theorem exists_interpolateWo_ok (h : interpWoBetween p) {left right : ModelHead} (hl : left.voiced = true)
    (hr : right.voiced = true) (hlwo : left.wo.finitePositive = true) (hrwo : right.wo.finitePositive = true) :
    ∃ wo, interpolateWo p left true right = .ok (wo, true) ∧ wo.finitePositive = true ∧
      between left.wo right.wo wo = true := by
  obtain ⟨hvoiced, hbetween⟩ := h left right hl hr
  have hin := hbetween (isNaN_of_finitePositive hlwo) (isNaN_of_finitePositive hrwo)
  have hpos := finitePositive_of_between hlwo hrwo hin
  exact ⟨_, interpolateWo_eq_ok_iff.mpr ⟨Prod.ext rfl hvoiced, hpos, fun _ => rfl⟩, hpos, hin⟩

/-- Between finite positive energies the check passes. -/
theorem exists_interpolateE_ok (h : interpEBetween p) {a b : Numeric} (ha : a.finitePositive = true)
    (hb : b.finitePositive = true) :
    ∃ e, interpolateE p a b = .ok e ∧ e.finitePositive = true ∧ between a b e = true := by
  have hin := h a b (lt_of_finitePositive ha) (lt_of_finitePositive hb)
  have hpos := finitePositive_of_between ha hb hin
  exact ⟨_, interpolateE_eq_ok_iff.mpr ⟨rfl, hpos⟩, hpos, hin⟩

/-- Between equal energies the check passes and the energy is theirs. -/
theorem interpolateE_self (h : interpESame p) {a : Numeric} (ha : a.finitePositive = true) :
    interpolateE p a a = .ok a :=
  interpolateE_eq_ok_iff.mpr ⟨eq_of_same ha (h a), ha⟩

end Contract

/-- Settles O59: what lies between two finite positive values is finite and positive, so the checks of R263 and R264 pass. -/
theorem interpolationKeepsContract : Obligations.InterpolationKeepsContract := fun _ =>
  ⟨fun h _ _ hl hr => ⟨fun _ => interpolateWo_voiced_between h hl hr, exists_interpolateWo_ok h hl hr⟩,
    fun h _ _ => exists_interpolateE_ok h, fun h _ => interpolateE_self h⟩

/-! ## The trajectory of Wo, energy and voicing (R260) -/

section Trajectory

variable {p : Params} {left : ModelHead} {leftE : Numeric} {x : PairInput} {l : Nat} {r : Numeric × Bool} {e : Numeric}

/-- A pair whose checks pass: the interpolated sub-frame, then the transmitted one, which is the next pair's left-hand
neighbour. -/
theorem trajectoryPair_ok (hl : harmonics p x.wo = .ok l)
    (hr : interpolateWo p left x.voicedFirst ⟨x.wo, l, x.voicedSecond⟩ = .ok r)
    (he : interpolateE p leftE x.energy = .ok e) :
    trajectoryPair p left leftE x =
      .ok (⟨r.1, e, r.2⟩, ⟨x.wo, x.energy, x.voicedSecond⟩, ⟨x.wo, l, x.voicedSecond⟩) := by
  simp [trajectoryPair, hl, hr, he]

theorem trajectory_cons {rest : List PairInput} {first second : SubParams} {right : ModelHead} {tail : List SubParams}
    (hpair : trajectoryPair p left leftE x = .ok (first, second, right))
    (hrest : trajectory p right x.energy rest = .ok tail) :
    trajectory p left leftE (x :: rest) = .ok (first :: second :: tail) := by
  simp [trajectory, hpair, hrest]

end Trajectory

/-- Settles O34: two pairs whose checks pass, the second with the first one's transmitted values on its left. -/
theorem trajectoryTable : Obligations.TrajectoryTable := by
  intro p P prevE x y l1 l3 hl1 hl3 S1 S3 r0 r2 e0 e2 hwo0 hvoicing0 henergy0 hwo2 hvoicing2 henergy2
  have hpair1 := trajectoryPair_ok hl1 (interpolateWo_eq_ok_iff.mpr ⟨rfl, hwo0, hvoicing0⟩)
    (interpolateE_eq_ok_iff.mpr ⟨rfl, henergy0⟩)
  have hpair2 := trajectoryPair_ok hl3 (interpolateWo_eq_ok_iff.mpr ⟨rfl, hwo2, hvoicing2⟩)
    (interpolateE_eq_ok_iff.mpr ⟨rfl, henergy2⟩)
  exact trajectory_cons hpair1 (trajectory_cons hpair2 rfl)

/-! ## The strict order of the LSPs (R268 to R270) -/

theorem strictlyIncreasing_eq_false_iff {m : Nat} (v : Vector Numeric m) :
    strictlyIncreasing v.toList = false ↔ ∃ n : Nat, ∃ h : n + 1 < m, Numeric.lt v[n] v[n + 1] = false := by
  rw [← Bool.not_eq_true, strictlyIncreasing_iff]
  simp

theorem correctLsps_eq_collab_iff (p : Params) (raw : LspVec) :
    correctLsps p raw = .error .collab ↔ strictlyIncreasing (p.bwExpand (p.lspOrderFix raw)).toList = false := by
  simp [correctLsps]

/-- Settles O36: LSP_FIX_STRICT gives an increasing vector, which BW_KEEPS_ORDER keeps; the check itself reads the vector
pair by pair. -/
theorem lspOrderCheck : Obligations.LspOrderCheck := by
  refine ⟨fun p hfix hbw raw => ?strict, fun p raw => ?collab⟩
  case strict =>
    have hinc := hbw _ (hfix raw)
    exact ⟨Decoder.correctLsps_ok hinc, hinc⟩
  case collab => rw [correctLsps_eq_collab_iff, strictlyIncreasing_eq_false_iff]

/-- What every step keeps, every run keeps that no fault or refusal ended. -/
theorem run_keeps {M : Host.Core} {P : M.State → Prop} (hstep : ∀ s t, P s → M.step s = .next t → P t) {n : Nat}
    {s t : M.State} (hs : P s) (hrun : M.run n s = .next t) : P t := by
  induction n generalizing s with
  | zero => cases hrun; exact hs
  | succ n ih =>
    obtain ⟨u, hu, hrest⟩ := run_succ hrun
    exact ih (hstep s u hs hu) hrest

/-- Settles O57: the invariant holds at reset and every step keeps it, and it says that `prev_lsps` increases. -/
theorem lspsIncreasingAlongEveryRun : Obligations.LspsIncreasingAlongEveryRun := by
  intro c q n t i hrun hi
  have hreset := WholeMachine.resetSatisfiesInvariant.2 c q 0
  have hinv : Safety.Inv t := run_keeps (M := Sys2Proof.core) WholeMachine.stepKeepsInvariant hreset hrun
  exact hinv.lspsIncreasing i hi

end Sys2Proof.Proofs.Interpolator

/-! SUPPORT. The errors (60_exceptions.md): what a faulting error leaves whichever step raises it (R290, R291), the commands
refused before they look at their input (R292, R293), BUS and UNINIT of host accesses (R295, R298), and COLLAB and NUMERIC of
ENCODE and DECODE (R296, R297) in the order the checks are reached (R300). -/

namespace Sys2Proof.Proofs.Exceptions

open Sys2Proof.Machine Sys2Proof.Safety

/-! ## What a faulting error leaves (R290, R291) -/

/-- What a fault is when `fault_err` is what raised it. -/
theorem fault_of_faultErr {e : FaultCode} {s : State} {r : Fault} (h : faultErr e s = .fault r) :
    faultErrCode r = e.err ∧ faultRegisters r = registersOf (raiseErr e s) ∧
      ∀ left, faultLeaves r = some left → left = raiseErr e s := by
  obtain ⟨r', hr', hspec⟩ := faultErr_spec e s
  cases h.symm.trans hr'
  exact hspec

/-- Only BUS leaves a BUS record. -/
theorem eq_bus_of_faultErr {e : FaultCode} {s left : State} (h : faultErr e s = .fault (.bus left)) :
    e = .bus ∧ left = raiseErr .bus s := by
  obtain ⟨hcode, -, hleft⟩ := fault_of_faultErr h
  have he : e = .bus := by
    cases e
    case bus => rfl
    all_goals cases hcode
  subst he
  exact ⟨rfl, hleft left rfl⟩

/-- The codes below 3 are OK and the two errors that do not fault (R291). -/
theorem three_le_code_err (e : FaultCode) : 3 ≤ e.err.code := by cases e <;> decide

/-- STATUS after a faulting error, precise or not. -/
theorem status_of_faultErr {e : FaultCode} {s : State} {r : Fault} (h : faultErr e s = .fault r) :
    errField (faultRegisters r).status = (faultErrCode r).code ∧ 3 ≤ (faultErrCode r).code ∧
      faultField (faultRegisters r).status = true := by
  obtain ⟨hcode, hregs, -⟩ := fault_of_faultErr h
  rw [hcode, hregs]
  exact ⟨errField_statusWord _, three_le_code_err e, faultField_statusWord _⟩

/-- Whatever step faults, one `fault_err` raised it, on the state without the operation; CMD is another there only for a
write of CMD (R34, R140). -/
theorem step_fault_raised {s : State} {r : Fault} (h : step s = .fault r) :
    ∃ e cmd, faultErr e { s with hostQueue := s.hostQueue.tail, cmd := cmd } = .fault r ∧
      (cmd ≠ s.cmd → ∃ v, s.hostQueue.head? = some (.write 0x000 4 v)) := by
  obtain ⟨op, rest, e, hq, ⟨hfault, -⟩ | ⟨v, rfl, hfault⟩⟩ := step_fault_cases (s := s) fun t ht => nomatch h.symm.trans ht
  · rw [hq]
    exact ⟨e, s.cmd, hfault.symm.trans h, fun hcmd => absurd rfl hcmd⟩
  · rw [hq]
    exact ⟨e, BitVec.ofNat 32 v, hfault.symm.trans h, fun _ => ⟨v, rfl⟩⟩

/-- Settles O49: one `fault_err` raised the fault, and it writes ERR and FAULT alone. -/
theorem faultsSetErrAndFaultOnly : Obligations.FaultsSetErrAndFaultOnly := by
  intro s r h
  obtain ⟨e, cmd, hraised, hcmd⟩ := step_fault_raised h
  obtain ⟨hcode, -, hleft⟩ := fault_of_faultErr hraised
  obtain ⟨herr, hge, hset⟩ := status_of_faultErr hraised
  refine ⟨herr, hge, hset, fun left hl => ?_⟩
  rw [hleft left hl, hcode]
  exact ⟨rfl, hcmd⟩

/-! ## Commands refused for the instance that is there, or is not (R292, R293) -/

/-- CREATE looks at the instance before it looks at its operand (R142, R300). -/
theorem execCreate_isSome {s : State} (h : s.inst.isSome = true) (mode : Nat) :
    execCreate mode s = faultErr .alreadyConfigured s := if_pos h

/-- Settles O13: the check for an instance is the first one CREATE makes, whatever the mode code. -/
theorem createWhileReadyFaults : Obligations.CreateWhileReadyFaults :=
  fun _ mode h => execCreate_isSome h mode

/-- Every command but CREATE needs an instance (R140). -/
theorem exec_eq_withInstance {i : Instr} (hi : i ∈ [Instr.destroy, .getbits, .getsamples, .encode, .decode]) (s : State) :
    ∃ k, exec i s = withInstance s k := by
  cases i with
  | create mode => simp at hi
  | destroy => exact ⟨_, rfl⟩
  | getbits => exact ⟨_, rfl⟩
  | getsamples => exact ⟨_, rfl⟩
  | encode => exact ⟨_, rfl⟩
  | decode => exact ⟨_, rfl⟩

/-- Settles O14: each of the five goes through `withInstance`, which finds none. -/
theorem commandsWithoutInstanceFault : Obligations.CommandsWithoutInstanceFault := by
  intro s i hnone hi
  obtain ⟨k, hk⟩ := exec_eq_withInstance hi s
  exact hk.trans (withInstance_none hnone k)

/-! ## Host accesses (R295, R298) -/

/-- The row of a register admits one address. -/
theorem register_row_iff {base : Nat} (hbase : base % 4 = 0) (a n : Nat) :
    base ≤ a ∧ a < base + 4 ∧ n = 4 ∧ a % 4 = 0 ↔ n = 4 ∧ a = base := by omega

/-- The row of a sample buffer admits every second address of it. -/
theorem pcm_row_iff (base a n : Nat) :
    base ≤ a ∧ a < base + 640 ∧ n = 2 ∧ a % 2 = 0 ↔ n = 2 ∧ base ≤ a ∧ a < base + 640 ∧ a % 2 = 0 := by omega

/-- The row of a byte buffer admits every address of it. -/
theorem bits_row_iff (base a n : Nat) :
    base ≤ a ∧ a < base + 7 ∧ n = 1 ∧ a % 1 = 0 ↔ n = 1 ∧ base ≤ a ∧ a < base + 7 := by omega

/-- The whole-element reads of the map (R70 to R72). -/
theorem admitted_read_eq_none_iff (a n : Nat) :
    admitted false a n = none ↔
      ¬(n = 4 ∧ (a = 0x000 ∨ a = 0x004 ∨ a = 0x008) ∨
        (n = 2 ∧ 0x100 ≤ a ∧ a < 0x100 + 640 ∧ a % 2 = 0) ∨ (n = 2 ∧ 0x400 ≤ a ∧ a < 0x400 + 640 ∧ a % 2 = 0) ∨
        (n = 1 ∧ 0x800 ≤ a ∧ a < 0x800 + 7) ∨ (n = 1 ∧ 0x810 ≤ a ∧ a < 0x810 + 7)) := by
  rw [admitted_eq_none, not_iff_not]
  simp only [windowMap, List.mem_cons, List.not_mem_nil, or_false, or_and_right, exists_or, exists_eq_left,
    Bool.false_eq_true, false_implies, and_true]
  rw [register_row_iff rfl, register_row_iff rfl, register_row_iff rfl, pcm_row_iff, pcm_row_iff, bits_row_iff,
    bits_row_iff, and_or_left, and_or_left, or_assoc, or_assoc]

/-- The whole-element writes of the map: the rows the host may write (R73). -/
theorem admitted_write_eq_none_iff (a n : Nat) :
    admitted true a n = none ↔
      ¬(n = 4 ∧ a = 0x000 ∨ (n = 2 ∧ 0x100 ≤ a ∧ a < 0x100 + 640 ∧ a % 2 = 0) ∨
        (n = 1 ∧ 0x800 ≤ a ∧ a < 0x800 + 7)) := by
  rw [admitted_eq_none, not_iff_not]
  simp only [windowMap, List.mem_cons, List.not_mem_nil, or_false, or_and_right, exists_or, exists_eq_left,
    Bool.false_eq_true, true_implies, and_true, and_false, false_or]
  rw [register_row_iff rfl, pcm_row_iff, bits_row_iff]

/-- A write of CMD is an admitted access, and the command it performs never raises BUS. -/
theorem commandWrite_ne_bus (w : Word) (s left : State) : commandWrite w s ≠ .fault (.bus left) := by
  intro h
  rcases commandWrite_cases w s with ⟨-, hc⟩ | ⟨i, -, hc⟩
  · obtain ⟨he, -⟩ := eq_bus_of_faultErr (hc.symm.trans h)
    cases he
  · exact exec_ne_bus i _ left (hc.symm.trans h)

/-- A read is BUS when it is not admitted, and only then. -/
theorem step_read_bus_iff {s : State} {rest : List HostOp} {a : Addr} {n : Nat} (hq : s.hostQueue = .read a n :: rest) :
    (∃ left, step s = .fault (.bus left)) ↔ admitted false a.toNat n = none := by
  rw [step_cons hq, performOp]
  rcases hostRead_cases a.toNat n (s.withHostQueue rest) with ⟨hadm, he⟩ | ⟨r, hadm, -, he⟩ | ⟨r, v, hadm, -, he⟩
  · exact iff_of_true ⟨_, he⟩ hadm
  · exact iff_of_false (fun ⟨left, hl⟩ => nomatch (eq_bus_of_faultErr (he.symm.trans hl)).1) (by simp [hadm])
  · exact iff_of_false (fun ⟨left, hl⟩ => nomatch he.symm.trans hl) (by simp [hadm])

/-- A write is BUS when it is not admitted, and only then. -/
theorem step_write_bus_iff {s : State} {rest : List HostOp} {a : Addr} {n v : Nat}
    (hq : s.hostQueue = .write a n v :: rest) :
    (∃ left, step s = .fault (.bus left)) ↔ admitted true a.toNat n = none := by
  rw [step_cons hq, performOp]
  have hadm := admitted_write_eq_none_iff a.toNat n
  rcases hostWrite_cases a.toNat n v (s.withHostQueue rest) with
    ⟨hnone, he⟩ | ⟨hn, ha, he⟩ | ⟨hn, hlo, hhi, heven, he⟩ | ⟨hn, hlo, hhi, he⟩
  · exact iff_of_true ⟨_, he⟩ hnone
  · exact iff_of_false (fun ⟨left, hl⟩ => commandWrite_ne_bus _ _ left (he.symm.trans hl)) (by rw [hadm]; omega)
  · exact iff_of_false (fun ⟨left, hl⟩ => nomatch he.symm.trans hl) (by rw [hadm]; omega)
  · exact iff_of_false (fun ⟨left, hl⟩ => nomatch he.symm.trans hl) (by rw [hadm]; omega)

/-- What BUS leaves: STATUS with its error, on the state without the access. -/
theorem step_bus_leaves {s left : State} (h : step s = .fault (.bus left)) :
    ∃ rest, left = raiseErr .bus (s.withHostQueue rest) := by
  obtain ⟨op, rest, e, hq, ⟨hfault, -⟩ | ⟨v, rfl, -⟩⟩ := step_fault_cases (s := s) fun t ht => nomatch h.symm.trans ht
  · obtain ⟨rfl, hleft⟩ := eq_bus_of_faultErr (hfault.symm.trans h)
    exact ⟨rest, hleft⟩
  · exact absurd ((step_command hq).symm.trans h) (commandWrite_ne_bus _ _ left)

/-- Settles O44: an access is BUS when the map does not admit it, and the map's rows are the accesses the statement lists. -/
theorem inadmissibleAccessFaultsBus : Obligations.InadmissibleAccessFaultsBus := by
  intro s rest a n
  refine ⟨fun hq => ?read, fun v hq => ?write, fun left h => ?leaves⟩
  case read =>
    rw [step_read_bus_iff hq, admitted_read_eq_none_iff]
    simp only [← BitVec.toNat_inj]
    exact Iff.rfl
  case write =>
    rw [step_write_bus_iff hq, admitted_write_eq_none_iff]
    simp only [← BitVec.toNat_inj]
    exact Iff.rfl
  case leaves =>
    obtain ⟨rest', rfl⟩ := step_bus_leaves h
    exact ⟨errField_statusWord _, faultField_statusWord _, rfl, rfl, rfl, rfl⟩

/-- Settles O46: the access is admitted to its buffer, and the element behind it has no value. -/
theorem hostReadOfUnwrittenFaults : Obligations.HostReadOfUnwrittenFaults := by
  intro s rest a i
  refine ⟨fun hq hi ha hnone => ?pcm, fun hq hi ha hnone => ?bits⟩
  case pcm =>
    obtain ⟨r, hadm, helement⟩ := WindowAccess.admitted_read_pcm ⟨i, hi, ha⟩
    exact step_read_unwritten hq hadm (by rw [helement, State.withHostQueue_mem, hnone, Option.map_none])
  case bits =>
    obtain ⟨r, hadm, helement⟩ := WindowAccess.admitted_read_bits (a := a.toNat) (by unfold WholeMachine.BitsAddress; omega)
    exact step_read_unwritten hq hadm (by rw [helement, State.withHostQueue_mem, hnone, Option.map_none])

/-! ## ENCODE and DECODE (R296, R297, R300) -/

/-- An ENCODE whose quantizer gives an index that does not fit packs no frame (R171). -/
theorem encodeFrame_of_not_encodeContract {p : Params} {m : FrameMode} {x : List Sample} {e : EncState}
    (h : ¬encodeContract p m x e) : encodeFrame p m x e = .error .collab := by
  obtain ⟨hkept, -⟩ | ⟨-, hfails⟩ := encodeFrame_cases p m x e
  · exact absurd hkept h
  · exact hfails

/-- Settles O29: the input is read and the frame does not pack, so ENCODE is `fault_err(COLLAB)`. -/
theorem encodeIndexTooLargeFaults : Obligations.EncodeIndexTooLargeFaults :=
  fun _ _ _ hi hlen hread hbroken =>
    execEncode_error hi (Encoder.inputSamples_eq_some hlen hread) (encodeFrame_of_not_encodeContract hbroken)

section FirstFailure

variable {p : Params} {m : FrameMode} {f : FieldList} {d : DecState}

/-- A check that fails before synthesis is COLLAB (R296). -/
theorem decodeFields_of_not_decodeParamsOk (h : ¬decodeParamsOk p m f d) : decodeFields p m f d = .error .collab := by
  obtain ⟨hkept, -⟩ | ⟨-, hfails⟩ | ⟨hok, -⟩ := decodeFields_cases p m f d
  · exact absurd hkept.1 h
  · exact hfails
  · exact absurd hok h

/-- The fault of a sub-frame whose checks do not both pass: the harmonic count is checked before a sample is saturated
(R300). -/
def subframeFault (p : Params) (f : FieldList) (d : DecState) (k : Nat) : FaultCode :=
  if harmonicsInRange p (subParams p f d k).wo = true then .numeric else .collab

/-- When the checks before synthesis pass, the first sub-frame whose checks fail decides (R300). -/
theorem decodeFields_of_first_failing {k : Nat} (hok : decodeParamsOk p m f d) (hk : k < subframes m)
    (hbefore : ∀ k' < k, decodeSubframeOk p m f d k') (hfails : ¬decodeSubframeOk p m f d k) :
    decodeFields p m f d = .error (subframeFault p f d k) := by
  obtain ⟨hkept, -⟩ | ⟨hnot, -⟩ | ⟨-, j, -, hbefore', hcases⟩ := decodeFields_cases p m f d
  · exact absurd (hkept.2 k hk) hfails
  · exact absurd hok hnot
  have hfails' : ¬decodeSubframeOk p m f d j := by
    obtain ⟨hrange, -⟩ | ⟨-, hnan, -⟩ := hcases
    · exact fun h => absurd (h.1.symm.trans hrange) (by decide)
    · exact fun h => hnan h.2
  obtain rfl : j = k := by
    obtain hlt | heq | hgt := Nat.lt_trichotomy j k
    · exact absurd (hbefore j hlt) hfails'
    · exact heq
    · exact absurd (hbefore' k hgt) hfails
  obtain ⟨hrange, hfault⟩ | ⟨hrange, -, hfault⟩ := hcases <;> rw [hfault] <;> simp [subframeFault, hrange]

end FirstFailure

/-- Settles O39: the input is read, so DECODE ends in the fault of its frame, which is COLLAB before synthesis and the first
failing sub-frame's own in it. -/
theorem decodeFaultsInOrder : Obligations.DecodeFaultsInOrder := by
  intro s i bytes hi hlen hread f
  have hbytes := Decoder.inputBytes_eq_some hlen hread
  have hexec : ∀ {code}, decodeFields s.params i.mode f i.cs.dec = .error code → execDecode s = faultErr code s :=
    execDecode_error hi hbytes
  refine ⟨fun hbad => hexec (decodeFields_of_not_decodeParamsOk hbad), fun hok k hk hbefore => ⟨?harmonics, ?nan⟩⟩
  case harmonics =>
    intro hrange
    have hfault := decodeFields_of_first_failing hok hk hbefore fun h => absurd (h.1.symm.trans hrange) (by decide)
    rw [subframeFault, if_neg (by simp [hrange])] at hfault
    exact hexec hfault
  case nan =>
    intro hrange hnan
    have hfault := decodeFields_of_first_failing hok hk hbefore fun h => hnan h.2
    rw [subframeFault, if_pos hrange] at hfault
    exact hexec hfault

end Sys2Proof.Proofs.Exceptions

/-! SUPPORT. Reset and waiting (70_reset_and_hazards.md): what the reset input leaves and what alone clears STATUS.FAULT (R320),
and the block with no host operation to perform (R321). -/

namespace Sys2Proof.Proofs.ResetAndHazards

open Sys2Proof.Machine Sys2Proof.Safety

/-! ## The reset input (R320) -/

/-- The reset input is performed as any operation: taken off the host's list (log 1). -/
theorem step_reset {s : State} {rest : List HostOp} (hq : s.hostQueue = .reset :: rest) :
    step s = .next (hardwareReset (s.withHostQueue rest)) := step_cons hq

/-- What the reset input keeps, which is not the hardware's (log 19), shows in no register. -/
theorem registersOf_hardwareReset (s : State) : registersOf (hardwareReset s) = registersOf State.reset := rfl

/-- Of the steps that do not fault, only the reset input writes FAULT: host accesses and commands that complete leave it. -/
theorem step_next_reset_or_keeps_fault {s t : State} (h : step s = .next t) :
    s.hostQueue.head? = some .reset ∨ t.fault = s.fault := by
  rcases step_next_cases h with
    ⟨-, rfl⟩ | ⟨op, rest, hq, ⟨rfl, -⟩ | ⟨a, n, v, -, rfl⟩ | ⟨a, v, -, -, -, -, rfl⟩ | ⟨a, v, -, -, -, rfl⟩ |
      ⟨v, i, -, -, hexec⟩⟩
  case inl => exact .inr rfl
  case inr.inl => exact .inl (by rw [hq]; rfl)
  case inr.inr.inr.inr.inr =>
    obtain ⟨-, hfault, -⟩ := exec_next_keeps hexec
    exact .inr hfault
  all_goals exact .inr (by simp)

/-- Settles O2: the reset input leaves the registers of `State.reset` (R59), no instance and an empty memory; any other step
keeps FAULT. -/
theorem resetInputRestoresAndAloneClearsFault : Obligations.ResetInputRestoresAndAloneClearsFault := by
  obtain ⟨hregs, -, -⟩ := WholeMachine.resetValues
  refine ⟨fun s rest hq => ⟨_, step_reset hq, ?registers, hardwareReset_inst _, ?marks⟩, fun s t h hset hclear => ?fault⟩
  case registers => rw [registersOf_hardwareReset, hregs]
  case marks =>
    intro a
    rw [hardwareReset_mem, Memory.get_nil]
  case fault =>
    rcases step_next_reset_or_keeps_fault h with hreset | hkept
    · exact hreset
    · rw [hset, hclear] at hkept
      cases hkept

/-! ## Waiting (R321) -/

/-- Settles O8: with nothing queued the step is the wait of R321. -/
theorem idleStepChangesNothing : Obligations.IdleStepChangesNothing := fun _ hq => step_nil hq

end Sys2Proof.Proofs.ResetAndHazards
